-- ==== Sys2Proof/Word.lean ====
section
/-! DEFINITION. The word types of the core: bytes, command words and the response's fields.

Registers whose width the spec ties to a build parameter (`clog2(C)` bits and the like) are natural numbers here, as
rule R14 writes them; their ranges are an invariant of the machine (Safety.lean), never a truncation (log 9). -/

namespace Sys2Proof

/-- One byte of a host stream, of the staging buffer or of a table (R65). -/
abbrev Byte := BitVec 8

/-- A command word as a `CMD` port carries it (R81). -/
abbrev CmdWord := BitVec 16

/-- The `STATUS` field of a response word (R85). -/
abbrev StatusCode := BitVec 8

/-- The `INFO` field of a response word (R85). -/
abbrev InfoWord := BitVec 32

end Sys2Proof
end

