-- ==== Sys2Proof/Machine/Operands.lean ====
section
/-! DEFINITION. The quantities derived from `MAXB` and `C`, and operand assembly: the one operand of a command is its
DATA byte (R83). -/

namespace Sys2Proof.Machine

/-- `clog2(n)`: the smallest `w >= 0` with `n <= 2^w` (R8). -/
def clog2 (n : Nat) : Nat :=
  if n ≤ 1 then 0 else Nat.log2 (n - 1) + 1

/-- `L = MAXB + 1`, the number of literal codes (R8). -/
def literalCount (maxb : Byte) : Nat := maxb.toNat + 1

/-- `EOS = MAXB + 1 = L`, the end-of-stream code (R8). -/
def eosCode (maxb : Byte) : Nat := maxb.toNat + 1

/-- `N0 = L + 1`, the entry count of an empty dictionary (R8). -/
def emptyCount (maxb : Byte) : Nat := maxb.toNat + 2

/-- `W0 = clog2(L + 1)`, the starting code width (R8). -/
def startWidth (maxb : Byte) : Nat := clog2 (literalCount maxb + 1)

/-- `WMAX = clog2(C)`, the largest code width (R8). -/
def maxWidth (cap : Nat) : Nat := clog2 cap

/-- The smallest staging buffer the spec admits: `ceil(WMAX / 8)` bytes (R11). -/
def minStageBytes (cap : Nat) : Nat := (maxWidth cap + 7) / 8

/-- The check of INIT: a configuration is valid when `C >= MAXB + 3` (R9, R144, R181). -/
def configValid (cap : Nat) (maxb : Byte) : Bool := maxb.toNat + 3 ≤ cap

/-- `zext_32(v)` (R14). No rule of this hardware sign-extends. -/
def zext32 (v : Nat) : InfoWord := BitVec.ofNat 32 v

/-- The info word of `ENC.BYTE.REMAP`'s range error: `zext_32((d << 8) | b)`, the index in bits 15:8 and the remapped
byte in bits 7:0 (R146, R215). -/
def remapInfo (d b : Byte) : InfoWord := zext32 ((d.toNat <<< 8) ||| b.toNat)

end Sys2Proof.Machine
end

