-- ==== Sys2Proof/Config.lean ====
section
/-! DEFINITION. The build parameters of the two units (R6, R10, R11, R44). Each is OPEN in the spec (D5, D16, D19).

A unit carries its build parameters in State (read-only, R44), so every statement over all states holds for every
build. Only the machine that `State.reset` names needs one particular build: it is built from constants with no body, of
which nothing is known beyond the ranges of R6 and R11 (log 3). -/

namespace Sys2Proof

/-- `STRATEGY`: the encode-side child-search structure (R3, R10). -/
inductive Strategy where
  | list
  | trie
  deriving DecidableEq, Repr, Inhabited

/-- The build parameters of the encoder unit (R44). -/
structure EncBuild where
  /-- `C`, the dictionary capacity (R6). -/
  cap : Nat
  /-- `B`, the size of the staging buffer in bytes (R11). -/
  stageBytes : Nat
  /-- `STRATEGY` (R10). -/
  strategy : Strategy
  deriving DecidableEq, Repr

/-- The build parameter of the decoder unit (R44); it has no strategy (R10). -/
structure DecBuild where
  /-- `C`, the dictionary capacity (R6). -/
  cap : Nat
  deriving DecidableEq, Repr

/-- How far the capacity of the encoder unit lies above 3: some number, not known (R6: `3 <= C <= 2^32`). -/
opaque Config.encCapacityAboveMin : Fin 4294967294

/-- How many bytes the staging buffer has beyond the least admitted: some number, not known (R11). -/
opaque Config.stageBytesAboveMin : Nat

/-- The strategy the encoder unit is built with: not known (R10). -/
opaque Config.strategy : Strategy

/-- How far the capacity of the decoder unit lies above 3: some number, not known (R6). It is a constant of its own: each
unit is built with its own `C`, and that the two are equal is the host's duty (R6, R235). -/
opaque Config.decCapacityAboveMin : Fin 4294967294

/-- The build of the encoder unit at `State.reset`. -/
def Config.encBuild : EncBuild where
  cap := 3 + Config.encCapacityAboveMin.val
  stageBytes :=
    Machine.minStageBytes (3 + Config.encCapacityAboveMin.val) + Config.stageBytesAboveMin
  strategy := Config.strategy

/-- The build of the decoder unit at `State.reset`. -/
def Config.decBuild : DecBuild where
  cap := 3 + Config.decCapacityAboveMin.val

end Sys2Proof
end

