-- ==== Sys2Proof/Syntax.lean ====
section
/-! DEFINITION. The commands of the core, one constructor per row of the opcode table (R82), the two `CMD` ports, and the
lines of the assembler (R92).

Every command has at most one operand, the 8-bit DATA field (R83), so an operand is a byte by its type. -/

namespace Sys2Proof

/-- The two units, each with a `CMD` port of its own (R2, R80). -/
inductive Port where
  | enc
  | dec
  deriving DecidableEq, Repr

/-- The legal commands (R82). -/
inductive Instr where
  /-- `ENC.INIT m` (R144). -/
  | encInit (m : Byte)
  /-- `ENC.BYTE b` (R145). -/
  | encByte (b : Byte)
  /-- `ENC.BYTE.REMAP d` (R146). -/
  | encByteRemap (d : Byte)
  /-- `ENC.FINAL` (R147). -/
  | encFinal
  /-- `DEC.INIT m` (R181). -/
  | decInit (m : Byte)
  /-- `DEC.BYTE x` (R182). -/
  | decByte (x : Byte)
  deriving DecidableEq, Repr

/-- The unit whose `CMD` port takes the command (R81, R82). -/
def Instr.port : Instr → Port
  | .encInit _ => .enc
  | .encByte _ => .enc
  | .encByteRemap _ => .enc
  | .encFinal => .enc
  | .decInit _ => .dec
  | .decByte _ => .dec

/-- The mnemonics of R82. -/
inductive Mnemonic where
  | encInit
  | encByte
  | encByteRemap
  | encFinal
  | decInit
  | decByte
  deriving DecidableEq, Repr

/-- A line of assembly that names a command: a mnemonic and its operand, if one is written (R92). The operand is the
number as written, of any size. -/
structure AsmLine where
  mnemonic : Mnemonic
  operand : Option Nat
  deriving DecidableEq, Repr

end Sys2Proof
end

