-- ==== Sys2Proof/Machine/State.lean ====
section
/-! DEFINITION. The state of the core: everything 10_state.md, 20_memory.md and 30_encoding.md give it, as plain data.

Two units that share nothing (R2, R227), each with its build parameters, its registers, its private memories and its
ports; the host's REMAP table; and the host's pending events, one of which each step takes. There is no program counter
(R21), no flag (R43), no mode (R226). -/

namespace Sys2Proof.Machine

/-- The private memories of the units (R60; the parts of `ENC.DICT` as R117, R118 and R122 name them). -/
inductive MemName where
  | encStage
  | encBytev
  | encFirst
  | encSib
  | encRoot
  | encNxt
  | decPrefix
  | decBytev
  | decScratch
  deriving DecidableEq, Repr

/-- Why the machine stops. No rule of the spec stops it: an error is a response (R210). These are the model's own, each
for something the spec says cannot happen, and each is SAFE: the model stops where no run of the hardware comes. -/
inductive Fault where
  /-- A memory was accessed at an index outside the range R60 gives it. Raised by `memRead` and `memWrite`, so by every
  command that uses a private memory. R62: "An out-of-range access cannot happen". Safe (log 10). -/
  | indexOutOfRange (mem : MemName) (index : Nat)
  /-- A dictionary search did not end within the bound of R95 (at most `C` list steps, or 8 trie levels). Raised by
  `ENC.BYTE` and `ENC.BYTE.REMAP`. Safe (log 10). -/
  | searchUnbounded
  /-- The unpacker's code loop did not end (a code width of 0). Raised by `DEC.BYTE`. R95 bounds the loop. Safe (log 10). -/
  | codeLoopUnbounded
  deriving DecidableEq, Repr

/-- Why an instruction has no meaning. -/
inductive Refusal where
  /-- Raised by an arm of `exec` for an instruction not modelled yet, by its mnemonic. Safe. No arm does so now. -/
  | notModelled (mnemonic : String)
  deriving DecidableEq, Repr

/-- A private memory: the entries that differ from what an unlisted index reads as, by strictly rising index
(`Memory.wf` in Ops.lean). -/
abbrev Memory (α : Type) := List (Nat × α)

/-- A memory of bytes is a list of the host's cells. -/
abbrev ByteMemory := List Host.Cell

/-- What an unlisted index of a byte memory reads as (the spec leaves it unspecified, R63; log 2). -/
def unlistedByte : Byte := 0#8

/-- What an unlisted index of a link memory reads as: `NONE` (log 2). -/
def unlistedLink : Option Nat := none

/-- What an unlisted index of `DEC.PREFIX` reads as (the spec leaves it unspecified, R63; log 2). -/
def unlistedCode : Nat := 0

/-- A response word (R85). -/
structure Response where
  /-- `RESP[7:0]`. -/
  status : StatusCode
  /-- `RESP[39:8]`. -/
  info : InfoWord
  deriving DecidableEq, Repr

/-- The decoder's stream state `DEC.st` (R39). The value 3 of the register is never written (I17, log 11). -/
inductive DecSt where
  | run
  | done
  | error
  deriving DecidableEq, Repr

/-- The encoder unit: build parameters, registers R22 to R28, memories R29, R30, ports R80. -/
structure EncUnit where
  /-- `C`, `B` and `STRATEGY`, read-only (R44). -/
  build : EncBuild
  /-- `ENC.CFG` (R22). -/
  cfg : Bool
  /-- `ENC.MAXB` (R23). -/
  maxb : Byte
  /-- `ENC.count` (R24). -/
  count : Nat
  /-- `ENC.idx` (R25). -/
  idx : Nat
  /-- `ENC.idxv` (R25). -/
  idxv : Bool
  /-- `ENC.w` (R26). -/
  w : Nat
  /-- `ENC.T` (R27). -/
  t : Nat
  /-- `ENC.cur` (R28). -/
  cur : Byte
  /-- `ENC.off` (R28). -/
  off : Nat
  /-- `ENC.pos` (R28). -/
  pos : Nat
  /-- `ENC.stage` (R29). -/
  stage : ByteMemory
  /-- `ENC.BYTEV` (R117). -/
  bytev : ByteMemory
  /-- `ENC.FIRST` (R118), used by a LIST build. -/
  first : Memory (Option Nat)
  /-- `ENC.SIB` (R118), used by a LIST build. -/
  sib : Memory (Option Nat)
  /-- `ENC.ROOT` (R122), used by a TRIE build: slot `ROOT[c][b]` at index `2 * c + b` (log 12). -/
  root : Memory (Option Nat)
  /-- `ENC.NXT` (R122), used by a TRIE build: slot `NXT[c][b]` at index `2 * c + b` (log 12). -/
  nxt : Memory (Option Nat)
  /-- The deliveries made on `ENC_OUT`, oldest first (R80, R90). -/
  out : List (List Byte)
  /-- The response words returned on `RESP`, oldest first (R80, R85). -/
  resp : List Response
  deriving DecidableEq, Repr

/-- The decoder unit: build parameter, registers R31 to R40, memories R41, R42, ports R80. -/
structure DecUnit where
  /-- `C`, read-only (R44). -/
  build : DecBuild
  /-- `DEC.CFG` (R31). -/
  cfg : Bool
  /-- `DEC.MAXB` (R32). -/
  maxb : Byte
  /-- `DEC.count` (R33). -/
  count : Nat
  /-- `DEC.w` (R34). -/
  w : Nat
  /-- `DEC.T` (R35). -/
  t : Nat
  /-- `DEC.prev` (R36). -/
  prev : Nat
  /-- `DEC.prevv` (R36). -/
  prevv : Bool
  /-- `DEC.pfirst` (R37). -/
  pfirst : Byte
  /-- `DEC.acc` (R38). -/
  acc : Nat
  /-- `DEC.nacc` (R38). -/
  nacc : Nat
  /-- `DEC.st` (R39). -/
  st : DecSt
  /-- `DEC.err` (R40). -/
  err : StatusCode
  /-- `DEC.info` (R40). -/
  info : InfoWord
  /-- `DEC.PREFIX` (R41). -/
  pfx : Memory Nat
  /-- `DEC.BYTEV` (R41). -/
  bytev : ByteMemory
  /-- `DEC.SCRATCH` (R42). -/
  scratch : ByteMemory
  /-- The deliveries made on `DEC_OUT`, oldest first (R80, R90). -/
  out : List (List Byte)
  /-- The response words returned on `RESP`, oldest first (R80, R85). -/
  resp : List Response
  deriving DecidableEq, Repr

/-- What the host can do to the core between two commands (R96, R230). -/
inductive HostEvent where
  /-- Issue a command word at a unit's `CMD` port (R80, R96). -/
  | command (port : Port) (word : CmdWord)
  /-- Change one entry of the REMAP table (R91, R96, R240). -/
  | remapWrite (index value : Byte)
  /-- Assert and release a unit's reset input (R230). -/
  | resetPulse (port : Port)
  deriving DecidableEq, Repr

/-- The state of the core and of its host interface. -/
structure State where
  /-- The encoder unit. -/
  enc : EncUnit
  /-- The decoder unit. -/
  dec : DecUnit
  /-- The host's REMAP table, 256 bytes (R91). -/
  remap : ByteMemory
  /-- The host's pending events, in the order it issues them (R13, R21; log 4). -/
  host : List HostEvent
  deriving DecidableEq, Repr

/-- An encoder unit of a given build after hardware reset: `CFG = 0` (R48, R230); every other register and memory is
unspecified there and holds the value log 1 and log 2 name. -/
def EncUnit.reset (b : EncBuild) : EncUnit where
  build := b
  cfg := false
  maxb := 0#8
  count := 0
  idx := 0
  idxv := false
  w := 0
  t := 0
  cur := 0#8
  off := 0
  pos := 0
  stage := []
  bytev := []
  first := []
  sib := []
  root := []
  nxt := []
  out := []
  resp := []

/-- A decoder unit of a given build after hardware reset: `CFG = 0` (R48, R230); every other register and memory is
unspecified there and holds the value log 1 and log 2 name. -/
def DecUnit.reset (b : DecBuild) : DecUnit where
  build := b
  cfg := false
  maxb := 0#8
  count := 0
  w := 0
  t := 0
  prev := 0
  prevv := false
  pfirst := 0#8
  acc := 0
  nacc := 0
  st := .run
  err := 0#8
  info := 0#32
  pfx := []
  bytev := []
  scratch := []
  out := []
  resp := []

/-- The machine of given builds right after hardware reset, before the host has issued anything (R48, R230). -/
def State.resetOf (e : EncBuild) (d : DecBuild) : State where
  enc := EncUnit.reset e
  dec := DecUnit.reset d
  remap := []
  host := []

/-- The machine right after reset, at the build that Config names (log 3). -/
def State.reset : State := State.resetOf Config.encBuild Config.decBuild

end Sys2Proof.Machine
end

