-- ==== Sys2Proof/Machine/Flags.lean ====
section
/-! DEFINITION. Status. Neither unit has condition codes (R43): the only status a unit reports is the STATUS of a
response (R211), and the decoder keeps `DEC.st` (R39). -/

namespace Sys2Proof.Machine

/-- `S_OK` (R211). -/
def sOk : StatusCode := 0x00#8

/-- `S_MORE`, the same value as `S_OK`; the unit and the command tell them apart (R211). -/
def sMore : StatusCode := 0x00#8

/-- `S_DONE` (R211). -/
def sDone : StatusCode := 0x01#8

/-- `E_ILLEGAL_COMMAND` (R211, R214). -/
def eIllegalCommand : StatusCode := 0x80#8

/-- `E_NOT_CONFIGURED` (R211, R213). -/
def eNotConfigured : StatusCode := 0x81#8

/-- `E_CONFIG` (R211, R212). -/
def eConfig : StatusCode := 0x82#8

/-- `E_BYTE_RANGE` (R211, R215). -/
def eByteRange : StatusCode := 0x83#8

/-- `E_CODE_RANGE` (R211, R216). -/
def eCodeRange : StatusCode := 0x84#8

/-- `E_SELF_REF_NO_PREV` (R211, R217). -/
def eSelfRefNoPrev : StatusCode := 0x85#8

/-- Bit 7 of STATUS is 1 exactly for the errors (R211). -/
def isError (s : StatusCode) : Bool := s.getLsbD 7

/-- The STATUS values of R211. No other value is ever returned. -/
def statusCodes : List StatusCode :=
  [sOk, sDone, eIllegalCommand, eNotConfigured, eConfig, eByteRange, eCodeRange, eSelfRefNoPrev]

/-- The 40 bits of a response word: `INFO` in bits 39:8, `STATUS` in bits 7:0 (R85). -/
def Response.word (r : Response) : BitVec 40 := r.info.append r.status

/-- The response of a command that ends without an error: `INFO` is 0 (R85). -/
def success (s : StatusCode) : Response := ⟨s, 0#32⟩

/-- The value the 2-bit register `DEC.st` holds (R39). -/
def DecSt.value : DecSt → BitVec 2
  | .run => 0#2
  | .done => 1#2
  | .error => 2#2

/-- The decoder's status by its stream state: `S_DONE` after EOS, the latched error after an error, `S_MORE` otherwise
(the three status lines of R182; R218, R219). -/
def DecUnit.streamStatus (d : DecUnit) : Response :=
  match d.st with
  | .done => success sDone
  | .error => ⟨d.err, d.info⟩
  | .run => success sMore

end Sys2Proof.Machine
end

