-- ==== Sys2Proof/Machine/Ops.lean ====
section
/-! DEFINITION. The named operations over memories, registers and ports that the commands share: reading and writing a
private memory (R63), delivering to a sink (R90), returning a response (R85), and raising an error (R210). -/

namespace Sys2Proof.Machine

/-! ### Memories -/

/-- The entry at index `a` of a memory whose unlisted indices read as `d` (R63). -/
def Memory.read {α : Type} (d : α) : Memory α → Nat → α
  | [], _ => d
  | (k, v) :: rest, a => if a = k then v else Memory.read d rest a

/-- Set the entry at index `a` to `v` (R63), keeping the canonical form: an entry equal to `d` is not listed. -/
def Memory.write {α : Type} [DecidableEq α] (d : α) : Memory α → Nat → α → Memory α
  | [], a, v => if v = d then [] else [(a, v)]
  | (k, x) :: rest, a, v =>
    if a < k then
      if v = d then (k, x) :: rest else (a, v) :: (k, x) :: rest
    else if a = k then
      if v = d then rest else (a, v) :: rest
    else (k, x) :: Memory.write d rest a v

/-- Set every entry below index `n` to what an unlisted index reads as. -/
def Memory.clearBelow {α : Type} (n : Nat) (m : Memory α) : Memory α :=
  m.filter fun c => n ≤ c.1

/-- Every index of the list is at least `lo`, the indices rise strictly, and no listed entry equals `d`. -/
def Memory.wfFrom {α : Type} [DecidableEq α] (d : α) : Nat → Memory α → Bool
  | _, [] => true
  | lo, (k, v) :: rest => lo ≤ k && v != d && Memory.wfFrom d (k + 1) rest

/-- The canonical form: indices strictly rising, and no entry equal to what an unlisted index reads as. -/
def Memory.wf {α : Type} [DecidableEq α] (d : α) (m : Memory α) : Bool := Memory.wfFrom d 0 m

/-- `MemRead(M, a)` of a memory with index range `lo..hi-1` (R60, R63); outside the range there is no entry (R62,
log 10). -/
def memRead {α : Type} (name : MemName) (lo hi : Nat) (d : α) (m : Memory α) (a : Nat) :
    Except Fault α :=
  if lo ≤ a ∧ a < hi then .ok (Memory.read d m a) else .error (.indexOutOfRange name a)

/-- `MemWrite(M, a, v)` of a memory with index range `lo..hi-1` (R60, R63); outside the range there is no entry (R62,
log 10). -/
def memWrite {α : Type} [DecidableEq α] (name : MemName) (lo hi : Nat) (d : α) (m : Memory α)
    (a : Nat) (v : α) : Except Fault (Memory α) :=
  if lo ≤ a ∧ a < hi then .ok (Memory.write d m a v) else .error (.indexOutOfRange name a)

/-- The first `n` bytes of a byte memory, in order. -/
def Memory.prefixBytes (m : ByteMemory) (n : Nat) : List Byte :=
  (List.range n).map (Memory.read unlistedByte m)

/-! ### Ports of the encoder unit -/

/-- `SINK_ENC(bytes)`: one delivery on `ENC_OUT` (R90). -/
def EncUnit.deliver (u : EncUnit) (bytes : List Byte) : EncUnit := { u with out := u.out ++ [bytes] }

/-- The command ends with a response (R85). -/
def EncUnit.respond (u : EncUnit) (r : Response) : EncUnit := { u with resp := u.resp ++ [r] }

/-- `raise E(info)` (R210): the response is `STATUS = E`, `INFO = info`, no later step of the command runs, nothing is
rolled back, and no other state is saved or changed. -/
def EncUnit.raise (u : EncUnit) (e : StatusCode) (info : InfoWord) : EncUnit := u.respond ⟨e, info⟩

/-! ### Ports of the decoder unit -/

/-- `SINK_DEC(bytes)`: one delivery on `DEC_OUT` (R90). -/
def DecUnit.deliver (d : DecUnit) (bytes : List Byte) : DecUnit := { d with out := d.out ++ [bytes] }

/-- The command ends with a response (R85). -/
def DecUnit.respond (d : DecUnit) (r : Response) : DecUnit := { d with resp := d.resp ++ [r] }

/-- `raise E(info)` (R210), as at the encoder. There is no return from it (R223): the unit waits for its next command. -/
def DecUnit.raise (d : DecUnit) (e : StatusCode) (info : InfoWord) : DecUnit := d.respond ⟨e, info⟩

/-! ### The core -/

/-- Put an encoder unit back into the core: nothing else changes (R227). -/
def State.withEnc (s : State) (u : EncUnit) : State := { s with enc := u }

/-- Put a decoder unit back into the core: nothing else changes (R227). -/
def State.withDec (s : State) (d : DecUnit) : State := { s with dec := d }

/-- A command of the encoder as a step of the core. -/
def State.onEnc (s : State) (r : Except Fault EncUnit) : Host.Outcome State Fault Refusal :=
  match r with
  | .ok u => .next (s.withEnc u)
  | .error e => .fault e

/-- A command of the decoder as a step of the core. -/
def State.onDec (s : State) (r : Except Fault DecUnit) : Host.Outcome State Fault Refusal :=
  match r with
  | .ok d => .next (s.withDec d)
  | .error e => .fault e

/-- The REMAP table's entry for a byte (R91). -/
def State.remapEntry (s : State) (d : Byte) : Byte := Memory.read unlistedByte s.remap d.toNat

end Sys2Proof.Machine
end

