-- ==== Sys2Proof/Machine/Decoder.lean ====
section
/-! DEFINITION. The decoder unit: its dictionary array and string reconstruction (R170 to R174), `DecEpochReset` (R175),
`DecodeIndex` (R176 to R180) and the two decoder commands (R181, R182). -/

namespace Sys2Proof.Machine

/-! ### The dictionary array, indexed by codes `N0..C-1` (R60, R170) -/

/-- `MemRead(DEC.PREFIX, c)`. -/
def DecUnit.readPrefix (d : DecUnit) (c : Nat) : Except Fault Nat :=
  memRead .decPrefix (emptyCount d.maxb) d.build.cap unlistedCode d.pfx c

/-- `MemRead(DEC.BYTEV, c)`. -/
def DecUnit.readBytev (d : DecUnit) (c : Nat) : Except Fault Byte :=
  memRead .decBytev (emptyCount d.maxb) d.build.cap unlistedByte d.bytev c

/-- `MemWrite(DEC.SCRATCH, n, y)`: byte `n` of the `C - L` bytes of the scratch buffer (R42, R60). -/
def DecUnit.writeScratch (d : DecUnit) (n : Nat) (y : Byte) : Except Fault DecUnit := do
  let m ← memWrite .decScratch 0 (d.build.cap - literalCount d.maxb) unlistedByte d.scratch n y
  return { d with scratch := m }

/-- `DecAppend(p, y)` (R172). -/
def DecUnit.append (d : DecUnit) (p : Nat) (y : Byte) : Except Fault DecUnit := do
  let n := d.count
  let mp ← memWrite .decPrefix (emptyCount d.maxb) d.build.cap unlistedCode d.pfx n p
  let mb ← memWrite .decBytev (emptyCount d.maxb) d.build.cap unlistedByte d.bytev n y
  return { d with pfx := mp, bytev := mb, count := n + 1 }

/-! ### String reconstruction -/

/-- The loop of `String(c)`: from code `x` with `n` scratch bytes written, down the prefix chain to its root literal; the
number of scratch bytes written in the end (R173). The scratch buffer's size bounds the walk (R95, R174): a chain that
is longer writes past the buffer before the given number of steps is used up. -/
def DecUnit.walk (d : DecUnit) : Nat → Nat → Nat → Except Fault (Nat × DecUnit)
  | 0, n, _ => .error (.indexOutOfRange .decScratch n)
  | k + 1, n, x =>
    if literalCount d.maxb ≤ x then do
      let y ← d.readBytev x
      let d ← d.writeScratch n y
      let x' ← d.readPrefix x
      d.walk k (n + 1) x'
    else do
      let d ← d.writeScratch n (BitVec.ofNat 8 x)
      return (n + 1, d)

/-- `String(c)` (R173): the scratch buffer read out in reverse. -/
def DecUnit.string (d : DecUnit) (c : Nat) : Except Fault (List Byte × DecUnit) := do
  let (n, d) ← d.walk (d.build.cap - literalCount d.maxb) 0 c
  return ((Memory.prefixBytes d.scratch n).reverse, d)

/-- `s[0]` of a string (R14); no string is empty (R173). -/
def firstByte (s : List Byte) : Byte := s.headD 0#8

/-! ### Epochs and widths -/

/-- Set the code width, and the threshold `2^w - 1` with it (R35). -/
def DecUnit.setWidth (d : DecUnit) (w : Nat) : DecUnit := { d with w := w, t := 2 ^ w - 1 }

/-- `DecEpochReset()` (R175): the accumulator is left alone. -/
def DecUnit.epochReset (d : DecUnit) : DecUnit :=
  ({ d with count := emptyCount d.maxb, prevv := false }).setWidth (startWidth d.maxb)

/-- `DecAfterStep()` (R180): full, the `C - 1` exception (D3), or growth. -/
def DecUnit.afterStep (d : DecUnit) : DecUnit :=
  if d.count = d.build.cap then d.epochReset
  else if d.count = d.build.cap - 1 then d
  else if d.t ≤ d.count then d.setWidth (d.w + 1)
  else d

/-! ### DecodeIndex -/

/-- `DecEOS()` (R176). -/
def DecUnit.eos (d : DecUnit) : DecUnit := { d with st := .done, acc := 0, nacc := 0 }

/-- The entry that an existing code appends: the previous code extended by the string's first byte, if a previous code is
pending (R177). -/
def DecUnit.appendPrev (d : DecUnit) (y : Byte) : Except Fault DecUnit :=
  if d.prevv then d.append d.prev y else .ok d

/-- The last steps of R177 and R178: deliver the string, make the code the previous one, then R180. -/
def DecUnit.output (d : DecUnit) (code : Nat) (s : List Byte) : DecUnit :=
  ({ d.deliver s with prev := code, prevv := true, pfirst := firstByte s }).afterStep

/-- `DecExisting(code)` (R177). -/
def DecUnit.existing (d : DecUnit) (code : Nat) : Except Fault DecUnit := do
  let (s, d) ← d.string code
  let d ← d.appendPrev (firstByte s)
  return d.output code s

/-- `DecSelfRef(code)` (R178). -/
def DecUnit.selfRef (d : DecUnit) (code : Nat) : Except Fault DecUnit := do
  let d ← d.append d.prev d.pfirst
  let (s, d) ← d.string code
  return d.output code s

/-- `DecMalformed(code)` (R179). -/
def DecUnit.malformed (d : DecUnit) (code : Nat) : DecUnit :=
  { d with
    st := .error
    err := if d.count < code then eCodeRange else eSelfRefNoPrev
    info := zext32 code }

/-- `DecodeIndex(code)` (R176): the first case that applies. -/
def DecUnit.decodeIndex (d : DecUnit) (code : Nat) : Except Fault DecUnit :=
  if code = eosCode d.maxb then .ok d.eos
  else if code < d.count then d.existing code
  else if code = d.count ∧ d.prevv = true then d.selfRef code
  else .ok (d.malformed code)

/-! ### The bit unpacker -/

/-- Add a byte of the stream above the bits already in the accumulator (R182). -/
def DecUnit.pushByte (d : DecUnit) (x : Byte) : DecUnit :=
  { d with acc := d.acc ||| (x.toNat <<< d.nacc), nacc := d.nacc + 8 }

/-- The code at the low end of the accumulator: its low `w` bits (R182). -/
def DecUnit.nextCode (d : DecUnit) : Nat := d.acc % 2 ^ d.w

/-- Take those bits out of the accumulator (R182). -/
def DecUnit.dropCode (d : DecUnit) : DecUnit := { d with acc := d.acc >>> d.w, nacc := d.nacc - d.w }

/-- The condition of the code loop (R182). -/
def DecUnit.codeReady (d : DecUnit) : Bool := d.st = .run ∧ d.w ≤ d.nacc

/-- The code loop of `DEC.BYTE`, for at most the given number of codes (R182). -/
def DecUnit.codeLoop (d : DecUnit) : Nat → Except Fault DecUnit
  | 0 => if d.codeReady then .error .codeLoopUnbounded else .ok d
  | k + 1 =>
    if d.codeReady then do
      let d' ← d.dropCode.decodeIndex d.nextCode
      d'.codeLoop k
    else .ok d

/-! ### Commands, at the unit -/

/-- `DEC.INIT m` (R181). -/
def DecUnit.init (d : DecUnit) (m : Byte) : DecUnit :=
  if configValid d.build.cap m then
    let d := { d with maxb := m, acc := 0, nacc := 0, st := .run, err := 0#8, info := 0#32 }
    ({ d.epochReset with cfg := true }).respond (success sOk)
  else ({ d with cfg := false }).raise eConfig (zext32 m.toNat)

/-- `DEC.BYTE x` (R182). Each turn of the loop takes at least one bit, so the number of bits held bounds the loop. -/
def DecUnit.byte (d : DecUnit) (x : Byte) : Except Fault DecUnit :=
  if d.cfg = false then .ok (d.raise eNotConfigured 0#32)
  else
    match d.st with
    | .done => .ok (d.respond d.streamStatus)
    | .error => .ok (d.raise d.err d.info)
    | .run => do
      let d ← (d.pushByte x).codeLoop (d.nacc + 8)
      return d.respond d.streamStatus

/-! ### Commands, at the core -/

/-- `DEC.INIT m` (R181). -/
def execDecInit (m : Byte) (s : State) : Host.Outcome State Fault Refusal :=
  .next (s.withDec (s.dec.init m))

/-- `DEC.BYTE x` (R182). -/
def execDecByte (x : Byte) (s : State) : Host.Outcome State Fault Refusal :=
  s.onDec (s.dec.byte x)

end Sys2Proof.Machine
end

