-- ==== Sys2Proof/Machine/Dictionary.lean ====
section
/-! DEFINITION. The encode-side dictionary: `DictAdd`, `isFull`, `size`, `DictReset` (R112 to R114), over LIST storage
(R118 to R121) or TRIE storage (R122 to R125), whichever the unit is built with. -/

namespace Sys2Proof.Machine

/-- The result of `DictAdd` (R112). -/
inductive DictResult where
  | found (c : Nat)
  | notFound
  deriving DecidableEq, Repr

/-- A link slot of TRIE storage: `ROOT[c][b]` or `NXT[c][b]` (R122). -/
inductive Slot where
  | root (c : Nat) (b : Bool)
  | nxt (c : Nat) (b : Bool)
  deriving DecidableEq, Repr

/-- The result of a TRIE lookup: the child found, or the first empty slot on the path (R123). -/
inductive TrieResult where
  | found (c : Nat)
  | notFound (slot : Slot)
  deriving DecidableEq, Repr

/-- The index of slot `b` of code `c` in a slot memory (log 12). -/
def slotIndex (c : Nat) (b : Bool) : Nat := 2 * c + b.toNat

/-! ### The entries of `ENC.DICT`, indexed by codes `0..C-1` (R60) -/

/-- `MemRead(ENC.BYTEV, c)`. -/
def EncUnit.readBytev (u : EncUnit) (c : Nat) : Except Fault Byte :=
  memRead .encBytev 0 u.build.cap unlistedByte u.bytev c

/-- `MemWrite(ENC.BYTEV, c, y)`. -/
def EncUnit.writeBytev (u : EncUnit) (c : Nat) (y : Byte) : Except Fault EncUnit := do
  let m ← memWrite .encBytev 0 u.build.cap unlistedByte u.bytev c y
  return { u with bytev := m }

/-- `MemRead(ENC.FIRST, c)`. -/
def EncUnit.readFirst (u : EncUnit) (c : Nat) : Except Fault (Option Nat) :=
  memRead .encFirst 0 u.build.cap unlistedLink u.first c

/-- `MemWrite(ENC.FIRST, c, e)`. -/
def EncUnit.writeFirst (u : EncUnit) (c : Nat) (e : Option Nat) : Except Fault EncUnit := do
  let m ← memWrite .encFirst 0 u.build.cap unlistedLink u.first c e
  return { u with first := m }

/-- `MemRead(ENC.SIB, c)`. -/
def EncUnit.readSib (u : EncUnit) (c : Nat) : Except Fault (Option Nat) :=
  memRead .encSib 0 u.build.cap unlistedLink u.sib c

/-- `MemWrite(ENC.SIB, c, e)`. -/
def EncUnit.writeSib (u : EncUnit) (c : Nat) (e : Option Nat) : Except Fault EncUnit := do
  let m ← memWrite .encSib 0 u.build.cap unlistedLink u.sib c e
  return { u with sib := m }

/-- `content(slot)` (R123). -/
def EncUnit.readSlot (u : EncUnit) : Slot → Except Fault (Option Nat)
  | .root c b => memRead .encRoot 0 (2 * u.build.cap) unlistedLink u.root (slotIndex c b)
  | .nxt c b => memRead .encNxt 0 (2 * u.build.cap) unlistedLink u.nxt (slotIndex c b)

/-- `content(slot) <- e` (R124). -/
def EncUnit.writeSlot (u : EncUnit) (slot : Slot) (e : Option Nat) : Except Fault EncUnit :=
  match slot with
  | .root c b => do
    let m ← memWrite .encRoot 0 (2 * u.build.cap) unlistedLink u.root (slotIndex c b) e
    return { u with root := m }
  | .nxt c b => do
    let m ← memWrite .encNxt 0 (2 * u.build.cap) unlistedLink u.nxt (slotIndex c b) e
    return { u with nxt := m }

/-! ### LIST strategy -/

/-- The loop of `ListLookup`, for at most the given number of steps (R119; the bound of R95). -/
def EncUnit.listWalk (u : EncUnit) (b : Byte) : Nat → Option Nat → Except Fault DictResult
  | _, none => .ok .notFound
  | 0, some _ => .error .searchUnbounded
  | k + 1, some e => do
    let y ← u.readBytev e
    if y = b then return .found e
    let e' ← u.readSib e
    u.listWalk b k e'

/-- `ListLookup(p, b)` (R119): at most `C` steps (R95). -/
def EncUnit.listLookup (u : EncUnit) (p : Nat) (b : Byte) : Except Fault DictResult := do
  let e ← u.readFirst p
  u.listWalk b u.build.cap e

/-- `ListInsert(p, b)` (R120): the new code goes to the head of `p`'s child list. -/
def EncUnit.listInsert (u : EncUnit) (p : Nat) (b : Byte) : Except Fault EncUnit := do
  let n := u.count
  let u ← u.writeBytev n b
  let u ← u.writeFirst n none
  let head ← u.readFirst p
  let u ← u.writeSib n head
  let u ← u.writeFirst p (some n)
  return { u with count := n + 1 }

/-! ### TRIE strategy -/

/-- The loop of `TrieLookup` from a slot, with the bits of `b` still to branch on (R123). A node reached with no bit left
holds the byte itself (R123), so the search has ended there; if it has not, the bound of R95 is passed. -/
def EncUnit.trieWalk (u : EncUnit) (b : Byte) : List Bool → Slot → Except Fault TrieResult
  | [], slot => do
    match ← u.readSlot slot with
    | none => return .notFound slot
    | some e =>
      let y ← u.readBytev e
      if y = b then return .found e
      .error .searchUnbounded
  | bit :: bits, slot => do
    match ← u.readSlot slot with
    | none => return .notFound slot
    | some e =>
      let y ← u.readBytev e
      if y = b then return .found e
      u.trieWalk b bits (.nxt e bit)

/-- The bits of a byte that a lookup branches on below the top slot: bit 1 to bit 7, in this order (R123). -/
def branchBits (b : Byte) : List Bool := (List.range 7).map fun i => b.getLsbD (i + 1)

/-- `TrieLookup(p, b)` (R123): level 1 is chosen by bit 0. -/
def EncUnit.trieLookup (u : EncUnit) (p : Nat) (b : Byte) : Except Fault TrieResult :=
  u.trieWalk b (branchBits b) (.root p (b.getLsbD 0))

/-- `TrieInsert(p, b, slot)` (R124). -/
def EncUnit.trieInsert (u : EncUnit) (b : Byte) (slot : Slot) : Except Fault EncUnit := do
  let n := u.count
  let u ← u.writeBytev n b
  let u ← u.writeSlot (.root n false) none
  let u ← u.writeSlot (.root n true) none
  let u ← u.writeSlot (.nxt n false) none
  let u ← u.writeSlot (.nxt n true) none
  let u ← u.writeSlot slot (some n)
  return { u with count := n + 1 }

/-! ### The operations of R112 to R114 -/

/-- The search of `DictAdd` for `(p, b)`, without its insertion: `FOUND(E[(p, b)])` or `NOTFOUND` (R112, by R119 or R123). -/
def EncUnit.dictFind (u : EncUnit) (p : Nat) (b : Byte) : Except Fault DictResult :=
  match u.build.strategy with
  | .list => u.listLookup p b
  | .trie => do
    match ← u.trieLookup p b with
    | .found c => return .found c
    | .notFound _ => return .notFound

/-- `DictAdd(p, b)` (R112): with `p = NONE` the literal; otherwise the lookup, and on `NOTFOUND` the insertion, of the
strategy the unit is built with (R121, R125). -/
def EncUnit.dictAdd (u : EncUnit) (p : Option Nat) (b : Byte) : Except Fault (DictResult × EncUnit) :=
  match p with
  | none => .ok (.found b.toNat, u)
  | some p =>
    match u.build.strategy with
    | .list => do
      match ← u.listLookup p b with
      | .found c => return (.found c, u)
      | .notFound =>
        let u ← u.listInsert p b
        return (.notFound, u)
    | .trie => do
      match ← u.trieLookup p b with
      | .found c => return (.found c, u)
      | .notFound slot =>
        let u ← u.trieInsert b slot
        return (.notFound, u)

/-- `isFull()` (R113). -/
def EncUnit.isFull (u : EncUnit) : Bool := u.count = u.build.cap

/-- `size()` (R113). -/
def EncUnit.size (u : EncUnit) : Nat := u.count

/-- `DictReset()` (R114): the child links of the literal codes are cleared (R117, R121, R125) and the count is `N0`. -/
def EncUnit.dictReset (u : EncUnit) : EncUnit :=
  match u.build.strategy with
  | .list =>
    { u with
      first := Memory.clearBelow (literalCount u.maxb) u.first
      count := emptyCount u.maxb }
  | .trie =>
    { u with
      root := Memory.clearBelow (2 * literalCount u.maxb) u.root
      count := emptyCount u.maxb }

end Sys2Proof.Machine
end

