-- ==== Sys2Proof/Machine/Encoder.lean ====
section
/-! DEFINITION. The encoder unit: the bit packer `EMIT` (R140), `EncEpochReset` (R143) and the four encoder commands
(R144 to R147). -/

namespace Sys2Proof.Machine

/-! ### The bit packer -/

/-- The end of `EMIT`'s body: when the staging buffer is full, deliver it and start again (R140, R141). -/
def EncUnit.flushFull (u : EncUnit) : EncUnit :=
  if u.pos = u.build.stageBytes then
    { u.deliver (Memory.prefixBytes u.stage u.build.stageBytes) with pos := 0 }
  else u

/-- `MemWrite(ENC.stage, ENC.pos, ENC.cur)`, then `ENC.pos` up by one and the partial byte empty: an output byte is
committed (R140, R147). -/
def EncUnit.commitByte (u : EncUnit) : Except Fault EncUnit := do
  let m ← memWrite .encStage 0 u.build.stageBytes unlistedByte u.stage u.pos u.cur
  return { u with stage := m, pos := u.pos + 1, cur := 0#8, off := 0 }

/-- One turn of `EMIT`'s loop, for one bit of the code (R140). -/
def EncUnit.emitBit (u : EncUnit) (bit : Bool) : Except Fault EncUnit :=
  let u := { u with cur := u.cur ||| BitVec.ofNat 8 (bit.toNat <<< u.off), off := u.off + 1 }
  if u.off = 8 then do
    let u ← u.commitByte
    return u.flushFull
  else .ok u

/-- `EMIT` for a list of bits, in this order. -/
def EncUnit.emitBits (u : EncUnit) : List Bool → Except Fault EncUnit
  | [] => .ok u
  | bit :: bits => do
    let u ← u.emitBit bit
    u.emitBits bits

/-- The `w` low bits of a code, least significant bit first (R64, R87, R140). -/
def codeBits (v w : Nat) : List Bool := (List.range w).map v.testBit

/-- `EMIT(v, w)` (R140). -/
def EncUnit.emit (u : EncUnit) (v w : Nat) : Except Fault EncUnit := u.emitBits (codeBits v w)

/-! ### Epochs and widths -/

/-- Set the code width, and the threshold `2^w` with it (R27). -/
def EncUnit.setWidth (u : EncUnit) (w : Nat) : EncUnit := { u with w := w, t := 2 ^ w }

/-- `EncEpochReset()` (R143): the bit packer's cursor is not touched. -/
def EncUnit.epochReset (u : EncUnit) : EncUnit :=
  ({ u.dictReset with idxv := false }).setWidth (startWidth u.maxb)

/-! ### Commands, at the unit -/

/-- `ENC.INIT m` (R144). -/
def EncUnit.init (u : EncUnit) (m : Byte) : EncUnit :=
  if configValid u.build.cap m then
    let u := ({ u with maxb := m, cur := 0#8, off := 0, pos := 0 }).epochReset
    ({ u with cfg := true }).respond (success sOk)
  else ({ u with cfg := false }).raise eConfig (zext32 m.toNat)

/-- The match register as `DictAdd`'s operand: `ENC.idx`, or `NONE` when `ENC.idxv = 0` (R145). -/
def EncUnit.matchCode (u : EncUnit) : Option Nat := if u.idxv then some u.idx else none

/-- Steps 3c and 3d of R145, after the new entry was created, the previous match emitted and the new match set to `b`:
the full step, or growth. -/
def EncUnit.afterInsert (u : EncUnit) (b : Byte) : Except Fault EncUnit :=
  if u.isFull then do
    let u ← u.emit b.toNat u.w
    return u.epochReset
  else if u.t ≤ u.count then .ok (u.setWidth (u.w + 1))
  else .ok u

/-- `ENC.BYTE` from its `DictAdd` step on (R145). -/
def EncUnit.take (u : EncUnit) (b : Byte) : Except Fault EncUnit := do
  let (r, u) ← u.dictAdd u.matchCode b
  match r with
  | .found c => return ({ u with idx := c, idxv := true }).respond (success sOk)
  | .notFound =>
    let u ← u.emit u.idx u.w
    let u ← ({ u with idx := b.toNat }).afterInsert b
    return u.respond (success sOk)

/-- `ENC.BYTE b` (R145). -/
def EncUnit.byte (u : EncUnit) (b : Byte) : Except Fault EncUnit :=
  if u.cfg = false then .ok (u.raise eNotConfigured 0#32)
  else if u.maxb < b then .ok (u.raise eByteRange (zext32 b.toNat))
  else u.take b

/-- `ENC.BYTE.REMAP d`, where the host's table holds `b` at `d` (R146). -/
def EncUnit.byteRemap (u : EncUnit) (d b : Byte) : Except Fault EncUnit :=
  if u.cfg = false then .ok (u.raise eNotConfigured 0#32)
  else if u.maxb < b then .ok (u.raise eByteRange (remapInfo d b))
  else u.take b

/-- The width step of `ENC.FINAL` after the pending code, the decoder's own test in encoder terms (R147, D4). -/
def EncUnit.finalWidthStep (u : EncUnit) : EncUnit :=
  if u.t ≤ u.count + 1 ∧ u.count ≠ u.build.cap - 1 then u.setWidth (u.w + 1) else u

/-- The pending match of `ENC.FINAL`, if there is one: its code, then the width step (R147). -/
def EncUnit.emitPending (u : EncUnit) : Except Fault EncUnit :=
  if u.idxv then do
    let u ← u.emit u.idx u.w
    return u.finalWidthStep
  else .ok u

/-- The partial byte of `ENC.FINAL`, padded with zero bits (R147). -/
def EncUnit.padByte (u : EncUnit) : Except Fault EncUnit := if 0 < u.off then u.commitByte else .ok u

/-- The last delivery of `ENC.FINAL`: what the staging buffer still holds, if anything (R147, D15). -/
def EncUnit.flushRest (u : EncUnit) : EncUnit :=
  if 0 < u.pos then { u.deliver (Memory.prefixBytes u.stage u.pos) with pos := 0 } else u

/-- `ENC.FINAL` (R147). -/
def EncUnit.final (u : EncUnit) : Except Fault EncUnit :=
  if u.cfg = false then .ok (u.raise eNotConfigured 0#32)
  else do
    let u ← u.emitPending
    let u ← u.emit (eosCode u.maxb) u.w
    let u ← u.padByte
    return (u.flushRest.epochReset).respond (success sOk)

/-! ### Commands, at the core -/

/-- `ENC.INIT m` (R144). -/
def execEncInit (m : Byte) (s : State) : Host.Outcome State Fault Refusal :=
  .next (s.withEnc (s.enc.init m))

/-- `ENC.BYTE b` (R145). -/
def execEncByte (b : Byte) (s : State) : Host.Outcome State Fault Refusal :=
  s.onEnc (s.enc.byte b)

/-- `ENC.BYTE.REMAP d` (R146): one read of the host's table, no write (R91). -/
def execEncByteRemap (d : Byte) (s : State) : Host.Outcome State Fault Refusal :=
  s.onEnc (s.enc.byteRemap d (s.remapEntry d))

/-- `ENC.FINAL` (R147). -/
def execEncFinal (s : State) : Host.Outcome State Fault Refusal :=
  s.onEnc s.enc.final

end Sys2Proof.Machine
end

