-- ==== Sys2Proof/Machine/Dispatch.lean ====
section
/-! DEFINITION. The meaning of every command, one arm per constructor of Instr. -/

namespace Sys2Proof.Machine

def exec (i : Instr) (s : State) : Host.Outcome State Fault Refusal :=
  match i with
  | .encInit m => Sys2Proof.Machine.execEncInit m s
  | .encByte b => Sys2Proof.Machine.execEncByte b s
  | .encByteRemap d => Sys2Proof.Machine.execEncByteRemap d s
  | .encFinal => Sys2Proof.Machine.execEncFinal s
  | .decInit m => Sys2Proof.Machine.execDecInit m s
  | .decByte x => Sys2Proof.Machine.execDecByte x s

end Sys2Proof.Machine
end

