-- ==== Sys2Proof/WellFormed.lean ====
section
/-! DEFINITION. Well-formedness of what the host hands the core: build parameters (R6, R11), command words at a port
(R84) and lines of assembly (R92). A term of `Instr` is well formed by its type: its only operand is a byte (R83). -/

namespace Sys2Proof

/-- `3 <= C <= 2^32` (R6). -/
def capacityWf (cap : Nat) : Bool := 3 ≤ cap ∧ cap ≤ 2 ^ 32

/-- The encoder's build parameters are in range (R6, R11). -/
def EncBuild.wf (b : EncBuild) : Bool :=
  capacityWf b.cap ∧ Machine.minStageBytes b.cap ≤ b.stageBytes

/-- The decoder's build parameter is in range (R6). -/
def DecBuild.wf (b : DecBuild) : Bool := capacityWf b.cap

/-- `UNIT = CMD[15]` names the receiving unit: 0 the encoder, 1 the decoder (R81, first point of R84). -/
def CmdWord.unitNames (p : Port) (w : CmdWord) : Bool :=
  match p with
  | .enc => !w.getLsbD 15
  | .dec => w.getLsbD 15

/-- `RSVD = CMD[11:8]` is 0 (R81, second point of R84). -/
def CmdWord.rsvdZero (w : CmdWord) : Bool := w.extractLsb' 8 4 == 0#4

/-- `OP = CMD[14:12]` is listed for the unit: 0 to 3 at the encoder, 0 and 1 at the decoder (R82, third point of R84). -/
def CmdWord.opListed (p : Port) (w : CmdWord) : Bool :=
  match p with
  | .enc => (w.extractLsb' 12 3).toNat ≤ 3
  | .dec => (w.extractLsb' 12 3).toNat ≤ 1

/-- Not `ENC.FINAL` (at the encoder, `OP = 3`) with `DATA != 0` (fourth point of R84). -/
def CmdWord.finalDataZero (p : Port) (w : CmdWord) : Bool :=
  match p with
  | .enc => w.extractLsb' 12 3 != 3#3 || w.extractLsb' 0 8 == 0#8
  | .dec => true

/-- The word is legal at the port: none of the four points of R84 holds. -/
def CmdWord.wf (p : Port) (w : CmdWord) : Bool :=
  CmdWord.unitNames p w && CmdWord.rsvdZero w && CmdWord.opListed p w && CmdWord.finalDataZero p w

/-- The line assembles: `ENC.FINAL` has no operand, every other mnemonic one operand in `0..255` (R92). -/
def AsmLine.wf (l : AsmLine) : Bool :=
  match l.mnemonic, l.operand with
  | .encFinal, none => true
  | .encFinal, some _ => false
  | .encInit, some n => n ≤ 255
  | .encByte, some n => n ≤ 255
  | .encByteRemap, some n => n ≤ 255
  | .decInit, some n => n ≤ 255
  | .decByte, some n => n ≤ 255
  | .encInit, none => false
  | .encByte, none => false
  | .encByteRemap, none => false
  | .decInit, none => false
  | .decByte, none => false

end Sys2Proof
end

