-- ==== Sys2Proof/Decode.lean ====
section
/-! DEFINITION. The decoder of command words, total, rejecting by name, and the encoder, both from R81 and R82. -/

namespace Sys2Proof

/-- Why a word is illegal at a port: the points of R84, in the order the rule lists them. All four raise the same
`E_ILLEGAL_COMMAND` (R214); the name says which point failed first. -/
inductive IllegalCommand where
  /-- `UNIT` does not name the receiving unit. -/
  | wrongUnit
  /-- `RSVD != 0`. -/
  | reservedNotZero
  /-- `OP` is not listed for the unit. -/
  | unlistedOp
  /-- `ENC.FINAL` with `DATA != 0`. -/
  | finalWithData
  deriving DecidableEq, Repr

/-- `UNIT = CMD[15]` (R81). -/
def fieldUnit (w : CmdWord) : Bool := w.getLsbD 15

/-- `OP = CMD[14:12]` (R81). -/
def fieldOp (w : CmdWord) : BitVec 3 := w.extractLsb' 12 3

/-- `RSVD = CMD[11:8]` (R81). -/
def fieldRsvd (w : CmdWord) : BitVec 4 := w.extractLsb' 8 4

/-- `DATA = CMD[7:0]`, the operand of every command (R81, R83). -/
def fieldData (w : CmdWord) : Byte := w.extractLsb' 0 8

/-- The value of `UNIT` that names a port: 0 the encoder, 1 the decoder (R81). -/
def unitBit : Port → Bool
  | .enc => false
  | .dec => true

/-- The encoder's operations by `OP`, applied to `DATA` (R82). -/
def decodeEnc (op : BitVec 3) (data : Byte) : Except IllegalCommand Instr :=
  match op.toNat with
  | 0 => .ok (.encInit data)
  | 1 => .ok (.encByte data)
  | 2 => .ok (.encByteRemap data)
  | 3 => if data = 0#8 then .ok .encFinal else .error .finalWithData
  | _ => .error .unlistedOp

/-- The decoder's operations by `OP`, applied to `DATA` (R82). -/
def decodeDec (op : BitVec 3) (data : Byte) : Except IllegalCommand Instr :=
  match op.toNat with
  | 0 => .ok (.decInit data)
  | 1 => .ok (.decByte data)
  | _ => .error .unlistedOp

/-- The command a word means at a port, or why it is illegal there (R82, R84). -/
def decode (p : Port) (w : CmdWord) : Except IllegalCommand Instr :=
  if fieldUnit w ≠ unitBit p then .error .wrongUnit
  else if fieldRsvd w ≠ 0#4 then .error .reservedNotZero
  else
    match p with
    | .enc => decodeEnc (fieldOp w) (fieldData w)
    | .dec => decodeDec (fieldOp w) (fieldData w)

/-- A command word from its fields, `RSVD = 0` (R81). -/
def assembleWord (unit : Bool) (op : BitVec 3) (data : Byte) : CmdWord :=
  (((BitVec.ofBool unit).append op).append 0#4).append data

/-- The word of a command (R82). -/
def encode : Instr → CmdWord
  | .encInit m => assembleWord false 0#3 m
  | .encByte b => assembleWord false 1#3 b
  | .encByteRemap d => assembleWord false 2#3 d
  | .encFinal => assembleWord false 3#3 0#8
  | .decInit m => assembleWord true 0#3 m
  | .decByte x => assembleWord true 1#3 x

/-- The port that a word's own `UNIT` bit names (R81). -/
def portOf (w : CmdWord) : Port := if fieldUnit w then .dec else .enc

/-- The command word of the opcode table's numbering: the low `nbits` bits of `w`, every bit above them 0. -/
def tableWord (nbits w : Nat) : CmdWord := BitVec.ofNat 16 (w % 2 ^ nbits)

/-- What the decoder reads from a word of the opcode table, at the port the word's `UNIT` bit names. A `CMD` port carries
16 bits (R80), so a number with a bit above bit 15 is no command word. -/
def decodeTableWord (nbits w : Nat) : Option Instr :=
  if w % 2 ^ nbits < 2 ^ 16 then
    match decode (portOf (tableWord nbits w)) (tableWord nbits w) with
    | .ok i => some i
    | .error _ => none
  else none

/-- A row of the opcode table: a word belongs to the row when `word AND mask = match` (opcode_table.json). -/
structure TableRow where
  mnemonic : Mnemonic
  mask : CmdWord
  pattern : CmdWord
  deriving DecidableEq, Repr

/-- The word belongs to the row. -/
def TableRow.covers (r : TableRow) (w : CmdWord) : Bool := w &&& r.mask == r.pattern

/-- The opcode table (opcode_table.json, R82). -/
def opcodeTable : List TableRow :=
  [ ⟨.encInit, 0xFF00#16, 0x0000#16⟩,
    ⟨.encByte, 0xFF00#16, 0x1000#16⟩,
    ⟨.encByteRemap, 0xFF00#16, 0x2000#16⟩,
    ⟨.encFinal, 0xFFFF#16, 0x3000#16⟩,
    ⟨.decInit, 0xFF00#16, 0x8000#16⟩,
    ⟨.decByte, 0xFF00#16, 0x9000#16⟩ ]

/-- The mnemonic of a command (R82). -/
def Instr.mnemonic : Instr → Mnemonic
  | .encInit _ => .encInit
  | .encByte _ => .encByte
  | .encByteRemap _ => .encByteRemap
  | .encFinal => .encFinal
  | .decInit _ => .decInit
  | .decByte _ => .decByte

/-- The command of a mnemonic and a DATA byte; `ENC.FINAL` takes none (R82, R92). -/
def Mnemonic.instr (m : Mnemonic) (data : Byte) : Instr :=
  match m with
  | .encInit => .encInit data
  | .encByte => .encByte data
  | .encByteRemap => .encByteRemap data
  | .encFinal => .encFinal
  | .decInit => .decInit data
  | .decByte => .decByte data

end Sys2Proof
end

