-- ==== Sys2Proof/Machine/Fetch.lean ====
section
/-! DEFINITION. What the core takes from its host between two commands (R96, R230), and the decoding of a command word at
the port it arrives on (R81, R84). There is no fetch from memory (R72). -/

namespace Sys2Proof.Machine

/-- What the next event of the host comes to: a legal command to run, or a state reached without running one. -/
inductive Fetched where
  | run (i : Instr) (s : State)
  | settled (s : State)
  deriving DecidableEq, Repr

/-- The response to an illegal word: `INFO = zext_32(CMD)` (R214). -/
def illegalInfo (w : CmdWord) : InfoWord := zext32 w.toNat

/-- An illegal word at a port raises `E_ILLEGAL_COMMAND` there; no state is read or written, and no delivery is made
(R84, R214). -/
def State.raiseIllegal (s : State) (p : Port) (w : CmdWord) : State :=
  match p with
  | .enc => s.withEnc (s.enc.raise eIllegalCommand (illegalInfo w))
  | .dec => s.withDec (s.dec.raise eIllegalCommand (illegalInfo w))

/-- A unit after a pulse on its reset input (R230): the registers and memories of `EncUnit.reset`; the build parameters,
and what has already been delivered and answered, stay (log 13). -/
def EncUnit.hardReset (u : EncUnit) : EncUnit :=
  { EncUnit.reset u.build with out := u.out, resp := u.resp }

/-- As `EncUnit.hardReset`, at the decoder (R230). -/
def DecUnit.hardReset (d : DecUnit) : DecUnit :=
  { DecUnit.reset d.build with out := d.out, resp := d.resp }

/-- A pulse on a unit's reset input (R230). -/
def State.resetUnit (s : State) (p : Port) : State :=
  match p with
  | .enc => s.withEnc s.enc.hardReset
  | .dec => s.withDec s.dec.hardReset

/-- The host changes one entry of its REMAP table (R91, R96, R240). -/
def State.writeRemap (s : State) (index value : Byte) : State :=
  { s with remap := Memory.write unlistedByte s.remap index.toNat value }

/-- A command word arrives at a port: the command it decodes to, or the illegal response (R84, R221 point 1). -/
def State.receive (s : State) (p : Port) (w : CmdWord) : Fetched :=
  match decode p w with
  | .ok i => .run i s
  | .error _ => .settled (s.raiseIllegal p w)

/-- One event of the host. -/
def State.takeEvent (s : State) (e : HostEvent) : Fetched :=
  match e with
  | .command p w => s.receive p w
  | .remapWrite i v => .settled (s.writeRemap i v)
  | .resetPulse p => .settled (s.resetUnit p)

/-- Take the host's oldest pending event. With none pending nothing happens: a unit acts only when it receives a command
(R225). -/
def fetch (s : State) : Fetched :=
  match s.host with
  | [] => .settled s
  | e :: rest => ({ s with host := rest }).takeEvent e

/-- The host issues a command word at a port, before everything it has pending. -/
def State.issueFirst (s : State) (p : Port) (w : CmdWord) : State :=
  { s with host := .command p w :: s.host }

end Sys2Proof.Machine
end

