-- ==== Sys2Proof/Machine/Step.lean ====
section
/-! DEFINITION. One step of the core: the next event of its host (R13, R21). -/

namespace Sys2Proof.Machine

/-- One step: take the host's next event; if it is a legal command, run it to completion (R67). -/
def step (s : State) : Host.Outcome State Fault Refusal :=
  match fetch s with
  | .run i t => exec i t
  | .settled t => .next t

/-- The host issues the word of a row of the opcode table as its next event, at the port that the word's `UNIT` bit names
(R81). A command arrives on a `CMD` port, not from memory (R72), so this is what it takes for the next step to run it (log
5). -/
def State.withFetchWord (s : State) (nbits w : Nat) : State :=
  s.issueFirst (portOf (tableWord nbits w)) (tableWord nbits w)

end Sys2Proof.Machine
end

