-- ==== Sys2Proof/Machine/Assembler.lean ====
section
/-! DEFINITION. The assembler of R92: one command per line, a mnemonic and, but for `ENC.FINAL`, one operand in decimal or
with prefix `0x`; `;` starts a comment. What R92 leaves open of blanks and digits is in log 17. -/

namespace Sys2Proof.Machine

/-- What a line of text assembles to. -/
inductive AsmResult where
  /-- The line names no command: it is blank but for a comment. -/
  | nothing
  /-- One command word. -/
  | word (w : CmdWord)
  /-- An assembly error: no command word is produced. -/
  | error
  deriving DecidableEq, Repr

/-- The spelling of a mnemonic (R82). -/
def mnemonicChars : Mnemonic → List Char
  | .encInit => ['E', 'N', 'C', '.', 'I', 'N', 'I', 'T']
  | .encByte => ['E', 'N', 'C', '.', 'B', 'Y', 'T', 'E']
  | .encByteRemap => ['E', 'N', 'C', '.', 'B', 'Y', 'T', 'E', '.', 'R', 'E', 'M', 'A', 'P']
  | .encFinal => ['E', 'N', 'C', '.', 'F', 'I', 'N', 'A', 'L']
  | .decInit => ['D', 'E', 'C', '.', 'I', 'N', 'I', 'T']
  | .decByte => ['D', 'E', 'C', '.', 'B', 'Y', 'T', 'E']

/-- The six mnemonics. -/
def mnemonics : List Mnemonic := [.encInit, .encByte, .encByteRemap, .encFinal, .decInit, .decByte]

/-- The mnemonic that a token spells, in upper case (R92). -/
def readMnemonic (token : List Char) : Option Mnemonic := mnemonics.find? fun m => mnemonicChars m == token

/-- The value of a digit in base 16; letters of either case (log 17). -/
def digitValue (c : Char) : Option Nat :=
  let n := c.toNat
  if 48 ≤ n ∧ n ≤ 57 then some (n - 48)
  else if 65 ≤ n ∧ n ≤ 70 then some (n - 55)
  else if 97 ≤ n ∧ n ≤ 102 then some (n - 87)
  else none

/-- A run of digits in a base, after a value already read. -/
def readDigits (base : Nat) : Nat → List Char → Option Nat
  | acc, [] => some acc
  | acc, c :: cs =>
    match digitValue c with
    | some v => if v < base then readDigits base (base * acc + v) cs else none
    | none => none

/-- A number: `0x` and at least one hexadecimal digit, or at least one decimal digit (R92). -/
def readNumber (token : List Char) : Option Nat :=
  match token with
  | [] => none
  | ['0', 'x'] => none
  | '0' :: 'x' :: c :: cs => readDigits 16 0 (c :: cs)
  | c :: cs => readDigits 10 0 (c :: cs)

/-- A space or a tab (log 17). -/
def isBlank (c : Char) : Bool := c = ' ' || c = '\t'

/-- Cut a line at its blanks; `cur` is the token being read, in reverse. -/
def tokens : List Char → List Char → List (List Char)
  | cur, [] => if cur.isEmpty then [] else [cur.reverse]
  | cur, c :: cs =>
    if isBlank c then
      if cur.isEmpty then tokens [] cs else cur.reverse :: tokens [] cs
    else tokens (c :: cur) cs

/-- The line without its comment (R92). -/
def stripComment (line : List Char) : List Char := line.takeWhile (· != ';')

/-- The word of a line that is well formed: the word of R82 with `DATA` the operand, or 0 for `ENC.FINAL` (R92). -/
def assemble (l : AsmLine) : Option CmdWord :=
  if l.wf then some (encode (l.mnemonic.instr (BitVec.ofNat 8 (l.operand.getD 0)))) else none

/-- The word of a line, or an assembly error (R92). -/
def asmResult (l : AsmLine) : AsmResult :=
  match assemble l with
  | some w => .word w
  | none => .error

/-- Assemble one line of text (R92). -/
def assembleLine (line : List Char) : AsmResult :=
  match tokens [] (stripComment line) with
  | [] => .nothing
  | [m] =>
    match readMnemonic m with
    | some m => asmResult ⟨m, none⟩
    | none => .error
  | [m, o] =>
    match readMnemonic m, readNumber o with
    | some m, some n => asmResult ⟨m, some n⟩
    | _, _ => .error
  | _ => .error

end Sys2Proof.Machine
end

