-- ==== Sys2Proof/Machine/Denotation.lean ====
section
/-! DEFINITION. What the spec says of streams and dictionaries without speaking of any unit's storage: the bit order of a
stream (R64, R87), the abstract dictionary (R110, R111), the codes of an encoded stream with their widths (R145, R147), and
how a unit's registers and memories read in these terms. Nothing here is run by `exec`; the statements use it. -/

namespace Sys2Proof.Machine

/-! ### Streams of bits -/

/-- The bits of a byte sequence in stream order: stream bit `k` is bit `k mod 8` of stream byte `k / 8` (R64). -/
def streamBits (bytes : List Byte) : List Bool :=
  bytes.flatMap fun b => (List.range 8).map b.getLsbD

/-- Stream byte `k` of a bit sequence, padded with zero bits (R64, R66). -/
def streamByte (bits : List Bool) (k : Nat) : Byte :=
  (List.range 8).foldl
    (fun acc j => acc ||| BitVec.ofNat 8 ((bits.getD (8 * k + j) false).toNat <<< j)) 0#8

/-- The bytes of a bit sequence, the last one padded with zero bits (R64, R66, R86). -/
def packBits (bits : List Bool) : List Byte :=
  (List.range ((bits.length + 7) / 8)).map (streamByte bits)

/-- The bits of a sequence of codes, each given with its width (R87). -/
def codesBits (codes : List (Nat × Nat)) : List Bool := codes.flatMap fun c => codeBits c.1 c.2

/-- The bits that wait in the bit packer: the completed bytes of `ENC.stage`, then the low `ENC.off` bits of `ENC.cur`
(R28, R141). -/
def EncUnit.pendingBits (u : EncUnit) : List Bool :=
  streamBits (Memory.prefixBytes u.stage u.pos) ++ (List.range u.off).map u.cur.getLsbD

/-- Every bit the encoder has put into its stream: those delivered, then those pending (R140). -/
def EncUnit.emittedBits (u : EncUnit) : List Bool := streamBits u.out.flatten ++ u.pendingBits

/-! ### The abstract dictionary -/

/-- The created entries of an epoch, oldest first: entry `k` is the pair `(P(c), Y(c))` of code `c = N0 + k` (R110). -/
abbrev Entries := List (Nat × Byte)

/-- `E[(p, b)]`: the code of the entry `(p, b)`, if it has been created (R110, R112). -/
def entryCode (maxb : Byte) (es : Entries) (p : Nat) (b : Byte) : Option Nat :=
  (es.findIdx? (· == (p, b))).map (emptyCount maxb + ·)

/-- `str(c)` for the prefix and byte functions of a dictionary, following at most the given number of prefixes (R111).
DESIGN CHOICE (log 21): R111 leaves `str(EOS)` undefined; being total, this function has a value at `EOS`, and `[]` where the
given number of steps runs out, and neither value means anything. -/
def strFrom (maxb : Byte) (pre : Nat → Nat) (tail : Nat → Byte) : Nat → Nat → List Byte
  | 0, _ => []
  | k + 1, c =>
    if c < literalCount maxb then [BitVec.ofNat 8 c]
    else strFrom maxb pre tail k (pre c) ++ [tail c]

/-- `str(c)` in the decoder's dictionary (R111, R171). A prefix is lower than its code, so `c + 1` steps are enough. The
value at `EOS` means nothing (R111 leaves it undefined; log 21). -/
def DecUnit.str (d : DecUnit) (c : Nat) : List Byte :=
  strFrom d.maxb (Memory.read unlistedCode d.pfx) (Memory.read unlistedByte d.bytev) (c + 1) c

/-! ### The encoder over the abstract dictionary -/

/-- The encoder's state over the abstract dictionary: the entries, the match, the width (R110, R25, R26). -/
structure AbsEnc where
  entries : Entries
  idx : Option Nat
  w : Nat
  deriving DecidableEq, Repr

/-- The start of an epoch (R143). -/
def AbsEnc.start (maxb : Byte) : AbsEnc := ⟨[], none, startWidth maxb⟩

/-- `ENC.count` (R24, R110). -/
def AbsEnc.count (maxb : Byte) (a : AbsEnc) : Nat := emptyCount maxb + a.entries.length

/-- The encoder after a new entry was created: full, grown, or neither (R145, steps 3a to 3d). -/
def AbsEnc.insert (cap : Nat) (maxb : Byte) (a : AbsEnc) (p : Nat) (b : Byte) :
    AbsEnc × List (Nat × Nat) :=
  let es := a.entries ++ [(p, b)]
  let n := emptyCount maxb + es.length
  if n = cap then (AbsEnc.start maxb, [(p, a.w), (b.toNat, a.w)])
  else (⟨es, some b.toNat, if 2 ^ a.w ≤ n then a.w + 1 else a.w⟩, [(p, a.w)])

/-- One input byte: the new state, and the codes emitted with their widths (R145). -/
def AbsEnc.byte (cap : Nat) (maxb : Byte) (a : AbsEnc) (b : Byte) : AbsEnc × List (Nat × Nat) :=
  match a.idx with
  | none => ({ a with idx := some b.toNat }, [])
  | some p =>
    match entryCode maxb a.entries p b with
    | some c => ({ a with idx := some c }, [])
    | none => a.insert cap maxb p b

/-- The codes that `ENC.FINAL` emits, with their widths (R147). -/
def AbsEnc.final (cap : Nat) (maxb : Byte) (a : AbsEnc) : List (Nat × Nat) :=
  match a.idx with
  | none => [(eosCode maxb, a.w)]
  | some p =>
    [(p, a.w),
      (eosCode maxb,
        if 2 ^ a.w ≤ a.count maxb + 1 ∧ a.count maxb ≠ cap - 1 then a.w + 1 else a.w)]

/-- The codes of the rest of a stream, from a state on (R145, R147). -/
def AbsEnc.codesFrom (cap : Nat) (maxb : Byte) (a : AbsEnc) : List Byte → List (Nat × Nat)
  | [] => a.final cap maxb
  | b :: bs => (a.byte cap maxb b).2 ++ (a.byte cap maxb b).1.codesFrom cap maxb bs

/-- The code stream of an input, each code with its width (R86, R88, R145, R147). -/
def encodedCodes (cap : Nat) (maxb : Byte) (input : List Byte) : List (Nat × Nat) :=
  (AbsEnc.start maxb).codesFrom cap maxb input

end Sys2Proof.Machine
end

