-- ==== Sys2Proof/Machine/Pseudo.lean ====
section
/-! DEFINITION. The pseudo-instructions `ENC.BYTES`, `ENC.BYTES.REMAP` and `DEC.BYTES` (R93, R94, R148, R183). They have no
command word: the host issues one command per byte and stops at the first response that is not a plain success. -/

namespace Sys2Proof.Machine

/-- The response a unit returned last; before the first, the plain success of no command (R93). -/
def State.lastResponse (s : State) (p : Port) : Response :=
  match p with
  | .enc => s.enc.resp.getLastD (success sOk)
  | .dec => s.dec.resp.getLastD (success sOk)

/-- The host issues commands in order and stops after the first whose status is not `goOn`; with none left, the result is
what `atEnd` gives for the state then. -/
def issueWhile (goOn : StatusCode) (atEnd : State → Response) :
    List Instr → State → Host.Outcome (State × Response) Fault Refusal
  | [], s => .next (s, atEnd s)
  | i :: is, s =>
    match exec i s with
    | .next t =>
      if (t.lastResponse i.port).status = goOn then issueWhile goOn atEnd is t
      else .next (t, t.lastResponse i.port)
    | .fault f => .fault f
    | .refused r => .refused r

/-- `ENC.BYTES b_1, ..., b_k` (R93, R148). A command that ends with `S_OK` has `INFO = 0`, so after the last one, as with
none at all, the result is `S_OK` with `INFO = 0`. -/
def encBytes (bs : List Byte) (s : State) : Host.Outcome (State × Response) Fault Refusal :=
  issueWhile sOk (fun _ => success sOk) (bs.map .encByte) s

/-- `ENC.BYTES.REMAP b_1, ..., b_k` (R93, R148). -/
def encBytesRemap (ds : List Byte) (s : State) : Host.Outcome (State × Response) Fault Refusal :=
  issueWhile sOk (fun _ => success sOk) (ds.map .encByteRemap) s

/-- The status lines of `DEC.BYTE` applied to the current state (R183, `k = 0`). -/
def decStatusNow (s : State) : Response :=
  if s.dec.cfg = false then ⟨eNotConfigured, 0#32⟩ else s.dec.streamStatus

/-- `DEC.BYTES x_1, ..., x_k` (R94, R183). A command that ends with `S_MORE` leaves the status lines giving `S_MORE`, so
the result after the last one is what they give. -/
def decBytes (xs : List Byte) (s : State) : Host.Outcome (State × Response) Fault Refusal :=
  issueWhile sMore decStatusNow (xs.map .decByte) s

/-- A list of commands, one after the other, whatever their responses (R21, R69). -/
def execAll : List Instr → State → Host.Outcome State Fault Refusal
  | [], s => .next s
  | i :: is, s =>
    match exec i s with
    | .next t => execAll is t
    | .fault f => .fault f
    | .refused r => .refused r

end Sys2Proof.Machine
end

