-- ==== Sys2Proof/Safety.lean ====
section
/-! DEFINITION. What holds of the machine between commands: the invariants of R45 and R46, with what the encoder's link
memories hold (R115, R117 to R125), and the canonical form of every memory. Statements that could fail only in states no
run reaches take these as premises. -/

namespace Sys2Proof.Machine

/-! ### The encode-side dictionary -/

/-- The entries of an epoch: prefixes are lower codes other than `EOS`, bytes are at most `MAXB`, and no pair occurs
twice (R110, R115). -/
structure EntriesOk (maxb : Byte) (es : Entries) : Prop where
  prefixLower : ∀ k < es.length, (es.getD k (0, 0#8)).1 < emptyCount maxb + k
  prefixNotEos : ∀ k < es.length, (es.getD k (0, 0#8)).1 ≠ eosCode maxb
  byteInRange : ∀ k < es.length, (es.getD k (0, 0#8)).2 ≤ maxb
  distinct : es.Nodup

/-- The newest of the first `k` entries whose prefix is `p`, as a code: the head of `p`'s child list when `k` entries had
been created (R118, R120). -/
def lastChild (maxb : Byte) (es : Entries) (p : Nat) : Nat → Option Nat
  | 0 => none
  | k + 1 =>
    if (es.getD k (0, 0#8)).1 = p then some (emptyCount maxb + k) else lastChild maxb es p k

/-- LIST storage holds the entries: `FIRST[p]` is the newest child of `p`, and the sibling of an entry is the child of
the same prefix created before it (R118, R120). -/
structure ListHolds (u : EncUnit) (es : Entries) : Prop where
  first : ∀ p < emptyCount u.maxb + es.length, p ≠ eosCode u.maxb →
    Memory.read unlistedLink u.first p = lastChild u.maxb es p es.length
  sib : ∀ k < es.length,
    Memory.read unlistedLink u.sib (emptyCount u.maxb + k) =
      lastChild u.maxb es (es.getD k (0, 0#8)).1 k

/-- The bitwise trie below one slot (R122). -/
inductive Trie where
  | empty
  | node (code : Nat) (zero one : Trie)
  deriving DecidableEq, Repr

/-- Insert a code into the first empty slot on the path of the given bits (R123, R124). A path that has run out of bits
at an occupied slot changes nothing. -/
def Trie.insert : Trie → List Bool → Nat → Trie
  | .empty, _, c => .node c .empty .empty
  | .node e z o, [], _ => .node e z o
  | .node e z o, false :: bits, c => .node e (z.insert bits c) o
  | .node e z o, true :: bits, c => .node e z (o.insert bits c)

/-- The trie below slot `ROOT[p][bit]` once the first `k` entries have been created (R122 to R124). -/
def trieOf (maxb : Byte) (es : Entries) (p : Nat) (bit : Bool) : Nat → Trie
  | 0 => .empty
  | k + 1 =>
    let e := es.getD k (0, 0#8)
    if e.1 = p ∧ e.2.getLsbD 0 = bit then
      (trieOf maxb es p bit k).insert (branchBits e.2) (emptyCount maxb + k)
    else trieOf maxb es p bit k

/-- What a slot of the link memories holds. -/
def EncUnit.slotContent (u : EncUnit) : Slot → Option Nat
  | .root c b => Memory.read unlistedLink u.root (slotIndex c b)
  | .nxt c b => Memory.read unlistedLink u.nxt (slotIndex c b)

/-- The link memories hold a trie below a slot. -/
def EncUnit.slotHolds (u : EncUnit) : Slot → Trie → Prop
  | slot, .empty => u.slotContent slot = none
  | slot, .node c z o =>
    u.slotContent slot = some c ∧ u.slotHolds (.nxt c false) z ∧ u.slotHolds (.nxt c true) o

/-- TRIE storage holds the entries (R122 to R124). -/
def TrieHolds (u : EncUnit) (es : Entries) : Prop :=
  ∀ p < emptyCount u.maxb + es.length, p ≠ eosCode u.maxb → ∀ bit : Bool,
    u.slotHolds (.root p bit) (trieOf u.maxb es p bit es.length)

/-- The dictionary storage of a unit holds exactly the entries `es`, by the strategy it is built with (R110, R117). -/
structure DictHolds (u : EncUnit) (es : Entries) : Prop where
  fits : u.maxb.toNat + 3 ≤ u.build.cap
  count : u.count = emptyCount u.maxb + es.length
  countLe : u.count ≤ u.build.cap
  entries : EntriesOk u.maxb es
  bytev : ∀ k < es.length,
    Memory.read unlistedByte u.bytev (emptyCount u.maxb + k) = (es.getD k (0, 0#8)).2
  list : u.build.strategy = .list → ListHolds u es
  trie : u.build.strategy = .trie → TrieHolds u es

/-! ### The encoder between commands -/

/-- The bit packer's cursor is in range and the unused bits of `ENC.cur` are 0 (R28, last points of R45). -/
structure CursorOk (u : EncUnit) : Prop where
  off : u.off ≤ 7
  cur : u.cur.toNat < 2 ^ u.off
  pos : u.pos < u.build.stageBytes

/-- A configured encoder between two commands, with the entries of its epoch (R45, R149). -/
structure EncHolds (u : EncUnit) (es : Entries) : Prop where
  dict : DictHolds u es
  room : u.count + 1 ≤ u.build.cap
  threshold : u.t = 2 ^ u.w
  growth : u.count < u.t ∨ (es = [] ∧ u.count = u.t)
  widthMin : startWidth u.maxb ≤ u.w
  widthMax : u.w ≤ maxWidth u.build.cap
  matched : u.idxv = true → u.idx < u.count ∧ u.idx ≠ eosCode u.maxb
  cursor : CursorOk u

/-- Every memory of the encoder has the canonical form. -/
def EncUnit.memoriesWf (u : EncUnit) : Bool :=
  Memory.wf unlistedByte u.stage && Memory.wf unlistedByte u.bytev &&
    Memory.wf unlistedLink u.first && Memory.wf unlistedLink u.sib &&
    Memory.wf unlistedLink u.root && Memory.wf unlistedLink u.nxt

/-- The encoder between two commands: its build is in range, its memories are canonical, `ENC.idx` holds a value of its width
even while `ENC.idxv = 0` (R25; any value such a register can hold after reset meets this) and, if it is configured, R45
holds. -/
structure EncUnit.Inv (u : EncUnit) : Prop where
  build : u.build.wf = true
  memories : u.memoriesWf = true
  idxFits : u.idx < 2 ^ maxWidth u.build.cap
  configured : u.cfg = true → ∃ es, EncHolds u es

/-! ### The decoder between commands -/

/-- The decoder's dictionary and its previous code, at any point between two codes (R46, R36, R37). -/
structure DecHolds (d : DecUnit) : Prop where
  fits : d.maxb.toNat + 3 ≤ d.build.cap
  countMin : emptyCount d.maxb ≤ d.count
  room : d.count + 1 ≤ d.build.cap
  threshold : d.t = 2 ^ d.w - 1
  widthMin : startWidth d.maxb ≤ d.w
  widthMax : d.w ≤ maxWidth d.build.cap
  noPrev : d.prevv = false → d.count = emptyCount d.maxb
  prev : d.prevv = true →
    d.prev < d.count ∧ d.prev ≠ eosCode d.maxb ∧ d.pfirst = firstByte (d.str d.prev)
  prefixLower : ∀ c, emptyCount d.maxb ≤ c → c < d.count →
    Memory.read unlistedCode d.pfx c < c
  prefixNotEos : ∀ c, emptyCount d.maxb ≤ c → c < d.count →
    Memory.read unlistedCode d.pfx c ≠ eosCode d.maxb

/-- The accumulator holds its `nacc` valid bits and nothing above them (R38). -/
def AccOk (d : DecUnit) : Prop := d.acc < 2 ^ d.nacc

/-- Every memory of the decoder has the canonical form. -/
def DecUnit.memoriesWf (d : DecUnit) : Bool :=
  Memory.wf unlistedCode d.pfx && Memory.wf unlistedByte d.bytev &&
    Memory.wf unlistedByte d.scratch

/-- The decoder between two commands: its build is in range, its memories are canonical, `DEC.prev` holds a value of its width
even while `DEC.prevv = 0` (R36; any value such a register can hold after reset meets this) and, if it is configured, R46
holds. Of R46, only the bound on `DEC.nacc` is confined to a decoder that runs: neither `EOS` nor a malformed code touches the
dictionary or the width (R176, R179), so the rest stays in `DONE` and in `ERROR`. The latched error is one of the two of
R40. -/
structure DecUnit.Inv (d : DecUnit) : Prop where
  build : d.build.wf = true
  memories : d.memoriesWf = true
  prevFits : d.prev < 2 ^ maxWidth d.build.cap
  configured : d.cfg = true → DecHolds d ∧ AccOk d ∧ d.nacc ≤ maxWidth d.build.cap + 7
  running : d.cfg = true → d.st = .run → d.nacc < d.w
  errorLatched : d.cfg = true → d.st = .error → d.err = eCodeRange ∨ d.err = eSelfRefNoPrev

/-- The code loop of `DEC.BYTE` (R182), without a bound: codes are taken, each at the width current then, until the unit no
longer runs or holds too few bits. -/
inductive DecUnit.Decodes : DecUnit → DecUnit → Prop where
  | stop {d : DecUnit} (idle : d.codeReady = false) : DecUnit.Decodes d d
  | code {d e f : DecUnit} (ready : d.codeReady = true)
      (one : d.dropCode.decodeIndex d.nextCode = .ok e) (rest : DecUnit.Decodes e f) :
      DecUnit.Decodes d f

/-- Part of that loop: the second unit is the first one after it has taken some number of codes, none left out (R182). -/
inductive DecUnit.Reaches : DecUnit → DecUnit → Prop where
  | here (d : DecUnit) : DecUnit.Reaches d d
  | code {d e f : DecUnit} (ready : d.codeReady = true)
      (one : d.dropCode.decodeIndex d.nextCode = .ok e) (rest : DecUnit.Reaches e f) :
      DecUnit.Reaches d f

/-! ### The core between steps -/

/-- The command takes the input byte `b`: `ENC.BYTE b`, or `ENC.BYTE.REMAP d` where the host's table holds `b` at `d` (R145,
R146). -/
def State.takes (s : State) (i : Instr) (b : Byte) : Prop :=
  i = .encByte b ∨ ∃ d, i = .encByteRemap d ∧ s.remapEntry d = b

/-- The core between two steps. -/
structure State.Inv (s : State) : Prop where
  enc : s.enc.Inv
  dec : s.dec.Inv
  remap : Memory.wf unlistedByte s.remap = true

/-- Two encoders that differ at most in `STRATEGY` and in the dictionary storage that goes with it, and hold the same
entries while configured (R127). -/
structure SameButStrategy (u v : EncUnit) : Prop where
  cap : u.build.cap = v.build.cap
  stageBytes : u.build.stageBytes = v.build.stageBytes
  cfg : u.cfg = v.cfg
  maxb : u.maxb = v.maxb
  count : u.count = v.count
  idx : u.idx = v.idx
  idxv : u.idxv = v.idxv
  w : u.w = v.w
  t : u.t = v.t
  cur : u.cur = v.cur
  off : u.off = v.off
  pos : u.pos = v.pos
  stage : u.stage = v.stage
  out : u.out = v.out
  resp : u.resp = v.resp
  entries : u.cfg = true → ∃ es, EncHolds u es ∧ EncHolds v es

end Sys2Proof.Machine
end

