-- ==== Sys2Proof/Certificates/Slice0/Obligations.lean ====
section
/-! DEFINITION. The statements about the core, for the provers. Each docstring names the rule or section of spec/ behind it,
and says where a clause is the model's own choice. -/

open Sys2Proof Sys2Proof.Machine

/-! ### Encoding -/

/-- R81, R82, R84: a word is a command at a port exactly when it is the word of that command and its `UNIT` bit names the
port; so no bit of a word is dropped and no two commands share one. -/
def Obligations.DecodeAndEncodeAgree : Prop :=
  ∀ (p : Port) (w : CmdWord) (i : Instr), decode p w = .ok i ↔ (i.port = p ∧ encode i = w)

/-- Section 3.1 of 95_test_vectors.md: command words written out, and what they decode as. -/
def Obligations.WordsOfTheSpecDecode : Prop :=
  decode .enc 0x00FF#16 = .ok (.encInit 255#8) ∧
  decode .enc 0x1041#16 = .ok (.encByte 0x41#8) ∧
  decode .enc 0x20C8#16 = .ok (.encByteRemap 200#8) ∧
  decode .enc 0x3000#16 = .ok .encFinal ∧
  decode .dec 0x8005#16 = .ok (.decInit 5#8) ∧
  decode .dec 0x906D#16 = .ok (.decByte 0x6D#8) ∧
  decode .enc 0x3001#16 = .error .finalWithData ∧
  decode .enc 0x4000#16 = .error .unlistedOp ∧
  decode .dec 0xA000#16 = .error .unlistedOp ∧
  decode .dec 0x9106#16 = .error .reservedNotZero ∧
  decode .enc 0x8005#16 = .error .wrongUnit

/-- R84, R214: a word is illegal at a port exactly when one of the four points of R84 holds of it; it is then answered
`E_ILLEGAL_COMMAND` (0x80) with the word as INFO, and nothing else changes. The event that carries the word is the model's
form of the `CMD` port (log 4). -/
def Obligations.IllegalWordIsAnsweredAndChangesNothing : Prop :=
  ∀ (s : State) (p : Port) (w : CmdWord) (rest : List HostEvent),
    s.host = .command p w :: rest →
    ((w.getLsbD 15 ≠ (p == .dec) ∨ w.extractLsb' 8 4 ≠ 0#4 ∨
        (p = .enc ∧ 4 ≤ (w.extractLsb' 12 3).toNat) ∨ (p = .dec ∧ 2 ≤ (w.extractLsb' 12 3).toNat) ∨
        (p = .enc ∧ w.extractLsb' 12 3 = 3#3 ∧ w.extractLsb' 0 8 ≠ 0#8)) →
      step s = .next (match p with
        | .enc => { s with
            host := rest
            enc := { s.enc with resp := s.enc.resp ++ [⟨0x80#8, w.setWidth 32⟩] } }
        | .dec => { s with
            host := rest
            dec := { s.dec with resp := s.dec.resp ++ [⟨0x80#8, w.setWidth 32⟩] } })) ∧
    (¬ (w.getLsbD 15 ≠ (p == .dec) ∨ w.extractLsb' 8 4 ≠ 0#4 ∨
        (p = .enc ∧ 4 ≤ (w.extractLsb' 12 3).toNat) ∨ (p = .dec ∧ 2 ≤ (w.extractLsb' 12 3).toNat) ∨
        (p = .enc ∧ w.extractLsb' 12 3 = 3#3 ∧ w.extractLsb' 0 8 ≠ 0#8)) →
      ∃ i, decode p w = .ok i)

/-! ### The step -/

/-- R21, R69: when the host's next event is a word that is legal at its port, a step takes that event and runs the command
it decodes to. The events are the model's form of the `CMD` ports (log 4). -/
def Obligations.StepRunsTheDecodedCommand : Prop :=
  ∀ (s : State) (p : Port) (w : CmdWord) (i : Instr) (rest : List HostEvent),
    s.host = .command p w :: rest → decode p w = .ok i → step s = exec i { s with host := rest }

/-- The word of a command, issued as `withFetchWord` issues it, is the very next command to run (R81, R82; log 5). -/
def Obligations.IssuedWordRunsNext : Prop :=
  ∀ (s : State) (i : Instr), step (s.withFetchWord 16 (encode i).toNat) = exec i s ∧
    decodeTableWord 16 (encode i).toNat = some i

/-- R225: with no event of the host pending, a step changes nothing. That such a step is a step at all is the model's choice
(log 4). -/
def Obligations.CoreWithoutEventsIsIdle : Prop :=
  ∀ s : State, s.host = [] → step s = .next s

/-- R91, R96: the host changes one entry of its REMAP table, and nothing else changes. The event is the model's form (log 6). -/
def Obligations.RemapWriteChangesOneEntry : Prop :=
  ∀ (s : State) (j v : Byte) (rest : List HostEvent),
    s.host = .remapWrite j v :: rest → Memory.wf unlistedByte s.remap = true →
    ∃ t, step s = .next t ∧ t = { s with remap := t.remap, host := rest } ∧
      ∀ k : Byte, t.remapEntry k = if k = j then v else s.remapEntry k

/-! ### Reset -/

/-- R48, R230: after reset both units are unconfigured, and nothing has been delivered. The record of deliveries is the
model's (log 7). -/
def Obligations.ResetLeavesBothUnitsUnconfigured : Prop :=
  ∀ (e : EncBuild) (d : DecBuild),
    (State.resetOf e d).enc.cfg = false ∧ (State.resetOf e d).dec.cfg = false ∧
    (State.resetOf e d).enc.build = e ∧ (State.resetOf e d).dec.build = d ∧
    (State.resetOf e d).enc.out = [] ∧ (State.resetOf e d).dec.out = [] ∧
    State.reset.enc.cfg = false ∧ State.reset.dec.cfg = false

/-- R230: a pulse on a unit's reset input leaves it unconfigured with its build parameters as they were, makes no delivery
and touches nothing of the other unit or of the REMAP table. The event, and that it returns no response, are the
model's (log 13). -/
def Obligations.ResetPulseUnconfiguresItsUnit : Prop :=
  ∀ (s : State) (rest : List HostEvent),
    (s.host = .resetPulse .enc :: rest → ∃ u, step s = .next { s with host := rest, enc := u } ∧
      u.cfg = false ∧ u.build = s.enc.build ∧ u.out = s.enc.out ∧ u.resp = s.enc.resp) ∧
    (s.host = .resetPulse .dec :: rest → ∃ d, step s = .next { s with host := rest, dec := d } ∧
      d.cfg = false ∧ d.build = s.dec.build ∧ d.out = s.dec.out ∧ d.resp = s.dec.resp)

/-- R213: every command but INIT to an unconfigured unit is answered `E_NOT_CONFIGURED` (0x81) with INFO 0 and changes
nothing; a unit is unconfigured after reset and after a failing INIT. -/
def Obligations.UnconfiguredUnitRefusesAllButInit : Prop :=
  (∀ s : State, s.enc.cfg = false →
    (∀ b, exec (.encByte b) s =
      .next { s with enc := { s.enc with resp := s.enc.resp ++ [⟨0x81#8, 0#32⟩] } }) ∧
    (∀ d, exec (.encByteRemap d) s =
      .next { s with enc := { s.enc with resp := s.enc.resp ++ [⟨0x81#8, 0#32⟩] } }) ∧
    exec .encFinal s =
      .next { s with enc := { s.enc with resp := s.enc.resp ++ [⟨0x81#8, 0#32⟩] } }) ∧
  (∀ s : State, s.dec.cfg = false → ∀ x, exec (.decByte x) s =
      .next { s with dec := { s.dec with resp := s.dec.resp ++ [⟨0x81#8, 0#32⟩] } }) ∧
  (∀ e d, (State.resetOf e d).enc.cfg = false ∧ (State.resetOf e d).dec.cfg = false) ∧
  (∀ (s : State) (m : Byte), s.enc.build.cap < m.toNat + 3 →
    ∃ t, exec (.encInit m) s = .next t ∧ t.enc.cfg = false) ∧
  (∀ (s : State) (m : Byte), s.dec.build.cap < m.toNat + 3 →
    ∃ t, exec (.decInit m) s = .next t ∧ t.dec.cfg = false)

/-- R231: while both units are unconfigured, no list of commands without an INIT changes anything but the list of
responses, and each of these is `E_NOT_CONFIGURED`. -/
def Obligations.OnlyInitWakesTheCore : Prop :=
  ∀ (is : List Instr) (s : State), s.enc.cfg = false → s.dec.cfg = false →
    (∀ i ∈ is, (∀ m, i ≠ .encInit m) ∧ ∀ m, i ≠ .decInit m) →
    ∃ re rd, execAll is s = .next { s with
        enc := { s.enc with resp := s.enc.resp ++ re }
        dec := { s.dec with resp := s.dec.resp ++ rd } } ∧
      re.length + rd.length = is.length ∧ ∀ r ∈ re ++ rd, r = ⟨0x81#8, 0#32⟩

/-! ### INIT -/

/-- R212: an INIT whose operand does not fit the capacity is answered `E_CONFIG` (0x82) with the operand as INFO, leaves the
unit unconfigured and writes no other register. -/
def Obligations.InitThatDoesNotFitUnconfigures : Prop :=
  ∀ (s : State) (m : Byte),
    (s.enc.build.cap < m.toNat + 3 → exec (.encInit m) s = .next { s with
      enc := { s.enc with cfg := false, resp := s.enc.resp ++ [⟨0x82#8, m.setWidth 32⟩] } }) ∧
    (s.dec.build.cap < m.toNat + 3 → exec (.decInit m) s = .next { s with
      dec := { s.dec with cfg := false, resp := s.dec.resp ++ [⟨0x82#8, m.setWidth 32⟩] } }) ∧
    (capacityWf s.enc.build.cap = true → 1 < s.enc.build.cap) ∧
    (capacityWf s.dec.build.cap = true → 1 < s.dec.build.cap)

/-- R144, R232, R241: an INIT of the encoder that fits starts a new stream: the registers have the values of R232, no
literal has a child, pending bits and bytes are dropped without a delivery, and nothing else changes. That `ENC.idx` and
`ENC.stage`, which R232 calls unspecified here, keep their values is the model's reading of R144 (log 19), and so are the
stale links it leaves (log 14). -/
def Obligations.EncInitStartsANewStream : Prop :=
  ∀ (s : State) (m : Byte), m.toNat + 3 ≤ s.enc.build.cap →
    ∃ u, exec (.encInit m) s = .next { s with enc := u } ∧
      u = { s.enc with
        cfg := true, maxb := m, count := m.toNat + 2, idxv := false
        w := clog2 (m.toNat + 2), t := 2 ^ clog2 (m.toNat + 2)
        cur := 0#8, off := 0, pos := 0
        first := u.first, root := u.root
        resp := s.enc.resp ++ [⟨0x00#8, 0#32⟩] } ∧
      (∀ p b, p ≤ m.toNat → u.dictFind p b = .ok .notFound) ∧
      (∀ c, s.enc.build.strategy = .trie ∨ m.toNat < c →
        Memory.read unlistedLink u.first c = Memory.read unlistedLink s.enc.first c) ∧
      (∀ c b, s.enc.build.strategy = .list ∨ m.toNat < c →
        Memory.read unlistedLink u.root (slotIndex c b) =
          Memory.read unlistedLink s.enc.root (slotIndex c b)) ∧
      (s.enc.build.wf = true → EncHolds u [])

/-- R181, R232, R241: an INIT of the decoder that fits starts a new stream; it clears a latched error and a completed
stream, drops the buffered bits and changes nothing else. That the registers R232 calls unspecified here keep their values is
the model's reading of R181 (log 19). -/
def Obligations.DecInitStartsANewStream : Prop :=
  ∀ (s : State) (m : Byte), m.toNat + 3 ≤ s.dec.build.cap →
    exec (.decInit m) s = .next { s with
      dec := { s.dec with
        cfg := true, maxb := m, count := m.toNat + 2, prevv := false
        w := clog2 (m.toNat + 2), t := 2 ^ clog2 (m.toNat + 2) - 1
        acc := 0, nacc := 0, st := .run, err := 0#8, info := 0#32
        resp := s.dec.resp ++ [⟨0x00#8, 0#32⟩] } }

/-! ### The encode-side dictionary -/

/-- R112: `DictAdd` is the lookup and insert of the abstract map, over either storage. With no prefix it finds the literal;
an entry that exists is found and nothing changes; otherwise, while the dictionary is not full (R128), the code `count` is
created for the pair, and nothing but the dictionary changes. -/
def Obligations.DictAddFollowsTheAbstractMap : Prop :=
  ∀ (u : EncUnit) (es : Entries) (p : Nat) (b : Byte),
    DictHolds u es → u.memoriesWf = true → p < u.count → p ≠ eosCode u.maxb → b ≤ u.maxb →
    u.dictAdd none b = .ok (.found b.toNat, u) ∧
    (∀ c, entryCode u.maxb es p b = some c → u.dictAdd (some p) b = .ok (.found c, u)) ∧
    (entryCode u.maxb es p b = none → u.count < u.build.cap →
      ∃ v, u.dictAdd (some p) b = .ok (.notFound, v) ∧ DictHolds v (es ++ [(p, b)]) ∧
        v = { u with
          count := u.count + 1, bytev := v.bytev, first := v.first, sib := v.sib
          root := v.root, nxt := v.nxt })

/-- R115: in the entries of an epoch, two distinct codes other than `EOS` denote distinct strings. Nothing is said of `EOS`,
where the model's `strFrom` has a value without meaning (log 21). -/
def Obligations.DistinctCodesDenoteDistinctStrings : Prop :=
  ∀ (m : Byte) (es : Entries) (c c' : Nat), EntriesOk m es →
    c < emptyCount m + es.length → c' < emptyCount m + es.length →
    c ≠ eosCode m → c' ≠ eosCode m → c ≠ c' →
    strFrom m (fun x => (es.getD (x - emptyCount m) (0, 0#8)).1)
        (fun x => (es.getD (x - emptyCount m) (0, 0#8)).2) (c + 1) c ≠
      strFrom m (fun x => (es.getD (x - emptyCount m) (0, 0#8)).1)
        (fun x => (es.getD (x - emptyCount m) (0, 0#8)).2) (c' + 1) c'

/-! ### The bit packer -/

/-- R140, R87, R141: `EMIT(v, w)` appends the `w` low bits of `v`, least significant first, to the stream of bits delivered
and pending; each delivery it makes has exactly `B` bytes; it stores to the bytes of the staging buffer from `ENC.pos` on,
one for each byte it completes, and changes nothing outside the bit packer. -/
def Obligations.EmitAppendsTheCodesBits : Prop :=
  ∀ (u : EncUnit) (v w : Nat), CursorOk u → u.memoriesWf = true →
    ∃ x ds, u.emit v w = .ok x ∧ CursorOk x ∧ x.memoriesWf = true ∧
      x.emittedBits = u.emittedBits ++ (List.range w).map v.testBit ∧
      x.out = u.out ++ ds ∧ (∀ d ∈ ds, d.length = u.build.stageBytes) ∧
      (∀ a, (∀ i < (u.off + w) / 8, a ≠ (u.pos + i) % u.build.stageBytes) →
        Memory.read unlistedByte x.stage a = Memory.read unlistedByte u.stage a) ∧
      x = { u with cur := x.cur, off := x.off, pos := x.pos, stage := x.stage, out := x.out }

/-! ### ENC.BYTE and ENC.BYTE.REMAP -/

/-- R215: a byte above `MAXB`, given or looked up, is answered `E_BYTE_RANGE` (0x83), with the byte, or the index and the
byte, as INFO, and changes nothing. -/
def Obligations.ByteAboveMaximumIsRefused : Prop :=
  ∀ (s : State), s.enc.cfg = true →
    (∀ b : Byte, s.enc.maxb.toNat < b.toNat → exec (.encByte b) s = .next { s with
      enc := { s.enc with resp := s.enc.resp ++ [⟨0x83#8, BitVec.ofNat 32 b.toNat⟩] } }) ∧
    (∀ d : Byte, s.enc.maxb.toNat < (s.remapEntry d).toNat → exec (.encByteRemap d) s = .next { s with
      enc := { s.enc with
        resp := s.enc.resp ++
          [⟨0x83#8, BitVec.ofNat 32 (d.toNat * 256 + (s.remapEntry d).toNat)⟩] } })

/-- R146: `ENC.BYTE.REMAP d` is refused when the unit is unconfigured, refused with the index and the byte when the table's
byte is out of range, and otherwise is `ENC.BYTE` of the table's byte; `d` itself is not checked. -/
def Obligations.RemapEncodesTheTablesByte : Prop :=
  ∀ (s : State) (d : Byte), exec (.encByteRemap d) s =
    if s.enc.cfg = false then
      .next { s with enc := { s.enc with resp := s.enc.resp ++ [⟨0x81#8, 0#32⟩] } }
    else if s.enc.maxb.toNat < (s.remapEntry d).toNat then
      .next { s with enc := { s.enc with
        resp := s.enc.resp ++
          [⟨0x83#8, BitVec.ofNat 32 (d.toNat * 256 + (s.remapEntry d).toNat)⟩] } }
    else exec (.encByte (s.remapEntry d)) s

/-- R145, first corner case: the first byte of an epoch becomes the match; nothing is emitted or inserted, and nothing else
changes. -/
def Obligations.FirstByteOfAnEpochBecomesTheMatch : Prop :=
  ∀ (s : State) (i : Instr) (b : Byte), s.takes i b → s.enc.cfg = true → b ≤ s.enc.maxb →
    s.enc.idxv = false →
    exec i s = .next { s with enc := { s.enc with
      idx := b.toNat, idxv := true, resp := s.enc.resp ++ [⟨0x00#8, 0#32⟩] } }

/-- R145, step 2: a byte that extends the match to an existing entry makes that entry the match; there is no output, and
nothing else changes. -/
def Obligations.ByteExtendingTheMatchEmitsNothing : Prop :=
  ∀ (s : State) (es : Entries) (i : Instr) (b : Byte) (c : Nat), s.takes i b → s.enc.cfg = true →
    EncHolds s.enc es → b ≤ s.enc.maxb → s.enc.idxv = true →
    entryCode s.enc.maxb es s.enc.idx b = some c →
    exec i s = .next { s with enc := { s.enc with
      idx := c, idxv := true, resp := s.enc.resp ++ [⟨0x00#8, 0#32⟩] } }

/-- R145, steps 3a, 3b and 3d: a byte that ends the match creates the entry, emits the match at the current width, makes the
byte the new match, and grows the width by one when the new count has reached the threshold. -/
def Obligations.ByteEndingTheMatchEmitsItsCode : Prop :=
  ∀ (s : State) (es : Entries) (i : Instr) (b : Byte), s.takes i b → s.enc.cfg = true →
    EncHolds s.enc es → s.enc.memoriesWf = true → b ≤ s.enc.maxb → s.enc.idxv = true →
    entryCode s.enc.maxb es s.enc.idx b = none → s.enc.count + 1 < s.enc.build.cap →
    ∃ u, exec i s = .next { s with enc := u } ∧
      EncHolds u (es ++ [(s.enc.idx, b)]) ∧
      u.emittedBits = s.enc.emittedBits ++ codeBits s.enc.idx s.enc.w ∧
      u = { s.enc with
        count := s.enc.count + 1, idx := b.toNat
        w := if 2 ^ s.enc.w ≤ s.enc.count + 1 then s.enc.w + 1 else s.enc.w
        t := if 2 ^ s.enc.w ≤ s.enc.count + 1 then 2 ^ (s.enc.w + 1) else 2 ^ s.enc.w
        bytev := u.bytev, first := u.first, sib := u.sib, root := u.root, nxt := u.nxt
        cur := u.cur, off := u.off, pos := u.pos, stage := u.stage, out := u.out
        resp := s.enc.resp ++ [⟨0x00#8, 0#32⟩] }

/-- R145, step 3c, and R143: when the new entry fills the dictionary, the match and then the byte itself are emitted at the
same width, and the epoch is reset; the cursor of the bit packer runs on. That `ENC.idx` then holds `b`, while `ENC.idxv = 0`,
is the model's reading of steps 3b and 3c (log 19): I7 leaves the value open. -/
def Obligations.ByteFillingTheDictionaryFlushesAndResets : Prop :=
  ∀ (s : State) (es : Entries) (i : Instr) (b : Byte), s.takes i b → s.enc.cfg = true →
    EncHolds s.enc es → s.enc.memoriesWf = true → b ≤ s.enc.maxb → s.enc.idxv = true →
    entryCode s.enc.maxb es s.enc.idx b = none → s.enc.count + 1 = s.enc.build.cap →
    ∃ u, exec i s = .next { s with enc := u } ∧
      EncHolds u [] ∧
      u.emittedBits =
        s.enc.emittedBits ++ codeBits s.enc.idx s.enc.w ++ codeBits b.toNat s.enc.w ∧
      u = { s.enc with
        count := s.enc.maxb.toNat + 2, idx := b.toNat, idxv := false
        w := clog2 (s.enc.maxb.toNat + 2), t := 2 ^ clog2 (s.enc.maxb.toNat + 2)
        bytev := u.bytev, first := u.first, sib := u.sib, root := u.root, nxt := u.nxt
        cur := u.cur, off := u.off, pos := u.pos, stage := u.stage, out := u.out
        resp := s.enc.resp ++ [⟨0x00#8, 0#32⟩] }

/-- R120, R121, R124, R125, R140: what a byte that ends the match leaves in the encoder's memories. Of the dictionary's
storage it writes the byte and the links of the new code and the one link that leads to it: under LIST the head of the
match's child list, under TRIE the slot where the lookup of R123 stopped; a full step also clears the links of the literals. Of
the staging buffer it writes the bytes it completes, from `ENC.pos` on. Everything else reads as before; that entries which a
full step makes stale do so is the model's reading (log 14). -/
def Obligations.ByteEndingTheMatchStoresOnlyItsEntry : Prop :=
  ∀ (s t : State) (es : Entries) (i : Instr) (b : Byte), s.takes i b → s.enc.cfg = true →
    EncHolds s.enc es → s.enc.memoriesWf = true → b ≤ s.enc.maxb → s.enc.idxv = true →
    s.enc.dictFind s.enc.idx b = .ok .notFound → exec i s = .next t →
    (∀ a, a ≠ s.enc.count →
      Memory.read unlistedByte t.enc.bytev a = Memory.read unlistedByte s.enc.bytev a) ∧
    (∀ a, s.enc.build.strategy = .trie ∨ a ≠ s.enc.count →
      Memory.read unlistedLink t.enc.sib a = Memory.read unlistedLink s.enc.sib a) ∧
    (∀ a, s.enc.build.strategy = .trie ∨ (a ≠ s.enc.count ∧ a ≠ s.enc.idx ∧
        ¬ (s.enc.count + 1 = s.enc.build.cap ∧ a ≤ s.enc.maxb.toNat)) →
      Memory.read unlistedLink t.enc.first a = Memory.read unlistedLink s.enc.first a) ∧
    (∀ c bit, s.enc.build.strategy = .list ∨ (c ≠ s.enc.count ∧
        s.enc.trieLookup s.enc.idx b ≠ .ok (.notFound (.root c bit)) ∧
        ¬ (s.enc.count + 1 = s.enc.build.cap ∧ c ≤ s.enc.maxb.toNat)) →
      Memory.read unlistedLink t.enc.root (slotIndex c bit) =
        Memory.read unlistedLink s.enc.root (slotIndex c bit)) ∧
    (∀ c bit, s.enc.build.strategy = .list ∨ (c ≠ s.enc.count ∧
        s.enc.trieLookup s.enc.idx b ≠ .ok (.notFound (.nxt c bit))) →
      Memory.read unlistedLink t.enc.nxt (slotIndex c bit) =
        Memory.read unlistedLink s.enc.nxt (slotIndex c bit)) ∧
    (∀ a, (∀ k < (s.enc.off +
          (if s.enc.count + 1 = s.enc.build.cap then 2 * s.enc.w else s.enc.w)) / 8,
        a ≠ (s.enc.pos + k) % s.enc.build.stageBytes) →
      Memory.read unlistedByte t.enc.stage a = Memory.read unlistedByte s.enc.stage a)

/-! ### ENC.FINAL -/

/-- R147: on a configured encoder, `ENC.FINAL` appends to the stream the pending match, if there is one, then `EOS`, at the
width that the step after the pending code gives, then zero bits up to a whole byte; it delivers everything, in deliveries
of `B` bytes and a last one that is not empty, and leaves the encoder at the start of an epoch with an empty cursor. An
unconfigured one is refused. That `ENC.idx` keeps its value, while `ENC.idxv = 0`, is the model's reading (log 19): I7 leaves
the value open. -/
def Obligations.FinalTerminatesAndFlushesTheStream : Prop :=
  ∀ (s : State) (es : Entries),
    (s.enc.cfg = false → exec .encFinal s =
      .next { s with enc := { s.enc with resp := s.enc.resp ++ [⟨0x81#8, 0#32⟩] } }) ∧
    (s.enc.cfg = true → EncHolds s.enc es → s.enc.memoriesWf = true →
      ∃ u ds last pad, exec .encFinal s = .next { s with enc := u } ∧
        EncHolds u [] ∧
        u.out = s.enc.out ++ ds ++ [last] ∧
        (∀ d ∈ ds, d.length = s.enc.build.stageBytes) ∧
        1 ≤ last.length ∧ last.length ≤ s.enc.build.stageBytes ∧
        pad ≤ 7 ∧
        streamBits u.out.flatten = s.enc.emittedBits ++
          (if s.enc.idxv = true then
            codeBits s.enc.idx s.enc.w ++ codeBits (s.enc.maxb.toNat + 1)
              (if 2 ^ s.enc.w ≤ s.enc.count + 1 ∧ s.enc.count ≠ s.enc.build.cap - 1
                then s.enc.w + 1 else s.enc.w)
          else codeBits (s.enc.maxb.toNat + 1) s.enc.w) ++ List.replicate pad false ∧
        u = { s.enc with
          count := s.enc.maxb.toNat + 2, idxv := false
          w := clog2 (s.enc.maxb.toNat + 2), t := 2 ^ clog2 (s.enc.maxb.toNat + 2)
          first := u.first, root := u.root
          cur := 0#8, off := 0, pos := 0, stage := u.stage, out := u.out
          resp := s.enc.resp ++ [⟨0x00#8, 0#32⟩] })

/-- R147, R121, R125: what `ENC.FINAL` leaves in the encoder's memories. It clears the links of the literals of its strategy
and, of the staging buffer, writes the bytes it completes and the padded last byte, from `ENC.pos` on; everything else reads
as before. That the entries it makes stale do so is the model's reading (log 14). -/
def Obligations.FinalStoresOnlyItsBytes : Prop :=
  ∀ (s t : State) (es : Entries), s.enc.cfg = true → EncHolds s.enc es → s.enc.memoriesWf = true →
    exec .encFinal s = .next t →
    t.enc.bytev = s.enc.bytev ∧ t.enc.sib = s.enc.sib ∧ t.enc.nxt = s.enc.nxt ∧
    (∀ a, s.enc.build.strategy = .trie ∨ s.enc.maxb.toNat < a →
      Memory.read unlistedLink t.enc.first a = Memory.read unlistedLink s.enc.first a) ∧
    (∀ c bit, s.enc.build.strategy = .list ∨ s.enc.maxb.toNat < c →
      Memory.read unlistedLink t.enc.root (slotIndex c bit) =
        Memory.read unlistedLink s.enc.root (slotIndex c bit)) ∧
    (∀ a, (∀ k < (s.enc.off + (if s.enc.idxv = true then
          s.enc.w + (if 2 ^ s.enc.w ≤ s.enc.count + 1 ∧ s.enc.count ≠ s.enc.build.cap - 1
            then s.enc.w + 1 else s.enc.w)
          else s.enc.w) + 7) / 8,
        a ≠ (s.enc.pos + k) % s.enc.build.stageBytes) →
      Memory.read unlistedByte t.enc.stage a = Memory.read unlistedByte s.enc.stage a)

/-- R141, R67: outside `ENC.FINAL` every delivery of the encoder carries exactly `B` bytes, and in every case a delivery
carries 1 to `B` bytes. -/
def Obligations.EncoderDeliversFullBuffers : Prop :=
  ∀ (s t : State) (i : Instr), s.enc.Inv → i.port = .enc → exec i s = .next t →
    ∃ ds, t.enc.out = s.enc.out ++ ds ∧
      (i ≠ .encFinal → ∀ d ∈ ds, d.length = s.enc.build.stageBytes) ∧
      ∀ d ∈ ds, 1 ≤ d.length ∧ d.length ≤ s.enc.build.stageBytes

/-! ### Strings and codes in the decoder -/

/-- R174, R111: the string of a code is its literal, or its prefix's string and its own byte; `String` rebuilds it, changing
nothing but the scratch buffer; a created code's string has at most `c - L + 1` bytes, so no string is longer than the
scratch buffer of `C - L` bytes. -/
def Obligations.StringIsRebuiltWithinTheScratchBuffer : Prop :=
  ∀ (d : DecUnit) (c : Nat), DecHolds d → d.memoriesWf = true → c < d.count → c ≠ eosCode d.maxb →
    (c ≤ d.maxb.toNat → d.str c = [BitVec.ofNat 8 c]) ∧
    (d.maxb.toNat < c → Memory.read unlistedCode d.pfx c < c ∧
      d.str c = d.str (Memory.read unlistedCode d.pfx c) ++ [Memory.read unlistedByte d.bytev c] ∧
      (d.str c).length ≤ c - (d.maxb.toNat + 1) + 1) ∧
    (d.str c).length ≤ d.build.cap - (d.maxb.toNat + 1) ∧
    ∃ e, d.string c = .ok (d.str c, e) ∧ e = { d with scratch := e.scratch } ∧ e.memoriesWf = true

/-- R177, R180: an existing code delivers its string in one delivery; if there is a previous code, the entry (previous code,
first byte of the string) is appended; the code becomes the previous one; then the dictionary is reset if full, the width
kept if one code short of that, and otherwise grown when the count has reached the threshold. Nothing else changes. Where
the dictionary is reset, that `DEC.prev` and `DEC.pfirst` hold the code and its first byte, while `DEC.prevv = 0`, is the
model's reading (log 19), and so is what the stale entries read as (log 14): I7 leaves both open. -/
def Obligations.ExistingCodeDeliversItsString : Prop :=
  ∀ (d : DecUnit) (c : Nat), DecHolds d → d.memoriesWf = true → c < d.count → c ≠ eosCode d.maxb →
    ∃ e, d.decodeIndex c = .ok e ∧ DecHolds e ∧ e.memoriesWf = true ∧
      (e.count, e.prevv, e.w) =
        (let n := if d.prevv = true then d.count + 1 else d.count
         if n = d.build.cap then (d.maxb.toNat + 2, false, clog2 (d.maxb.toNat + 2))
         else if n = d.build.cap - 1 then (n, true, d.w)
         else if 2 ^ d.w - 1 ≤ n then (n, true, d.w + 1)
         else (n, true, d.w)) ∧
      e = { d with
        count := e.count, prevv := e.prevv, w := e.w, t := 2 ^ e.w - 1
        prev := c, pfirst := (d.str c).headD 0#8
        pfx := e.pfx, bytev := e.bytev, scratch := e.scratch
        out := d.out ++ [d.str c] } ∧
      (∀ a, Memory.read unlistedCode e.pfx a =
        if d.prevv = true ∧ a = d.count then d.prev else Memory.read unlistedCode d.pfx a) ∧
      (∀ a, Memory.read unlistedByte e.bytev a =
        if d.prevv = true ∧ a = d.count then (d.str c).headD 0#8
        else Memory.read unlistedByte d.bytev a)

/-- R178, R180: the self-referential code creates the entry (previous code, its first byte), which is the code itself, and
delivers the previous code's string with that byte after it. Where the dictionary is reset, that `DEC.prev` holds the code and
`DEC.pfirst` its first byte, while `DEC.prevv = 0`, is the model's reading (log 19), and so is what the stale entries read as
(log 14): I7 leaves both open. -/
def Obligations.SelfReferenceDeliversThePreviousStringExtended : Prop :=
  ∀ (d : DecUnit), DecHolds d → d.memoriesWf = true → d.prevv = true →
    ∃ e, d.decodeIndex d.count = .ok e ∧ DecHolds e ∧ e.memoriesWf = true ∧
      (e.count, e.prevv, e.w) =
        (if d.count + 1 = d.build.cap then (d.maxb.toNat + 2, false, clog2 (d.maxb.toNat + 2))
         else if d.count + 1 = d.build.cap - 1 then (d.count + 1, true, d.w)
         else if 2 ^ d.w - 1 ≤ d.count + 1 then (d.count + 1, true, d.w + 1)
         else (d.count + 1, true, d.w)) ∧
      e = { d with
        count := e.count, prevv := e.prevv, w := e.w, t := 2 ^ e.w - 1
        prev := d.count
        pfx := e.pfx, bytev := e.bytev, scratch := e.scratch
        out := d.out ++ [d.str d.prev ++ [d.pfirst]] } ∧
      (∀ a, Memory.read unlistedCode e.pfx a =
        if a = d.count then d.prev else Memory.read unlistedCode d.pfx a) ∧
      (∀ a, Memory.read unlistedByte e.bytev a =
        if a = d.count then d.pfirst else Memory.read unlistedByte d.bytev a)

/-- R188, R189: a code leaves the decoder's width as it is, grows it by one, or starts an epoch at `W0`; the width never
exceeds `WMAX`. -/
def Obligations.DecoderWidthGrowsByOneWithinAnEpoch : Prop :=
  ∀ (d e : DecUnit) (c : Nat), DecHolds d → d.memoriesWf = true → d.decodeIndex c = .ok e →
    (e.w = d.w ∨ e.w = d.w + 1 ∨
      (e.w = clog2 (d.maxb.toNat + 2) ∧ e.count = d.maxb.toNat + 2 ∧ e.prevv = false)) ∧
    e.w ≤ clog2 d.build.cap

/-! ### DEC.BYTE -/

/-- R182, R243: a byte that completes no code is added to the accumulator, above the bits already there, delivers nothing
and is answered `S_MORE`. -/
def Obligations.ByteCompletingNoCodeIsBuffered : Prop :=
  ∀ (s : State) (x : Byte), s.dec.cfg = true → s.dec.st = .run → s.dec.nacc + 8 < s.dec.w →
    exec (.decByte x) s = .next { s with dec := { s.dec with
      acc := s.dec.acc ||| (x.toNat <<< s.dec.nacc), nacc := s.dec.nacc + 8
      resp := s.dec.resp ++ [⟨0x00#8, 0#32⟩] } }

/-- R182: on a running decoder, `DEC.BYTE` adds its byte and takes codes, each at the width current then, until the unit no
longer runs or holds too few bits for another; the response says how the stream then stands. Each delivery carries 1 to
`C - L` bytes (R67). -/
def Obligations.ByteDecodesEveryCompleteCode : Prop :=
  ∀ (s : State) (x : Byte), s.dec.Inv → s.dec.cfg = true → s.dec.st = .run →
    ∃ d ds, DecUnit.Decodes
        { s.dec with acc := s.dec.acc ||| (x.toNat <<< s.dec.nacc), nacc := s.dec.nacc + 8 } d ∧
      exec (.decByte x) s = .next { s with dec := { d with
        resp := s.dec.resp ++ [match d.st with
          | .run => ⟨0x00#8, 0#32⟩
          | .done => ⟨0x01#8, 0#32⟩
          | .error => ⟨d.err, d.info⟩] } } ∧
      d.Inv ∧ d.out = s.dec.out ++ ds ∧
      (∀ y ∈ ds, 1 ≤ y.length ∧ y.length ≤ s.dec.build.cap - (s.dec.maxb.toNat + 1)) ∧
      d.build = s.dec.build ∧ d.cfg = s.dec.cfg ∧ d.maxb = s.dec.maxb

/-- R176, R219: when `DEC.BYTE`, after any number of codes of its byte, comes to `EOS`, the stream is complete: nothing more
is delivered, the buffered bits are dropped, and the answer is `S_DONE` (0x01). From then on every byte is ignored and
answered `S_DONE`, until an INIT. -/
def Obligations.CompletionIsSticky : Prop :=
  (∀ (s : State) (x : Byte) (d : DecUnit), s.dec.Inv → s.dec.cfg = true → s.dec.st = .run →
    DecUnit.Reaches
      { s.dec with acc := s.dec.acc ||| (x.toNat <<< s.dec.nacc), nacc := s.dec.nacc + 8 } d →
    d.st = .run → d.w ≤ d.nacc → d.acc % 2 ^ d.w = d.maxb.toNat + 1 →
    exec (.decByte x) s = .next { s with dec := { d with
      st := .done, acc := 0, nacc := 0, resp := s.dec.resp ++ [⟨0x01#8, 0#32⟩] } }) ∧
  (∀ (s : State) (xs : List Byte), s.dec.cfg = true → s.dec.st = .done →
    execAll (xs.map .decByte) s = .next { s with dec := { s.dec with
      resp := s.dec.resp ++ List.replicate xs.length ⟨0x01#8, 0#32⟩ } })

/-- R179, R216, R217, R218: when `DEC.BYTE`, after any number of codes of its byte, extracts a code that is above the count,
or equal to it with no previous code, it answers `E_CODE_RANGE` (0x84) or `E_SELF_REF_NO_PREV` (0x85) with the code as INFO;
the error is latched, nothing more is delivered, and of the cursor only the code's bits are taken. From then on every byte
is answered with the latched error and changes nothing, until an INIT. -/
def Obligations.DecodeErrorIsReportedAndSticky : Prop :=
  (∀ (s : State) (x : Byte) (d : DecUnit) (c : Nat), s.dec.Inv → s.dec.cfg = true →
    s.dec.st = .run →
    DecUnit.Reaches
      { s.dec with acc := s.dec.acc ||| (x.toNat <<< s.dec.nacc), nacc := s.dec.nacc + 8 } d →
    d.st = .run → d.w ≤ d.nacc → c = d.acc % 2 ^ d.w →
    (d.count < c ∨ (c = d.count ∧ d.prevv = false)) →
    exec (.decByte x) s = .next { s with dec := { d with
      acc := d.acc >>> d.w, nacc := d.nacc - d.w
      st := .error
      err := if d.count < c then 0x84#8 else 0x85#8
      info := BitVec.ofNat 32 c
      resp := s.dec.resp ++
        [⟨if d.count < c then 0x84#8 else 0x85#8, BitVec.ofNat 32 c⟩] } }) ∧
  (∀ (s : State) (xs : List Byte), s.dec.cfg = true → s.dec.st = .error →
    execAll (xs.map .decByte) s = .next { s with dec := { s.dec with
      resp := s.dec.resp ++ List.replicate xs.length ⟨s.dec.err, s.dec.info⟩ } })

/-! ### Whole-machine rules -/

/-- R211, R67: every command is answered by exactly one response, at its own unit, with a status the table of R211 lists for
that command; bit 7 of the status is set exactly for the errors, and INFO is 0 for a success and for
`E_NOT_CONFIGURED`. -/
def Obligations.EveryCommandIsAnsweredOnceByItsTable : Prop :=
  ∀ (s t : State) (i : Instr), s.Inv → exec i s = .next t →
    ∃ r : Response,
      (match i.port with
        | .enc => t.enc.resp = s.enc.resp ++ [r] ∧ t.dec.resp = s.dec.resp
        | .dec => t.dec.resp = s.dec.resp ++ [r] ∧ t.enc.resp = s.enc.resp) ∧
      (r.status ∈ match i with
        | .encInit _ => [0x00#8, 0x82#8]
        | .encByte _ => [0x00#8, 0x81#8, 0x83#8]
        | .encByteRemap _ => [0x00#8, 0x81#8, 0x83#8]
        | .encFinal => [0x00#8, 0x81#8]
        | .decInit _ => [0x00#8, 0x82#8]
        | .decByte _ => [0x00#8, 0x01#8, 0x81#8, 0x84#8, 0x85#8]) ∧
      (r.status.getLsbD 7 = true ↔ r.status ∉ [0x00#8, 0x01#8]) ∧
      (r.status ∈ [0x00#8, 0x01#8, 0x81#8] → r.info = 0#32)

/-- R227, R91, R44: a command to one unit neither reads nor writes the other's state, reads the REMAP table only in
`ENC.BYTE.REMAP` and never writes it, leaves the host's pending events alone, and changes no build parameter; only INIT
changes `CFG` and `MAXB`. -/
def Obligations.UnitsAreIndependent : Prop :=
  ∀ (s t : State) (i : Instr), exec i s = .next t →
    t.remap = s.remap ∧ t.host = s.host ∧ t.enc.build = s.enc.build ∧ t.dec.build = s.dec.build ∧
    (i.port = .enc → t.dec = s.dec ∧
      ((∀ m, i ≠ .encInit m) → t.enc.cfg = s.enc.cfg ∧ t.enc.maxb = s.enc.maxb) ∧
      ∀ (d : DecUnit) (h : List HostEvent) (r : ByteMemory),
        ((∀ k, i ≠ .encByteRemap k) ∨ r = s.remap) →
        exec i { s with dec := d, host := h, remap := r } =
          .next { t with dec := d, host := h, remap := r }) ∧
    (i.port = .dec → t.enc = s.enc ∧
      ((∀ m, i ≠ .decInit m) → t.dec.cfg = s.dec.cfg ∧ t.dec.maxb = s.dec.maxb) ∧
      ∀ (u : EncUnit) (h : List HostEvent) (r : ByteMemory),
        exec i { s with enc := u, host := h, remap := r } =
          .next { t with enc := u, host := h, remap := r })

/-- The state after reset meets the invariant of R45 and R46, for every build in range. Of the reset values that are the
model's (logs 1, 2) it uses only that `ENC.idx` and `DEC.prev` fit their widths and that the memories are canonical. -/
def Obligations.ResetMeetsTheInvariant : Prop :=
  State.reset.Inv ∧
  ∀ (e : EncBuild) (d : DecBuild), e.wf = true → d.wf = true → (State.resetOf e d).Inv

/-- R45, R46, R115, R128: every step, whatever the host does, keeps the invariant: the registers of both units, the entries
that the dictionary storage holds, and the canonical form of every memory. -/
def Obligations.StepKeepsTheInvariant : Prop :=
  ∀ s t : State, s.Inv → step s = .next t → t.Inv

/-- R62, R95: from a state of the invariant a step never stops: no access to an internal memory is out of range, and every
search and loop ends. The faults are the model's own (log 10). -/
def Obligations.StepNeverStops : Prop :=
  ∀ s : State, s.Inv → ∃ t, step s = .next t

/-- R24 to R28, R33 to R38, R149, R184, R189: in a state of the invariant, every numeric register of a configured unit fits
the width the spec gives it, whether or not the encoder has a match or the decoder a previous code, and whether the decoder
runs, is done or is in error. The model holds these registers as numbers (log 9); the others have their width by type. -/
def Obligations.RegistersFitTheirWidths : Prop :=
  ∀ s : State, s.Inv →
    (s.enc.cfg = true →
      s.enc.count < 2 ^ clog2 (s.enc.build.cap + 1) ∧
      s.enc.idx < 2 ^ clog2 s.enc.build.cap ∧
      s.enc.w < 2 ^ 6 ∧ s.enc.w ≤ clog2 s.enc.build.cap ∧
      s.enc.t < 2 ^ (clog2 s.enc.build.cap + 1) ∧ s.enc.off < 2 ^ 3 ∧
      s.enc.pos < 2 ^ clog2 (s.enc.build.stageBytes + 1)) ∧
    (s.dec.cfg = true →
      s.dec.count < 2 ^ clog2 (s.dec.build.cap + 1) ∧
      s.dec.prev < 2 ^ clog2 s.dec.build.cap ∧
      s.dec.w < 2 ^ 6 ∧ s.dec.w ≤ clog2 s.dec.build.cap ∧
      s.dec.t < 2 ^ (clog2 s.dec.build.cap + 1) ∧
      s.dec.acc < 2 ^ (clog2 s.dec.build.cap + 7) ∧ s.dec.nacc < 2 ^ 6)

/-- R127, R151: two cores that differ only in the encoder's STRATEGY, and in the storage that goes with it, stay so under
every step: they answer and deliver the same. -/
def Obligations.StrategyHasNoEffect : Prop :=
  ∀ s t : State, s.Inv → t.Inv → SameButStrategy s.enc t.enc →
    t.dec = s.dec → t.remap = s.remap → t.host = s.host →
    ∃ s' t', step s = .next s' ∧ step t = .next t' ∧ s'.Inv ∧ t'.Inv ∧
      SameButStrategy s'.enc t'.enc ∧ t'.dec = s'.dec ∧ t'.remap = s'.remap ∧ t'.host = s'.host

/-! ### Streams -/

/-- R142, R145, R147, R86, R87: whatever `B` and STRATEGY the encoder is built with, the bytes it delivers for an input are
the codes of the abstract encoder, packed least significant bit first and padded with zero bits to a whole byte. -/
def Obligations.EncoderStreamIsItsCodesPacked : Prop :=
  ∀ (s : State) (m : Byte) (input : List Byte), s.enc.Inv → m.toNat + 3 ≤ s.enc.build.cap →
    (∀ b ∈ input, b ≤ m) →
    ∃ t ds, execAll (.encInit m :: input.map .encByte ++ [.encFinal]) s = .next t ∧
      t.enc.out = s.enc.out ++ ds ∧
      ds.flatten = packBits (codesBits (encodedCodes s.enc.build.cap m input)) ∧
      t.enc.resp = s.enc.resp ++ List.replicate (input.length + 2) ⟨0x00#8, 0#32⟩

/-- R187: encode an input, give every delivered byte to the decoder: every byte before the last is answered `S_MORE`, the
last `S_DONE`, and what the decoder delivers is the input. -/
def Obligations.RoundTripGivesBackTheInput : Prop :=
  ∀ (s : State) (m : Byte) (input : List Byte), s.Inv →
    s.dec.build.cap = s.enc.build.cap → m.toNat + 3 ≤ s.enc.build.cap →
    (∀ b ∈ input, b ≤ m) →
    ∃ t ds v outs, execAll (.encInit m :: input.map .encByte ++ [.encFinal]) s = .next t ∧
      t.enc.out = s.enc.out ++ ds ∧ ds.flatten ≠ [] ∧
      execAll (.decInit m :: ds.flatten.map .decByte) t = .next v ∧
      v.dec.out = s.dec.out ++ outs ∧ outs.flatten = input ∧
      v.dec.resp = s.dec.resp ++ ⟨0x00#8, 0#32⟩ ::
        (List.replicate (ds.flatten.length - 1) ⟨0x00#8, 0#32⟩ ++ [⟨0x01#8, 0#32⟩])

/-! ### The host's pseudo-instructions and the assembler -/

/-- R93, R148: `ENC.BYTES` issues one `ENC.BYTE` a byte and stops at the first response that is not `S_OK`, which is its
result; the bytes before it stay encoded. With none failing, and with no byte, the result is `S_OK` with INFO 0. The same of
`ENC.BYTES.REMAP`. -/
def Obligations.EncBytesStopsAtTheFirstError : Prop :=
  ∀ (s t v : State) (bs cs : List Byte) (b : Byte) (re : List Response) (r : Response),
    re.length = bs.length → (∀ x ∈ re, x = ⟨0x00#8, 0#32⟩) →
    (execAll (bs.map .encByte) s = .next t → t.enc.resp = s.enc.resp ++ re →
      encBytes bs s = .next (t, ⟨0x00#8, 0#32⟩) ∧
      (exec (.encByte b) t = .next v → v.enc.resp = t.enc.resp ++ [r] → r.status ≠ 0x00#8 →
        encBytes (bs ++ b :: cs) s = .next (v, r))) ∧
    (execAll (bs.map .encByteRemap) s = .next t → t.enc.resp = s.enc.resp ++ re →
      encBytesRemap bs s = .next (t, ⟨0x00#8, 0#32⟩) ∧
      (exec (.encByteRemap b) t = .next v → v.enc.resp = t.enc.resp ++ [r] → r.status ≠ 0x00#8 →
        encBytesRemap (bs ++ b :: cs) s = .next (v, r)))

/-- R94, R183: `DEC.BYTES` issues one `DEC.BYTE` a byte and stops at the first response that is not `S_MORE`, which is its
result; with none stopping it, the result is the last response, `S_MORE` with INFO 0; with no byte, it is what the status
lines of `DEC.BYTE` give for the current state. -/
def Obligations.DecBytesStopsAtTheFirstStatusButMore : Prop :=
  (∀ s : State, decBytes [] s = .next (s,
    if s.dec.cfg = false then ⟨0x81#8, 0#32⟩
    else match s.dec.st with
      | .run => ⟨0x00#8, 0#32⟩
      | .done => ⟨0x01#8, 0#32⟩
      | .error => ⟨s.dec.err, s.dec.info⟩)) ∧
  (∀ (s t : State) (bs : List Byte) (re : List Response),
    re.length = bs.length → (∀ x ∈ re, x = ⟨0x00#8, 0#32⟩) →
    execAll (bs.map .decByte) s = .next t → t.dec.resp = s.dec.resp ++ re →
    (bs ≠ [] → decBytes bs s = .next (t, ⟨0x00#8, 0#32⟩)) ∧
    ∀ (v : State) (cs : List Byte) (b : Byte) (r : Response),
      exec (.decByte b) t = .next v → v.dec.resp = t.dec.resp ++ [r] → r.status ≠ 0x00#8 →
      decBytes (bs ++ b :: cs) s = .next (v, r))

/-- R92: a line with its one operand in `0..255`, or `ENC.FINAL` with none, assembles to the word of R82 with `DATA` the
operand; any other line is an error and gives no word. -/
def Obligations.AssemblerGivesTheWordOfTheTable : Prop :=
  (∀ n : Nat, n ≤ 255 →
    assemble ⟨.encInit, some n⟩ = some (BitVec.ofNat 16 n) ∧
    assemble ⟨.encByte, some n⟩ = some (BitVec.ofNat 16 (0x1000 + n)) ∧
    assemble ⟨.encByteRemap, some n⟩ = some (BitVec.ofNat 16 (0x2000 + n)) ∧
    assemble ⟨.decInit, some n⟩ = some (BitVec.ofNat 16 (0x8000 + n)) ∧
    assemble ⟨.decByte, some n⟩ = some (BitVec.ofNat 16 (0x9000 + n))) ∧
  assemble ⟨.encFinal, none⟩ = some 0x3000#16 ∧
  (∀ n : Nat, assemble ⟨.encFinal, some n⟩ = none) ∧
  (∀ m : Mnemonic, m ≠ .encFinal → assemble ⟨m, none⟩ = none ∧
    ∀ n : Nat, 255 < n → assemble ⟨m, some n⟩ = none)
end

