-- ==== Sys2Proof/Laws/Memory.lean ====
section
/-! SUPPORT. The laws of a private memory (R63): a read after a write, the canonical form, and when an access is in
range. -/

namespace Sys2Proof.Machine

variable {α : Type}

@[simp] theorem Memory.read_nil (d : α) (a : Nat) : Memory.read d [] a = d := rfl

theorem Memory.read_cons (d : α) (k : Nat) (v : α) (rest : Memory α) (a : Nat) :
    Memory.read d ((k, v) :: rest) a = if a = k then v else Memory.read d rest a := rfl

/-- A write leaves every other entry alone. -/
theorem Memory.read_write_ne [DecidableEq α] (d : α) (m : Memory α) {a a' : Nat} (v : α)
    (h : a' ≠ a) : Memory.read d (Memory.write d m a v) a' = Memory.read d m a' := by
  induction m with
  | nil =>
    by_cases hv : v = d <;> simp [Memory.write, hv, Memory.read_cons, h]
  | cons c rest ih =>
    obtain ⟨k, x⟩ := c
    simp only [Memory.write]
    split
    · split <;> simp [Memory.read_cons, h]
    · split
      · rename_i h1 h2
        subst h2
        split <;> simp [Memory.read_cons, h]
      · simp [Memory.read_cons, ih]

/-- Above the highest index that `wfFrom` admits below, nothing is listed. -/
theorem Memory.read_below [DecidableEq α] (d : α) :
    ∀ (m : Memory α) {lo a : Nat}, Memory.wfFrom d lo m = true → a < lo → Memory.read d m a = d
  | [], _, _, _, _ => rfl
  | (k, x) :: rest, lo, a, h, ha => by
    simp only [Memory.wfFrom, Bool.and_eq_true, decide_eq_true_eq] at h
    have hk : a ≠ k := by omega
    rw [Memory.read_cons, if_neg hk]
    exact Memory.read_below d rest h.2 (by omega)

theorem Memory.wfFrom_mono [DecidableEq α] (d : α) :
    ∀ (m : Memory α) {lo lo' : Nat}, lo' ≤ lo → Memory.wfFrom d lo m = true →
      Memory.wfFrom d lo' m = true
  | [], _, _, _, _ => rfl
  | (k, x) :: rest, lo, lo', hle, h => by
    simp only [Memory.wfFrom, Bool.and_eq_true, decide_eq_true_eq] at h ⊢
    exact ⟨⟨by omega, h.1.2⟩, h.2⟩

theorem Memory.read_write_same_from [DecidableEq α] (d : α) (a : Nat) (v : α) :
    ∀ (m : Memory α) {lo : Nat}, Memory.wfFrom d lo m = true →
      Memory.read d (Memory.write d m a v) a = v
  | [], _, _ => by by_cases hv : v = d <;> simp [Memory.write, hv, Memory.read_cons]
  | (k, x) :: rest, lo, h => by
    simp only [Memory.wfFrom, Bool.and_eq_true, decide_eq_true_eq] at h
    simp only [Memory.write]
    split
    · rename_i hlt
      split
      · rename_i hv
        subst hv
        rw [Memory.read_cons, if_neg (by omega)]
        exact Memory.read_below v rest h.2 (by omega)
      · simp [Memory.read_cons]
    · split
      · rename_i h1 h2
        subst h2
        split
        · rename_i hv
          subst hv
          exact Memory.read_below v rest h.2 (by omega)
        · simp [Memory.read_cons]
      · rename_i h1 h2
        rw [Memory.read_cons, if_neg h2]
        exact Memory.read_write_same_from d a v rest h.2

/-- A read after a write to the same index gives the value written. -/
theorem Memory.read_write_same [DecidableEq α] (d : α) (m : Memory α) (a : Nat) (v : α)
    (h : Memory.wf d m = true) : Memory.read d (Memory.write d m a v) a = v :=
  Memory.read_write_same_from d a v m h

/-- `MemRead` after `MemWrite`, at any index. -/
theorem Memory.read_write [DecidableEq α] (d : α) (m : Memory α) (a a' : Nat) (v : α)
    (h : Memory.wf d m = true) :
    Memory.read d (Memory.write d m a v) a' = if a' = a then v else Memory.read d m a' := by
  by_cases e : a' = a
  · subst e
    rw [if_pos rfl, Memory.read_write_same d m _ v h]
  · rw [if_neg e, Memory.read_write_ne d m v e]

theorem Memory.wfFrom_write [DecidableEq α] (d : α) (a : Nat) (v : α) :
    ∀ (m : Memory α) {lo : Nat}, lo ≤ a → Memory.wfFrom d lo m = true →
      Memory.wfFrom d lo (Memory.write d m a v) = true
  | [], lo, hlo, _ => by
    by_cases hv : v = d <;> simp [Memory.write, hv, Memory.wfFrom, hlo]
  | (k, x) :: rest, lo, hlo, h => by
    have h0 := h
    simp only [Memory.wfFrom, Bool.and_eq_true, decide_eq_true_eq] at h
    simp only [Memory.write]
    split
    · rename_i hlt
      split
      · exact h0
      · rename_i hv
        simp only [Memory.wfFrom, Bool.and_eq_true, decide_eq_true_eq]
        exact ⟨⟨hlo, by simpa using hv⟩, ⟨by omega, h.1.2⟩, h.2⟩
    · split
      · rename_i h1 h2
        subst h2
        split
        · exact Memory.wfFrom_mono d rest (by omega) h.2
        · rename_i hv
          simp only [Memory.wfFrom, Bool.and_eq_true, decide_eq_true_eq]
          exact ⟨⟨hlo, by simpa using hv⟩, h.2⟩
      · rename_i h1 h2
        simp only [Memory.wfFrom, Bool.and_eq_true, decide_eq_true_eq]
        exact ⟨⟨h.1.1, h.1.2⟩, Memory.wfFrom_write d a v rest (by omega) h.2⟩

/-- A write keeps the canonical form. -/
theorem Memory.wf_write [DecidableEq α] (d : α) (m : Memory α) (a : Nat) (v : α)
    (h : Memory.wf d m = true) : Memory.wf d (Memory.write d m a v) = true :=
  Memory.wfFrom_write d a v m (Nat.zero_le a) h

theorem Memory.wfFrom_clearBelow [DecidableEq α] (d : α) (n : Nat) :
    ∀ (m : Memory α) {lo : Nat}, Memory.wfFrom d lo m = true →
      Memory.wfFrom d lo (Memory.clearBelow n m) = true
  | [], _, _ => rfl
  | (k, x) :: rest, lo, h => by
    simp only [Memory.wfFrom, Bool.and_eq_true, decide_eq_true_eq] at h
    have ih := Memory.wfFrom_clearBelow d n rest h.2
    simp only [Memory.clearBelow, List.filter_cons] at ih ⊢
    split
    · simp only [Memory.wfFrom, Bool.and_eq_true, decide_eq_true_eq]
      exact ⟨⟨h.1.1, h.1.2⟩, ih⟩
    · exact Memory.wfFrom_mono d _ (by omega) ih

/-- Clearing keeps the canonical form. -/
theorem Memory.wf_clearBelow [DecidableEq α] (d : α) (n : Nat) (m : Memory α)
    (h : Memory.wf d m = true) : Memory.wf d (Memory.clearBelow n m) = true :=
  Memory.wfFrom_clearBelow d n m h

/-- A cleared entry reads as an unlisted one, every other entry as before. -/
theorem Memory.read_clearBelow (d : α) (n : Nat) (m : Memory α) (a : Nat) :
    Memory.read d (Memory.clearBelow n m) a = if a < n then d else Memory.read d m a := by
  induction m with
  | nil => simp [Memory.clearBelow]
  | cons c rest ih =>
    obtain ⟨k, x⟩ := c
    simp only [Memory.clearBelow, List.filter_cons] at ih ⊢
    by_cases hk : n ≤ k
    · simp only [hk, decide_true, if_true, Memory.read_cons, ih]
      by_cases ha : a = k
      · subst ha
        simp [Nat.not_lt.mpr hk]
      · simp [ha]
    · simp only [hk, decide_false, Bool.false_eq_true, if_false, Memory.read_cons, ih]
      by_cases ha : a = k
      · subst ha
        simp [Nat.lt_of_not_le hk]
      · simp [ha]

/-- Equal memories are equal data: two canonical memories that read alike are the same list. -/
theorem Memory.eq_of_read_eq [DecidableEq α] (d : α) :
    ∀ (m m' : Memory α) {lo : Nat}, Memory.wfFrom d lo m = true → Memory.wfFrom d lo m' = true →
      (∀ a, Memory.read d m a = Memory.read d m' a) → m = m'
  | [], [], _, _, _, _ => rfl
  | [], (k, x) :: rest, lo, _, h', e => by
    have := e k
    simp only [Memory.wfFrom, Bool.and_eq_true, bne_iff_ne] at h'
    simp only [Memory.read_nil, Memory.read_cons, if_true] at this
    exact absurd this.symm h'.1.2
  | (k, x) :: rest, [], lo, h, _, e => by
    have := e k
    simp only [Memory.wfFrom, Bool.and_eq_true, bne_iff_ne] at h
    simp only [Memory.read_nil, Memory.read_cons, if_true] at this
    exact absurd this h.1.2
  | (k, x) :: rest, (k', x') :: rest', lo, h, h', e => by
    simp only [Memory.wfFrom, Bool.and_eq_true, bne_iff_ne, decide_eq_true_eq] at h h'
    have hk : k = k' := by
      rcases Nat.lt_trichotomy k k' with hl | he | hg
      · have := e k
        rw [Memory.read_cons, if_pos rfl, Memory.read_cons, if_neg (by omega),
          Memory.read_below d rest' h'.2 (by omega)] at this
        exact absurd this h.1.2
      · exact he
      · have := e k'
        rw [Memory.read_cons, if_neg (by omega), Memory.read_cons, if_pos rfl,
          Memory.read_below d rest h.2 (by omega)] at this
        exact absurd this.symm h'.1.2
    subst hk
    have hx : x = x' := by simpa [Memory.read_cons] using e k
    subst hx
    congr 1
    refine Memory.eq_of_read_eq d rest rest' h.2 h'.2 fun a => ?_
    by_cases ha : a = k
    · subst ha
      rw [Memory.read_below d rest h.2 (by omega), Memory.read_below d rest' h'.2 (by omega)]
    · simpa [Memory.read_cons, ha] using e a

/-! ### Accesses -/

theorem memRead_ok {name : MemName} {lo hi : Nat} {d : α} {m : Memory α} {a : Nat}
    (h : lo ≤ a ∧ a < hi) : memRead name lo hi d m a = .ok (Memory.read d m a) := if_pos h

theorem memWrite_ok [DecidableEq α] {name : MemName} {lo hi : Nat} {d : α} {m : Memory α}
    {a : Nat} {v : α} (h : lo ≤ a ∧ a < hi) :
    memWrite name lo hi d m a v = .ok (Memory.write d m a v) := if_pos h

/-- Everything a read can do: in range, the entry. -/
theorem memRead_eq_ok {name : MemName} {lo hi : Nat} {d : α} {m : Memory α} {a : Nat} {v : α} :
    memRead name lo hi d m a = .ok v ↔ (lo ≤ a ∧ a < hi) ∧ Memory.read d m a = v := by
  unfold memRead
  split <;> simp_all

/-- Everything a write can do: in range, the memory with that entry changed. -/
theorem memWrite_eq_ok [DecidableEq α] {name : MemName} {lo hi : Nat} {d : α} {m m' : Memory α}
    {a : Nat} {v : α} :
    memWrite name lo hi d m a v = .ok m' ↔ (lo ≤ a ∧ a < hi) ∧ Memory.write d m a v = m' := by
  unfold memWrite
  split <;> simp_all

@[simp] theorem Memory.prefixBytes_length (m : ByteMemory) (n : Nat) :
    (Memory.prefixBytes m n).length = n := by simp [Memory.prefixBytes]

end Sys2Proof.Machine
end

