-- ==== Sys2Proof/Laws/State.lean ====
section
/-! SUPPORT. The fields of every state update that has a name: one lemma a field, so that no proof unfolds the update. -/

namespace Sys2Proof.Machine

/-! ### `EncUnit.deliver`, `respond`, `raise` -/

@[simp] theorem EncUnit.build_deliver (u : EncUnit) (x : List Byte) : (u.deliver x).build = u.build := rfl
@[simp] theorem EncUnit.cfg_deliver (u : EncUnit) (x : List Byte) : (u.deliver x).cfg = u.cfg := rfl
@[simp] theorem EncUnit.maxb_deliver (u : EncUnit) (x : List Byte) : (u.deliver x).maxb = u.maxb := rfl
@[simp] theorem EncUnit.count_deliver (u : EncUnit) (x : List Byte) : (u.deliver x).count = u.count := rfl
@[simp] theorem EncUnit.idx_deliver (u : EncUnit) (x : List Byte) : (u.deliver x).idx = u.idx := rfl
@[simp] theorem EncUnit.idxv_deliver (u : EncUnit) (x : List Byte) : (u.deliver x).idxv = u.idxv := rfl
@[simp] theorem EncUnit.w_deliver (u : EncUnit) (x : List Byte) : (u.deliver x).w = u.w := rfl
@[simp] theorem EncUnit.t_deliver (u : EncUnit) (x : List Byte) : (u.deliver x).t = u.t := rfl
@[simp] theorem EncUnit.cur_deliver (u : EncUnit) (x : List Byte) : (u.deliver x).cur = u.cur := rfl
@[simp] theorem EncUnit.off_deliver (u : EncUnit) (x : List Byte) : (u.deliver x).off = u.off := rfl
@[simp] theorem EncUnit.pos_deliver (u : EncUnit) (x : List Byte) : (u.deliver x).pos = u.pos := rfl
@[simp] theorem EncUnit.stage_deliver (u : EncUnit) (x : List Byte) : (u.deliver x).stage = u.stage := rfl
@[simp] theorem EncUnit.bytev_deliver (u : EncUnit) (x : List Byte) : (u.deliver x).bytev = u.bytev := rfl
@[simp] theorem EncUnit.first_deliver (u : EncUnit) (x : List Byte) : (u.deliver x).first = u.first := rfl
@[simp] theorem EncUnit.sib_deliver (u : EncUnit) (x : List Byte) : (u.deliver x).sib = u.sib := rfl
@[simp] theorem EncUnit.root_deliver (u : EncUnit) (x : List Byte) : (u.deliver x).root = u.root := rfl
@[simp] theorem EncUnit.nxt_deliver (u : EncUnit) (x : List Byte) : (u.deliver x).nxt = u.nxt := rfl
@[simp] theorem EncUnit.out_deliver (u : EncUnit) (x : List Byte) : (u.deliver x).out = u.out ++ [x] := rfl
@[simp] theorem EncUnit.resp_deliver (u : EncUnit) (x : List Byte) : (u.deliver x).resp = u.resp := rfl
@[simp] theorem EncUnit.build_respond (u : EncUnit) (r : Response) : (u.respond r).build = u.build := rfl
@[simp] theorem EncUnit.cfg_respond (u : EncUnit) (r : Response) : (u.respond r).cfg = u.cfg := rfl
@[simp] theorem EncUnit.maxb_respond (u : EncUnit) (r : Response) : (u.respond r).maxb = u.maxb := rfl
@[simp] theorem EncUnit.count_respond (u : EncUnit) (r : Response) : (u.respond r).count = u.count := rfl
@[simp] theorem EncUnit.idx_respond (u : EncUnit) (r : Response) : (u.respond r).idx = u.idx := rfl
@[simp] theorem EncUnit.idxv_respond (u : EncUnit) (r : Response) : (u.respond r).idxv = u.idxv := rfl
@[simp] theorem EncUnit.w_respond (u : EncUnit) (r : Response) : (u.respond r).w = u.w := rfl
@[simp] theorem EncUnit.t_respond (u : EncUnit) (r : Response) : (u.respond r).t = u.t := rfl
@[simp] theorem EncUnit.cur_respond (u : EncUnit) (r : Response) : (u.respond r).cur = u.cur := rfl
@[simp] theorem EncUnit.off_respond (u : EncUnit) (r : Response) : (u.respond r).off = u.off := rfl
@[simp] theorem EncUnit.pos_respond (u : EncUnit) (r : Response) : (u.respond r).pos = u.pos := rfl
@[simp] theorem EncUnit.stage_respond (u : EncUnit) (r : Response) : (u.respond r).stage = u.stage := rfl
@[simp] theorem EncUnit.bytev_respond (u : EncUnit) (r : Response) : (u.respond r).bytev = u.bytev := rfl
@[simp] theorem EncUnit.first_respond (u : EncUnit) (r : Response) : (u.respond r).first = u.first := rfl
@[simp] theorem EncUnit.sib_respond (u : EncUnit) (r : Response) : (u.respond r).sib = u.sib := rfl
@[simp] theorem EncUnit.root_respond (u : EncUnit) (r : Response) : (u.respond r).root = u.root := rfl
@[simp] theorem EncUnit.nxt_respond (u : EncUnit) (r : Response) : (u.respond r).nxt = u.nxt := rfl
@[simp] theorem EncUnit.out_respond (u : EncUnit) (r : Response) : (u.respond r).out = u.out := rfl
@[simp] theorem EncUnit.resp_respond (u : EncUnit) (r : Response) : (u.respond r).resp = u.resp ++ [r] := rfl
@[simp] theorem EncUnit.build_raise (u : EncUnit) (e : StatusCode) (i : InfoWord) : (u.raise e i).build = u.build := rfl
@[simp] theorem EncUnit.cfg_raise (u : EncUnit) (e : StatusCode) (i : InfoWord) : (u.raise e i).cfg = u.cfg := rfl
@[simp] theorem EncUnit.maxb_raise (u : EncUnit) (e : StatusCode) (i : InfoWord) : (u.raise e i).maxb = u.maxb := rfl
@[simp] theorem EncUnit.count_raise (u : EncUnit) (e : StatusCode) (i : InfoWord) : (u.raise e i).count = u.count := rfl
@[simp] theorem EncUnit.idx_raise (u : EncUnit) (e : StatusCode) (i : InfoWord) : (u.raise e i).idx = u.idx := rfl
@[simp] theorem EncUnit.idxv_raise (u : EncUnit) (e : StatusCode) (i : InfoWord) : (u.raise e i).idxv = u.idxv := rfl
@[simp] theorem EncUnit.w_raise (u : EncUnit) (e : StatusCode) (i : InfoWord) : (u.raise e i).w = u.w := rfl
@[simp] theorem EncUnit.t_raise (u : EncUnit) (e : StatusCode) (i : InfoWord) : (u.raise e i).t = u.t := rfl
@[simp] theorem EncUnit.cur_raise (u : EncUnit) (e : StatusCode) (i : InfoWord) : (u.raise e i).cur = u.cur := rfl
@[simp] theorem EncUnit.off_raise (u : EncUnit) (e : StatusCode) (i : InfoWord) : (u.raise e i).off = u.off := rfl
@[simp] theorem EncUnit.pos_raise (u : EncUnit) (e : StatusCode) (i : InfoWord) : (u.raise e i).pos = u.pos := rfl
@[simp] theorem EncUnit.stage_raise (u : EncUnit) (e : StatusCode) (i : InfoWord) : (u.raise e i).stage = u.stage := rfl
@[simp] theorem EncUnit.bytev_raise (u : EncUnit) (e : StatusCode) (i : InfoWord) : (u.raise e i).bytev = u.bytev := rfl
@[simp] theorem EncUnit.first_raise (u : EncUnit) (e : StatusCode) (i : InfoWord) : (u.raise e i).first = u.first := rfl
@[simp] theorem EncUnit.sib_raise (u : EncUnit) (e : StatusCode) (i : InfoWord) : (u.raise e i).sib = u.sib := rfl
@[simp] theorem EncUnit.root_raise (u : EncUnit) (e : StatusCode) (i : InfoWord) : (u.raise e i).root = u.root := rfl
@[simp] theorem EncUnit.nxt_raise (u : EncUnit) (e : StatusCode) (i : InfoWord) : (u.raise e i).nxt = u.nxt := rfl
@[simp] theorem EncUnit.out_raise (u : EncUnit) (e : StatusCode) (i : InfoWord) : (u.raise e i).out = u.out := rfl
@[simp] theorem EncUnit.resp_raise (u : EncUnit) (e : StatusCode) (i : InfoWord) : (u.raise e i).resp = u.resp ++ [⟨e, i⟩] := rfl

/-! ### `EncUnit.setWidth` -/

@[simp] theorem EncUnit.build_setWidth (u : EncUnit) (n : Nat) : (u.setWidth n).build = u.build := rfl
@[simp] theorem EncUnit.cfg_setWidth (u : EncUnit) (n : Nat) : (u.setWidth n).cfg = u.cfg := rfl
@[simp] theorem EncUnit.maxb_setWidth (u : EncUnit) (n : Nat) : (u.setWidth n).maxb = u.maxb := rfl
@[simp] theorem EncUnit.count_setWidth (u : EncUnit) (n : Nat) : (u.setWidth n).count = u.count := rfl
@[simp] theorem EncUnit.idx_setWidth (u : EncUnit) (n : Nat) : (u.setWidth n).idx = u.idx := rfl
@[simp] theorem EncUnit.idxv_setWidth (u : EncUnit) (n : Nat) : (u.setWidth n).idxv = u.idxv := rfl
@[simp] theorem EncUnit.w_setWidth (u : EncUnit) (n : Nat) : (u.setWidth n).w = n := rfl
@[simp] theorem EncUnit.t_setWidth (u : EncUnit) (n : Nat) : (u.setWidth n).t = 2 ^ n := rfl
@[simp] theorem EncUnit.cur_setWidth (u : EncUnit) (n : Nat) : (u.setWidth n).cur = u.cur := rfl
@[simp] theorem EncUnit.off_setWidth (u : EncUnit) (n : Nat) : (u.setWidth n).off = u.off := rfl
@[simp] theorem EncUnit.pos_setWidth (u : EncUnit) (n : Nat) : (u.setWidth n).pos = u.pos := rfl
@[simp] theorem EncUnit.stage_setWidth (u : EncUnit) (n : Nat) : (u.setWidth n).stage = u.stage := rfl
@[simp] theorem EncUnit.bytev_setWidth (u : EncUnit) (n : Nat) : (u.setWidth n).bytev = u.bytev := rfl
@[simp] theorem EncUnit.first_setWidth (u : EncUnit) (n : Nat) : (u.setWidth n).first = u.first := rfl
@[simp] theorem EncUnit.sib_setWidth (u : EncUnit) (n : Nat) : (u.setWidth n).sib = u.sib := rfl
@[simp] theorem EncUnit.root_setWidth (u : EncUnit) (n : Nat) : (u.setWidth n).root = u.root := rfl
@[simp] theorem EncUnit.nxt_setWidth (u : EncUnit) (n : Nat) : (u.setWidth n).nxt = u.nxt := rfl
@[simp] theorem EncUnit.out_setWidth (u : EncUnit) (n : Nat) : (u.setWidth n).out = u.out := rfl
@[simp] theorem EncUnit.resp_setWidth (u : EncUnit) (n : Nat) : (u.setWidth n).resp = u.resp := rfl

/-! ### `DecUnit.deliver`, `respond`, `raise` -/

@[simp] theorem DecUnit.build_deliver (d : DecUnit) (x : List Byte) : (d.deliver x).build = d.build := rfl
@[simp] theorem DecUnit.cfg_deliver (d : DecUnit) (x : List Byte) : (d.deliver x).cfg = d.cfg := rfl
@[simp] theorem DecUnit.maxb_deliver (d : DecUnit) (x : List Byte) : (d.deliver x).maxb = d.maxb := rfl
@[simp] theorem DecUnit.count_deliver (d : DecUnit) (x : List Byte) : (d.deliver x).count = d.count := rfl
@[simp] theorem DecUnit.w_deliver (d : DecUnit) (x : List Byte) : (d.deliver x).w = d.w := rfl
@[simp] theorem DecUnit.t_deliver (d : DecUnit) (x : List Byte) : (d.deliver x).t = d.t := rfl
@[simp] theorem DecUnit.prev_deliver (d : DecUnit) (x : List Byte) : (d.deliver x).prev = d.prev := rfl
@[simp] theorem DecUnit.prevv_deliver (d : DecUnit) (x : List Byte) : (d.deliver x).prevv = d.prevv := rfl
@[simp] theorem DecUnit.pfirst_deliver (d : DecUnit) (x : List Byte) : (d.deliver x).pfirst = d.pfirst := rfl
@[simp] theorem DecUnit.acc_deliver (d : DecUnit) (x : List Byte) : (d.deliver x).acc = d.acc := rfl
@[simp] theorem DecUnit.nacc_deliver (d : DecUnit) (x : List Byte) : (d.deliver x).nacc = d.nacc := rfl
@[simp] theorem DecUnit.st_deliver (d : DecUnit) (x : List Byte) : (d.deliver x).st = d.st := rfl
@[simp] theorem DecUnit.err_deliver (d : DecUnit) (x : List Byte) : (d.deliver x).err = d.err := rfl
@[simp] theorem DecUnit.info_deliver (d : DecUnit) (x : List Byte) : (d.deliver x).info = d.info := rfl
@[simp] theorem DecUnit.pfx_deliver (d : DecUnit) (x : List Byte) : (d.deliver x).pfx = d.pfx := rfl
@[simp] theorem DecUnit.bytev_deliver (d : DecUnit) (x : List Byte) : (d.deliver x).bytev = d.bytev := rfl
@[simp] theorem DecUnit.scratch_deliver (d : DecUnit) (x : List Byte) : (d.deliver x).scratch = d.scratch := rfl
@[simp] theorem DecUnit.out_deliver (d : DecUnit) (x : List Byte) : (d.deliver x).out = d.out ++ [x] := rfl
@[simp] theorem DecUnit.resp_deliver (d : DecUnit) (x : List Byte) : (d.deliver x).resp = d.resp := rfl
@[simp] theorem DecUnit.build_respond (d : DecUnit) (r : Response) : (d.respond r).build = d.build := rfl
@[simp] theorem DecUnit.cfg_respond (d : DecUnit) (r : Response) : (d.respond r).cfg = d.cfg := rfl
@[simp] theorem DecUnit.maxb_respond (d : DecUnit) (r : Response) : (d.respond r).maxb = d.maxb := rfl
@[simp] theorem DecUnit.count_respond (d : DecUnit) (r : Response) : (d.respond r).count = d.count := rfl
@[simp] theorem DecUnit.w_respond (d : DecUnit) (r : Response) : (d.respond r).w = d.w := rfl
@[simp] theorem DecUnit.t_respond (d : DecUnit) (r : Response) : (d.respond r).t = d.t := rfl
@[simp] theorem DecUnit.prev_respond (d : DecUnit) (r : Response) : (d.respond r).prev = d.prev := rfl
@[simp] theorem DecUnit.prevv_respond (d : DecUnit) (r : Response) : (d.respond r).prevv = d.prevv := rfl
@[simp] theorem DecUnit.pfirst_respond (d : DecUnit) (r : Response) : (d.respond r).pfirst = d.pfirst := rfl
@[simp] theorem DecUnit.acc_respond (d : DecUnit) (r : Response) : (d.respond r).acc = d.acc := rfl
@[simp] theorem DecUnit.nacc_respond (d : DecUnit) (r : Response) : (d.respond r).nacc = d.nacc := rfl
@[simp] theorem DecUnit.st_respond (d : DecUnit) (r : Response) : (d.respond r).st = d.st := rfl
@[simp] theorem DecUnit.err_respond (d : DecUnit) (r : Response) : (d.respond r).err = d.err := rfl
@[simp] theorem DecUnit.info_respond (d : DecUnit) (r : Response) : (d.respond r).info = d.info := rfl
@[simp] theorem DecUnit.pfx_respond (d : DecUnit) (r : Response) : (d.respond r).pfx = d.pfx := rfl
@[simp] theorem DecUnit.bytev_respond (d : DecUnit) (r : Response) : (d.respond r).bytev = d.bytev := rfl
@[simp] theorem DecUnit.scratch_respond (d : DecUnit) (r : Response) : (d.respond r).scratch = d.scratch := rfl
@[simp] theorem DecUnit.out_respond (d : DecUnit) (r : Response) : (d.respond r).out = d.out := rfl
@[simp] theorem DecUnit.resp_respond (d : DecUnit) (r : Response) : (d.respond r).resp = d.resp ++ [r] := rfl
@[simp] theorem DecUnit.build_raise (d : DecUnit) (e : StatusCode) (i : InfoWord) : (d.raise e i).build = d.build := rfl
@[simp] theorem DecUnit.cfg_raise (d : DecUnit) (e : StatusCode) (i : InfoWord) : (d.raise e i).cfg = d.cfg := rfl
@[simp] theorem DecUnit.maxb_raise (d : DecUnit) (e : StatusCode) (i : InfoWord) : (d.raise e i).maxb = d.maxb := rfl
@[simp] theorem DecUnit.count_raise (d : DecUnit) (e : StatusCode) (i : InfoWord) : (d.raise e i).count = d.count := rfl
@[simp] theorem DecUnit.w_raise (d : DecUnit) (e : StatusCode) (i : InfoWord) : (d.raise e i).w = d.w := rfl
@[simp] theorem DecUnit.t_raise (d : DecUnit) (e : StatusCode) (i : InfoWord) : (d.raise e i).t = d.t := rfl
@[simp] theorem DecUnit.prev_raise (d : DecUnit) (e : StatusCode) (i : InfoWord) : (d.raise e i).prev = d.prev := rfl
@[simp] theorem DecUnit.prevv_raise (d : DecUnit) (e : StatusCode) (i : InfoWord) : (d.raise e i).prevv = d.prevv := rfl
@[simp] theorem DecUnit.pfirst_raise (d : DecUnit) (e : StatusCode) (i : InfoWord) : (d.raise e i).pfirst = d.pfirst := rfl
@[simp] theorem DecUnit.acc_raise (d : DecUnit) (e : StatusCode) (i : InfoWord) : (d.raise e i).acc = d.acc := rfl
@[simp] theorem DecUnit.nacc_raise (d : DecUnit) (e : StatusCode) (i : InfoWord) : (d.raise e i).nacc = d.nacc := rfl
@[simp] theorem DecUnit.st_raise (d : DecUnit) (e : StatusCode) (i : InfoWord) : (d.raise e i).st = d.st := rfl
@[simp] theorem DecUnit.err_raise (d : DecUnit) (e : StatusCode) (i : InfoWord) : (d.raise e i).err = d.err := rfl
@[simp] theorem DecUnit.info_raise (d : DecUnit) (e : StatusCode) (i : InfoWord) : (d.raise e i).info = d.info := rfl
@[simp] theorem DecUnit.pfx_raise (d : DecUnit) (e : StatusCode) (i : InfoWord) : (d.raise e i).pfx = d.pfx := rfl
@[simp] theorem DecUnit.bytev_raise (d : DecUnit) (e : StatusCode) (i : InfoWord) : (d.raise e i).bytev = d.bytev := rfl
@[simp] theorem DecUnit.scratch_raise (d : DecUnit) (e : StatusCode) (i : InfoWord) : (d.raise e i).scratch = d.scratch := rfl
@[simp] theorem DecUnit.out_raise (d : DecUnit) (e : StatusCode) (i : InfoWord) : (d.raise e i).out = d.out := rfl
@[simp] theorem DecUnit.resp_raise (d : DecUnit) (e : StatusCode) (i : InfoWord) : (d.raise e i).resp = d.resp ++ [⟨e, i⟩] := rfl

/-! ### `DecUnit.setWidth` -/

@[simp] theorem DecUnit.build_setWidth (d : DecUnit) (n : Nat) : (d.setWidth n).build = d.build := rfl
@[simp] theorem DecUnit.cfg_setWidth (d : DecUnit) (n : Nat) : (d.setWidth n).cfg = d.cfg := rfl
@[simp] theorem DecUnit.maxb_setWidth (d : DecUnit) (n : Nat) : (d.setWidth n).maxb = d.maxb := rfl
@[simp] theorem DecUnit.count_setWidth (d : DecUnit) (n : Nat) : (d.setWidth n).count = d.count := rfl
@[simp] theorem DecUnit.w_setWidth (d : DecUnit) (n : Nat) : (d.setWidth n).w = n := rfl
@[simp] theorem DecUnit.t_setWidth (d : DecUnit) (n : Nat) : (d.setWidth n).t = 2 ^ n - 1 := rfl
@[simp] theorem DecUnit.prev_setWidth (d : DecUnit) (n : Nat) : (d.setWidth n).prev = d.prev := rfl
@[simp] theorem DecUnit.prevv_setWidth (d : DecUnit) (n : Nat) : (d.setWidth n).prevv = d.prevv := rfl
@[simp] theorem DecUnit.pfirst_setWidth (d : DecUnit) (n : Nat) : (d.setWidth n).pfirst = d.pfirst := rfl
@[simp] theorem DecUnit.acc_setWidth (d : DecUnit) (n : Nat) : (d.setWidth n).acc = d.acc := rfl
@[simp] theorem DecUnit.nacc_setWidth (d : DecUnit) (n : Nat) : (d.setWidth n).nacc = d.nacc := rfl
@[simp] theorem DecUnit.st_setWidth (d : DecUnit) (n : Nat) : (d.setWidth n).st = d.st := rfl
@[simp] theorem DecUnit.err_setWidth (d : DecUnit) (n : Nat) : (d.setWidth n).err = d.err := rfl
@[simp] theorem DecUnit.info_setWidth (d : DecUnit) (n : Nat) : (d.setWidth n).info = d.info := rfl
@[simp] theorem DecUnit.pfx_setWidth (d : DecUnit) (n : Nat) : (d.setWidth n).pfx = d.pfx := rfl
@[simp] theorem DecUnit.bytev_setWidth (d : DecUnit) (n : Nat) : (d.setWidth n).bytev = d.bytev := rfl
@[simp] theorem DecUnit.scratch_setWidth (d : DecUnit) (n : Nat) : (d.setWidth n).scratch = d.scratch := rfl
@[simp] theorem DecUnit.out_setWidth (d : DecUnit) (n : Nat) : (d.setWidth n).out = d.out := rfl
@[simp] theorem DecUnit.resp_setWidth (d : DecUnit) (n : Nat) : (d.setWidth n).resp = d.resp := rfl

/-! ### `DecUnit.pushByte`, `dropCode`, `eos` -/

@[simp] theorem DecUnit.build_pushByte (d : DecUnit) (x : Byte) : (d.pushByte x).build = d.build := rfl
@[simp] theorem DecUnit.cfg_pushByte (d : DecUnit) (x : Byte) : (d.pushByte x).cfg = d.cfg := rfl
@[simp] theorem DecUnit.maxb_pushByte (d : DecUnit) (x : Byte) : (d.pushByte x).maxb = d.maxb := rfl
@[simp] theorem DecUnit.count_pushByte (d : DecUnit) (x : Byte) : (d.pushByte x).count = d.count := rfl
@[simp] theorem DecUnit.w_pushByte (d : DecUnit) (x : Byte) : (d.pushByte x).w = d.w := rfl
@[simp] theorem DecUnit.t_pushByte (d : DecUnit) (x : Byte) : (d.pushByte x).t = d.t := rfl
@[simp] theorem DecUnit.prev_pushByte (d : DecUnit) (x : Byte) : (d.pushByte x).prev = d.prev := rfl
@[simp] theorem DecUnit.prevv_pushByte (d : DecUnit) (x : Byte) : (d.pushByte x).prevv = d.prevv := rfl
@[simp] theorem DecUnit.pfirst_pushByte (d : DecUnit) (x : Byte) : (d.pushByte x).pfirst = d.pfirst := rfl
@[simp] theorem DecUnit.acc_pushByte (d : DecUnit) (x : Byte) : (d.pushByte x).acc = d.acc ||| (x.toNat <<< d.nacc) := rfl
@[simp] theorem DecUnit.nacc_pushByte (d : DecUnit) (x : Byte) : (d.pushByte x).nacc = d.nacc + 8 := rfl
@[simp] theorem DecUnit.st_pushByte (d : DecUnit) (x : Byte) : (d.pushByte x).st = d.st := rfl
@[simp] theorem DecUnit.err_pushByte (d : DecUnit) (x : Byte) : (d.pushByte x).err = d.err := rfl
@[simp] theorem DecUnit.info_pushByte (d : DecUnit) (x : Byte) : (d.pushByte x).info = d.info := rfl
@[simp] theorem DecUnit.pfx_pushByte (d : DecUnit) (x : Byte) : (d.pushByte x).pfx = d.pfx := rfl
@[simp] theorem DecUnit.bytev_pushByte (d : DecUnit) (x : Byte) : (d.pushByte x).bytev = d.bytev := rfl
@[simp] theorem DecUnit.scratch_pushByte (d : DecUnit) (x : Byte) : (d.pushByte x).scratch = d.scratch := rfl
@[simp] theorem DecUnit.out_pushByte (d : DecUnit) (x : Byte) : (d.pushByte x).out = d.out := rfl
@[simp] theorem DecUnit.resp_pushByte (d : DecUnit) (x : Byte) : (d.pushByte x).resp = d.resp := rfl
@[simp] theorem DecUnit.build_dropCode (d : DecUnit) : (d.dropCode).build = d.build := rfl
@[simp] theorem DecUnit.cfg_dropCode (d : DecUnit) : (d.dropCode).cfg = d.cfg := rfl
@[simp] theorem DecUnit.maxb_dropCode (d : DecUnit) : (d.dropCode).maxb = d.maxb := rfl
@[simp] theorem DecUnit.count_dropCode (d : DecUnit) : (d.dropCode).count = d.count := rfl
@[simp] theorem DecUnit.w_dropCode (d : DecUnit) : (d.dropCode).w = d.w := rfl
@[simp] theorem DecUnit.t_dropCode (d : DecUnit) : (d.dropCode).t = d.t := rfl
@[simp] theorem DecUnit.prev_dropCode (d : DecUnit) : (d.dropCode).prev = d.prev := rfl
@[simp] theorem DecUnit.prevv_dropCode (d : DecUnit) : (d.dropCode).prevv = d.prevv := rfl
@[simp] theorem DecUnit.pfirst_dropCode (d : DecUnit) : (d.dropCode).pfirst = d.pfirst := rfl
@[simp] theorem DecUnit.acc_dropCode (d : DecUnit) : (d.dropCode).acc = d.acc >>> d.w := rfl
@[simp] theorem DecUnit.nacc_dropCode (d : DecUnit) : (d.dropCode).nacc = d.nacc - d.w := rfl
@[simp] theorem DecUnit.st_dropCode (d : DecUnit) : (d.dropCode).st = d.st := rfl
@[simp] theorem DecUnit.err_dropCode (d : DecUnit) : (d.dropCode).err = d.err := rfl
@[simp] theorem DecUnit.info_dropCode (d : DecUnit) : (d.dropCode).info = d.info := rfl
@[simp] theorem DecUnit.pfx_dropCode (d : DecUnit) : (d.dropCode).pfx = d.pfx := rfl
@[simp] theorem DecUnit.bytev_dropCode (d : DecUnit) : (d.dropCode).bytev = d.bytev := rfl
@[simp] theorem DecUnit.scratch_dropCode (d : DecUnit) : (d.dropCode).scratch = d.scratch := rfl
@[simp] theorem DecUnit.out_dropCode (d : DecUnit) : (d.dropCode).out = d.out := rfl
@[simp] theorem DecUnit.resp_dropCode (d : DecUnit) : (d.dropCode).resp = d.resp := rfl
@[simp] theorem DecUnit.build_eos (d : DecUnit) : (d.eos).build = d.build := rfl
@[simp] theorem DecUnit.cfg_eos (d : DecUnit) : (d.eos).cfg = d.cfg := rfl
@[simp] theorem DecUnit.maxb_eos (d : DecUnit) : (d.eos).maxb = d.maxb := rfl
@[simp] theorem DecUnit.count_eos (d : DecUnit) : (d.eos).count = d.count := rfl
@[simp] theorem DecUnit.w_eos (d : DecUnit) : (d.eos).w = d.w := rfl
@[simp] theorem DecUnit.t_eos (d : DecUnit) : (d.eos).t = d.t := rfl
@[simp] theorem DecUnit.prev_eos (d : DecUnit) : (d.eos).prev = d.prev := rfl
@[simp] theorem DecUnit.prevv_eos (d : DecUnit) : (d.eos).prevv = d.prevv := rfl
@[simp] theorem DecUnit.pfirst_eos (d : DecUnit) : (d.eos).pfirst = d.pfirst := rfl
@[simp] theorem DecUnit.acc_eos (d : DecUnit) : (d.eos).acc = 0 := rfl
@[simp] theorem DecUnit.nacc_eos (d : DecUnit) : (d.eos).nacc = 0 := rfl
@[simp] theorem DecUnit.st_eos (d : DecUnit) : (d.eos).st = .done := rfl
@[simp] theorem DecUnit.err_eos (d : DecUnit) : (d.eos).err = d.err := rfl
@[simp] theorem DecUnit.info_eos (d : DecUnit) : (d.eos).info = d.info := rfl
@[simp] theorem DecUnit.pfx_eos (d : DecUnit) : (d.eos).pfx = d.pfx := rfl
@[simp] theorem DecUnit.bytev_eos (d : DecUnit) : (d.eos).bytev = d.bytev := rfl
@[simp] theorem DecUnit.scratch_eos (d : DecUnit) : (d.eos).scratch = d.scratch := rfl
@[simp] theorem DecUnit.out_eos (d : DecUnit) : (d.eos).out = d.out := rfl
@[simp] theorem DecUnit.resp_eos (d : DecUnit) : (d.eos).resp = d.resp := rfl

/-! ### `DecUnit.epochReset` -/

@[simp] theorem DecUnit.build_epochReset (d : DecUnit) : (d.epochReset).build = d.build := rfl
@[simp] theorem DecUnit.cfg_epochReset (d : DecUnit) : (d.epochReset).cfg = d.cfg := rfl
@[simp] theorem DecUnit.maxb_epochReset (d : DecUnit) : (d.epochReset).maxb = d.maxb := rfl
@[simp] theorem DecUnit.count_epochReset (d : DecUnit) : (d.epochReset).count = emptyCount d.maxb := rfl
@[simp] theorem DecUnit.w_epochReset (d : DecUnit) : (d.epochReset).w = startWidth d.maxb := rfl
@[simp] theorem DecUnit.t_epochReset (d : DecUnit) : (d.epochReset).t = 2 ^ startWidth d.maxb - 1 := rfl
@[simp] theorem DecUnit.prev_epochReset (d : DecUnit) : (d.epochReset).prev = d.prev := rfl
@[simp] theorem DecUnit.prevv_epochReset (d : DecUnit) : (d.epochReset).prevv = false := rfl
@[simp] theorem DecUnit.pfirst_epochReset (d : DecUnit) : (d.epochReset).pfirst = d.pfirst := rfl
@[simp] theorem DecUnit.acc_epochReset (d : DecUnit) : (d.epochReset).acc = d.acc := rfl
@[simp] theorem DecUnit.nacc_epochReset (d : DecUnit) : (d.epochReset).nacc = d.nacc := rfl
@[simp] theorem DecUnit.st_epochReset (d : DecUnit) : (d.epochReset).st = d.st := rfl
@[simp] theorem DecUnit.err_epochReset (d : DecUnit) : (d.epochReset).err = d.err := rfl
@[simp] theorem DecUnit.info_epochReset (d : DecUnit) : (d.epochReset).info = d.info := rfl
@[simp] theorem DecUnit.pfx_epochReset (d : DecUnit) : (d.epochReset).pfx = d.pfx := rfl
@[simp] theorem DecUnit.bytev_epochReset (d : DecUnit) : (d.epochReset).bytev = d.bytev := rfl
@[simp] theorem DecUnit.scratch_epochReset (d : DecUnit) : (d.epochReset).scratch = d.scratch := rfl
@[simp] theorem DecUnit.out_epochReset (d : DecUnit) : (d.epochReset).out = d.out := rfl
@[simp] theorem DecUnit.resp_epochReset (d : DecUnit) : (d.epochReset).resp = d.resp := rfl

/-! ### `DecUnit.malformed` -/

@[simp] theorem DecUnit.build_malformed (d : DecUnit) (c : Nat) : (d.malformed c).build = d.build := rfl
@[simp] theorem DecUnit.cfg_malformed (d : DecUnit) (c : Nat) : (d.malformed c).cfg = d.cfg := rfl
@[simp] theorem DecUnit.maxb_malformed (d : DecUnit) (c : Nat) : (d.malformed c).maxb = d.maxb := rfl
@[simp] theorem DecUnit.count_malformed (d : DecUnit) (c : Nat) : (d.malformed c).count = d.count := rfl
@[simp] theorem DecUnit.w_malformed (d : DecUnit) (c : Nat) : (d.malformed c).w = d.w := rfl
@[simp] theorem DecUnit.t_malformed (d : DecUnit) (c : Nat) : (d.malformed c).t = d.t := rfl
@[simp] theorem DecUnit.prev_malformed (d : DecUnit) (c : Nat) : (d.malformed c).prev = d.prev := rfl
@[simp] theorem DecUnit.prevv_malformed (d : DecUnit) (c : Nat) : (d.malformed c).prevv = d.prevv := rfl
@[simp] theorem DecUnit.pfirst_malformed (d : DecUnit) (c : Nat) : (d.malformed c).pfirst = d.pfirst := rfl
@[simp] theorem DecUnit.acc_malformed (d : DecUnit) (c : Nat) : (d.malformed c).acc = d.acc := rfl
@[simp] theorem DecUnit.nacc_malformed (d : DecUnit) (c : Nat) : (d.malformed c).nacc = d.nacc := rfl
@[simp] theorem DecUnit.st_malformed (d : DecUnit) (c : Nat) : (d.malformed c).st = .error := rfl
@[simp] theorem DecUnit.err_malformed (d : DecUnit) (c : Nat) : (d.malformed c).err = if d.count < c then eCodeRange else eSelfRefNoPrev := rfl
@[simp] theorem DecUnit.info_malformed (d : DecUnit) (c : Nat) : (d.malformed c).info = zext32 c := rfl
@[simp] theorem DecUnit.pfx_malformed (d : DecUnit) (c : Nat) : (d.malformed c).pfx = d.pfx := rfl
@[simp] theorem DecUnit.bytev_malformed (d : DecUnit) (c : Nat) : (d.malformed c).bytev = d.bytev := rfl
@[simp] theorem DecUnit.scratch_malformed (d : DecUnit) (c : Nat) : (d.malformed c).scratch = d.scratch := rfl
@[simp] theorem DecUnit.out_malformed (d : DecUnit) (c : Nat) : (d.malformed c).out = d.out := rfl
@[simp] theorem DecUnit.resp_malformed (d : DecUnit) (c : Nat) : (d.malformed c).resp = d.resp := rfl

/-! ### The core -/

@[simp] theorem State.enc_withEnc (s : State) (u : EncUnit) : (s.withEnc u).enc = u := rfl
@[simp] theorem State.dec_withEnc (s : State) (u : EncUnit) : (s.withEnc u).dec = s.dec := rfl
@[simp] theorem State.remap_withEnc (s : State) (u : EncUnit) : (s.withEnc u).remap = s.remap := rfl
@[simp] theorem State.host_withEnc (s : State) (u : EncUnit) : (s.withEnc u).host = s.host := rfl
@[simp] theorem State.enc_withDec (s : State) (d : DecUnit) : (s.withDec d).enc = s.enc := rfl
@[simp] theorem State.dec_withDec (s : State) (d : DecUnit) : (s.withDec d).dec = d := rfl
@[simp] theorem State.remap_withDec (s : State) (d : DecUnit) : (s.withDec d).remap = s.remap := rfl
@[simp] theorem State.host_withDec (s : State) (d : DecUnit) : (s.withDec d).host = s.host := rfl
@[simp] theorem State.enc_writeRemap (s : State) (i v : Byte) : (s.writeRemap i v).enc = s.enc := rfl
@[simp] theorem State.dec_writeRemap (s : State) (i v : Byte) : (s.writeRemap i v).dec = s.dec := rfl
@[simp] theorem State.remap_writeRemap (s : State) (i v : Byte) : (s.writeRemap i v).remap = Memory.write unlistedByte s.remap i.toNat v := rfl
@[simp] theorem State.host_writeRemap (s : State) (i v : Byte) : (s.writeRemap i v).host = s.host := rfl
@[simp] theorem State.enc_issueFirst (s : State) (p : Port) (w : CmdWord) : (s.issueFirst p w).enc = s.enc := rfl
@[simp] theorem State.dec_issueFirst (s : State) (p : Port) (w : CmdWord) : (s.issueFirst p w).dec = s.dec := rfl
@[simp] theorem State.remap_issueFirst (s : State) (p : Port) (w : CmdWord) : (s.issueFirst p w).remap = s.remap := rfl
@[simp] theorem State.host_issueFirst (s : State) (p : Port) (w : CmdWord) : (s.issueFirst p w).host = .command p w :: s.host := rfl

/-! ### `EncUnit.dictReset`, `epochReset` -/

@[simp] theorem EncUnit.build_dictReset (u : EncUnit) : u.dictReset.build = u.build := by
  unfold EncUnit.dictReset; split <;> rfl
@[simp] theorem EncUnit.cfg_dictReset (u : EncUnit) : u.dictReset.cfg = u.cfg := by
  unfold EncUnit.dictReset; split <;> rfl
@[simp] theorem EncUnit.maxb_dictReset (u : EncUnit) : u.dictReset.maxb = u.maxb := by
  unfold EncUnit.dictReset; split <;> rfl
@[simp] theorem EncUnit.idx_dictReset (u : EncUnit) : u.dictReset.idx = u.idx := by
  unfold EncUnit.dictReset; split <;> rfl
@[simp] theorem EncUnit.idxv_dictReset (u : EncUnit) : u.dictReset.idxv = u.idxv := by
  unfold EncUnit.dictReset; split <;> rfl
@[simp] theorem EncUnit.w_dictReset (u : EncUnit) : u.dictReset.w = u.w := by
  unfold EncUnit.dictReset; split <;> rfl
@[simp] theorem EncUnit.t_dictReset (u : EncUnit) : u.dictReset.t = u.t := by
  unfold EncUnit.dictReset; split <;> rfl
@[simp] theorem EncUnit.cur_dictReset (u : EncUnit) : u.dictReset.cur = u.cur := by
  unfold EncUnit.dictReset; split <;> rfl
@[simp] theorem EncUnit.off_dictReset (u : EncUnit) : u.dictReset.off = u.off := by
  unfold EncUnit.dictReset; split <;> rfl
@[simp] theorem EncUnit.pos_dictReset (u : EncUnit) : u.dictReset.pos = u.pos := by
  unfold EncUnit.dictReset; split <;> rfl
@[simp] theorem EncUnit.stage_dictReset (u : EncUnit) : u.dictReset.stage = u.stage := by
  unfold EncUnit.dictReset; split <;> rfl
@[simp] theorem EncUnit.bytev_dictReset (u : EncUnit) : u.dictReset.bytev = u.bytev := by
  unfold EncUnit.dictReset; split <;> rfl
@[simp] theorem EncUnit.sib_dictReset (u : EncUnit) : u.dictReset.sib = u.sib := by
  unfold EncUnit.dictReset; split <;> rfl
@[simp] theorem EncUnit.nxt_dictReset (u : EncUnit) : u.dictReset.nxt = u.nxt := by
  unfold EncUnit.dictReset; split <;> rfl
@[simp] theorem EncUnit.out_dictReset (u : EncUnit) : u.dictReset.out = u.out := by
  unfold EncUnit.dictReset; split <;> rfl
@[simp] theorem EncUnit.resp_dictReset (u : EncUnit) : u.dictReset.resp = u.resp := by
  unfold EncUnit.dictReset; split <;> rfl
@[simp] theorem EncUnit.count_dictReset (u : EncUnit) : u.dictReset.count = emptyCount u.maxb := by
  unfold EncUnit.dictReset; split <;> rfl
@[simp] theorem EncUnit.build_epochReset (u : EncUnit) : u.epochReset.build = u.build := by
  simp [EncUnit.epochReset]
@[simp] theorem EncUnit.cfg_epochReset (u : EncUnit) : u.epochReset.cfg = u.cfg := by
  simp [EncUnit.epochReset]
@[simp] theorem EncUnit.maxb_epochReset (u : EncUnit) : u.epochReset.maxb = u.maxb := by
  simp [EncUnit.epochReset]
@[simp] theorem EncUnit.count_epochReset (u : EncUnit) : u.epochReset.count = emptyCount u.maxb := by
  simp [EncUnit.epochReset]
@[simp] theorem EncUnit.idx_epochReset (u : EncUnit) : u.epochReset.idx = u.idx := by
  simp [EncUnit.epochReset]
@[simp] theorem EncUnit.idxv_epochReset (u : EncUnit) : u.epochReset.idxv = false := by
  simp [EncUnit.epochReset]
@[simp] theorem EncUnit.w_epochReset (u : EncUnit) : u.epochReset.w = startWidth u.maxb := by
  simp [EncUnit.epochReset]
@[simp] theorem EncUnit.t_epochReset (u : EncUnit) : u.epochReset.t = 2 ^ startWidth u.maxb := by
  simp [EncUnit.epochReset]
@[simp] theorem EncUnit.cur_epochReset (u : EncUnit) : u.epochReset.cur = u.cur := by
  simp [EncUnit.epochReset]
@[simp] theorem EncUnit.off_epochReset (u : EncUnit) : u.epochReset.off = u.off := by
  simp [EncUnit.epochReset]
@[simp] theorem EncUnit.pos_epochReset (u : EncUnit) : u.epochReset.pos = u.pos := by
  simp [EncUnit.epochReset]
@[simp] theorem EncUnit.stage_epochReset (u : EncUnit) : u.epochReset.stage = u.stage := by
  simp [EncUnit.epochReset]
@[simp] theorem EncUnit.bytev_epochReset (u : EncUnit) : u.epochReset.bytev = u.bytev := by
  simp [EncUnit.epochReset]
@[simp] theorem EncUnit.sib_epochReset (u : EncUnit) : u.epochReset.sib = u.sib := by
  simp [EncUnit.epochReset]
@[simp] theorem EncUnit.nxt_epochReset (u : EncUnit) : u.epochReset.nxt = u.nxt := by
  simp [EncUnit.epochReset]
@[simp] theorem EncUnit.out_epochReset (u : EncUnit) : u.epochReset.out = u.out := by
  simp [EncUnit.epochReset]
@[simp] theorem EncUnit.resp_epochReset (u : EncUnit) : u.epochReset.resp = u.resp := by
  simp [EncUnit.epochReset]

end Sys2Proof.Machine
end

