-- ==== Sys2Proof/Laws/Decoder.lean ====
section
/-! SUPPORT. What the decoder's shared operations can do: their results where they answer, and what they leave alone. -/

namespace Sys2Proof.Machine

/-! ### String reconstruction -/

theorem DecUnit.writeScratch_eq_ok {d d' : DecUnit} {n : Nat} {y : Byte} :
    d.writeScratch n y = .ok d' ↔ n < d.build.cap - literalCount d.maxb ∧
      d' = { d with scratch := Memory.write unlistedByte d.scratch n y } := by
  unfold DecUnit.writeScratch
  by_cases h : n < d.build.cap - literalCount d.maxb
  · rw [memWrite_ok ⟨Nat.zero_le _, h⟩]
    simp only [bind, Except.bind, pure, Except.pure, Except.ok.injEq, h, true_and]
    exact eq_comm
  · simp [memWrite, h, bind, Except.bind]

/-- The result is the old unit with only the scratch buffer changed. -/
def ScratchFrame (d d' : DecUnit) : Prop := d' = { d with scratch := d'.scratch }

theorem ScratchFrame.refl (d : DecUnit) : ScratchFrame d d := rfl

theorem ScratchFrame.trans {d e f : DecUnit} (h : ScratchFrame d e) (h' : ScratchFrame e f) :
    ScratchFrame d f := by
  unfold ScratchFrame at *
  rw [h', h]

theorem DecUnit.writeScratch_frame {d d' : DecUnit} {n : Nat} {y : Byte}
    (h : d.writeScratch n y = .ok d') : ScratchFrame d d' := by
  obtain ⟨_, rfl⟩ := DecUnit.writeScratch_eq_ok.mp h
  rfl

/-- The walk of `String` writes nothing but the scratch buffer (R173). -/
theorem DecUnit.walk_frame : ∀ (k : Nat) {d d' : DecUnit} {n x n' : Nat},
    d.walk k n x = .ok (n', d') → ScratchFrame d d'
  | 0, _, _, _, _, _, h => by cases h
  | k + 1, d, d', n, x, n', h => by
    simp only [DecUnit.walk, bind, Except.bind, pure, Except.pure] at h
    split at h
    · split at h
      · cases h
      · split at h
        · cases h
        · rename_i e he
          split at h
          · cases h
          · exact (DecUnit.writeScratch_frame he).trans (DecUnit.walk_frame k h)
    · split at h
      · cases h
      · rename_i e he
        cases h
        exact DecUnit.writeScratch_frame he

theorem DecUnit.string_frame {d d' : DecUnit} {c : Nat} {s : List Byte}
    (h : d.string c = .ok (s, d')) : ScratchFrame d d' := by
  simp only [DecUnit.string, bind, Except.bind, pure, Except.pure] at h
  split at h
  · cases h
  · rename_i v hv
    cases h
    exact DecUnit.walk_frame _ hv

/-! ### The dictionary array -/

/-- Everything `DecAppend` can do (R172). -/
theorem DecUnit.append_eq_ok {d d' : DecUnit} {p : Nat} {y : Byte} :
    d.append p y = .ok d' ↔ (emptyCount d.maxb ≤ d.count ∧ d.count < d.build.cap) ∧
      d' = { d with
        pfx := Memory.write unlistedCode d.pfx d.count p
        bytev := Memory.write unlistedByte d.bytev d.count y
        count := d.count + 1 } := by
  unfold DecUnit.append
  by_cases h : emptyCount d.maxb ≤ d.count ∧ d.count < d.build.cap
  · simp only [memWrite_ok h, bind, Except.bind, pure, Except.pure, Except.ok.injEq, h, true_and]
    simp [eq_comm]
  · simp [memWrite, h, bind, Except.bind]

theorem DecUnit.appendPrev_eq_ok {d d' : DecUnit} {y : Byte} :
    d.appendPrev y = .ok d' ↔
      (d.prevv = true ∧ d.append d.prev y = .ok d') ∨ (d.prevv = false ∧ d' = d) := by
  unfold DecUnit.appendPrev
  cases d.prevv <;> simp [eq_comm]

/-! ### The growth and reset step -/

/-- Everything the step of R180 can do: an epoch reset, nothing, or one bit more of width. -/
theorem DecUnit.afterStep_cases (d : DecUnit) :
    (d.count = d.build.cap ∧ d.afterStep = d.epochReset) ∨
    (d.count ≠ d.build.cap ∧ d.count = d.build.cap - 1 ∧ d.afterStep = d) ∨
    (d.count ≠ d.build.cap ∧ d.count ≠ d.build.cap - 1 ∧ d.t ≤ d.count ∧
      d.afterStep = d.setWidth (d.w + 1)) ∨
    (d.count ≠ d.build.cap ∧ d.count ≠ d.build.cap - 1 ∧ d.count < d.t ∧ d.afterStep = d) := by
  unfold DecUnit.afterStep
  by_cases h1 : d.count = d.build.cap
  · exact .inl ⟨h1, if_pos h1⟩
  · by_cases h2 : d.count = d.build.cap - 1
    · exact .inr (.inl ⟨h1, h2, by rw [if_neg h1, if_pos h2]⟩)
    · by_cases h3 : d.t ≤ d.count
      · exact .inr (.inr (.inl ⟨h1, h2, h3, by rw [if_neg h1, if_neg h2, if_pos h3]⟩))
      · exact .inr (.inr (.inr ⟨h1, h2, by omega, by rw [if_neg h1, if_neg h2, if_neg h3]⟩))

/-- What no code changes: the build, `CFG`, `MAXB` and the responses. -/
def CodeFrame (d d' : DecUnit) : Prop :=
  d'.build = d.build ∧ d'.cfg = d.cfg ∧ d'.maxb = d.maxb ∧ d'.resp = d.resp

theorem CodeFrame.refl (d : DecUnit) : CodeFrame d d := ⟨rfl, rfl, rfl, rfl⟩

theorem CodeFrame.trans {d e f : DecUnit} (h : CodeFrame d e) (h' : CodeFrame e f) : CodeFrame d f :=
  ⟨h'.1.trans h.1, h'.2.1.trans h.2.1, h'.2.2.1.trans h.2.2.1, h'.2.2.2.trans h.2.2.2⟩

theorem ScratchFrame.code {d d' : DecUnit} (h : ScratchFrame d d') : CodeFrame d d' := by
  unfold ScratchFrame at h
  rw [h]
  exact CodeFrame.refl _

theorem DecUnit.append_code {d d' : DecUnit} {p : Nat} {y : Byte} (h : d.append p y = .ok d') :
    CodeFrame d d' := by
  obtain ⟨_, rfl⟩ := DecUnit.append_eq_ok.mp h
  exact CodeFrame.refl _

theorem DecUnit.afterStep_code (d : DecUnit) : CodeFrame d d.afterStep := by
  rcases d.afterStep_cases with ⟨_, h⟩ | ⟨_, _, h⟩ | ⟨_, _, _, h⟩ | ⟨_, _, _, h⟩ <;> rw [h] <;>
    simp [CodeFrame]

theorem DecUnit.output_code (d : DecUnit) (c : Nat) (s : List Byte) : CodeFrame d (d.output c s) := by
  have h := DecUnit.afterStep_code
    { d.deliver s with prev := c, prevv := true, pfirst := firstByte s }
  simpa [CodeFrame, DecUnit.output] using h

/-! ### One code, and the code loop -/

theorem DecUnit.existing_code {d d' : DecUnit} {c : Nat} (h : d.existing c = .ok d') :
    CodeFrame d d' := by
  simp only [DecUnit.existing, bind, Except.bind, pure, Except.pure] at h
  split at h
  · cases h
  · rename_i v hv
    split at h
    · cases h
    · rename_i e he
      cases h
      have hs := (DecUnit.string_frame hv).code
      rcases DecUnit.appendPrev_eq_ok.mp he with ⟨_, ha⟩ | ⟨_, rfl⟩
      · exact (hs.trans (DecUnit.append_code ha)).trans (DecUnit.output_code _ _ _)
      · exact hs.trans (DecUnit.output_code _ _ _)

theorem DecUnit.selfRef_code {d d' : DecUnit} {c : Nat} (h : d.selfRef c = .ok d') :
    CodeFrame d d' := by
  simp only [DecUnit.selfRef, bind, Except.bind, pure, Except.pure] at h
  split at h
  · cases h
  · rename_i e he
    split at h
    · cases h
    · rename_i v hv
      cases h
      exact ((DecUnit.append_code he).trans (DecUnit.string_frame hv).code).trans
        (DecUnit.output_code _ _ _)

/-- The cases of `DecodeIndex` (R176). -/
theorem DecUnit.decodeIndex_cases (d : DecUnit) (c : Nat) :
    (c = eosCode d.maxb ∧ d.decodeIndex c = .ok d.eos) ∨
    (c ≠ eosCode d.maxb ∧ c < d.count ∧ d.decodeIndex c = d.existing c) ∨
    (c ≠ eosCode d.maxb ∧ c = d.count ∧ d.prevv = true ∧ d.decodeIndex c = d.selfRef c) ∨
    (c ≠ eosCode d.maxb ∧ d.count ≤ c ∧ ¬(c = d.count ∧ d.prevv = true) ∧
      d.decodeIndex c = .ok (d.malformed c)) := by
  unfold DecUnit.decodeIndex
  by_cases h1 : c = eosCode d.maxb
  · exact .inl ⟨h1, if_pos h1⟩
  · by_cases h2 : c < d.count
    · exact .inr (.inl ⟨h1, h2, by rw [if_neg h1, if_pos h2]⟩)
    · by_cases h3 : c = d.count ∧ d.prevv = true
      · exact .inr (.inr (.inl ⟨h1, h3.1, h3.2, by rw [if_neg h1, if_neg h2, if_pos h3]⟩))
      · exact .inr (.inr (.inr ⟨h1, by omega, h3, by rw [if_neg h1, if_neg h2, if_neg h3]⟩))

theorem DecUnit.decodeIndex_code {d d' : DecUnit} {c : Nat} (h : d.decodeIndex c = .ok d') :
    CodeFrame d d' := by
  rcases d.decodeIndex_cases c with ⟨_, e⟩ | ⟨_, _, e⟩ | ⟨_, _, _, e⟩ | ⟨_, _, _, e⟩ <;>
    rw [e] at h
  · cases h
    exact CodeFrame.refl _
  · exact DecUnit.existing_code h
  · exact DecUnit.selfRef_code h
  · cases h
    exact CodeFrame.refl _

/-- The code loop changes neither the build, `CFG`, `MAXB` nor the responses (R182). -/
theorem DecUnit.codeLoop_code : ∀ (k : Nat) {d d' : DecUnit}, d.codeLoop k = .ok d' → CodeFrame d d'
  | 0, d, d', h => by
    simp only [DecUnit.codeLoop] at h
    split at h
    · cases h
    · cases h
      exact CodeFrame.refl _
  | k + 1, d, d', h => by
    simp only [DecUnit.codeLoop, bind, Except.bind] at h
    split at h
    · split at h
      · cases h
      · rename_i e he
        have h1 := DecUnit.decodeIndex_code he
        exact CodeFrame.trans (d := d) h1 (DecUnit.codeLoop_code k h)
    · cases h
      exact CodeFrame.refl _

end Sys2Proof.Machine
end

