-- ==== Sys2Proof/Laws/Encoder.lean ====
section
/-! SUPPORT. What the encoder's shared operations can do: their results where they answer, and what they leave alone. A frame
is one equation: the result is the old unit with only the named fields replaced. -/

namespace Sys2Proof.Machine

/-! ### The bit packer -/

/-- Everything committing a byte can do. -/
theorem EncUnit.commitByte_eq_ok {u u' : EncUnit} :
    u.commitByte = .ok u' ↔ u.pos < u.build.stageBytes ∧
      u' = { u with
        stage := Memory.write unlistedByte u.stage u.pos u.cur
        pos := u.pos + 1
        cur := 0#8
        off := 0 } := by
  unfold EncUnit.commitByte
  by_cases h : u.pos < u.build.stageBytes
  · rw [memWrite_ok ⟨Nat.zero_le _, h⟩]
    simp only [bind, Except.bind, pure, Except.pure, Except.ok.injEq, h, true_and]
    exact eq_comm
  · simp [memWrite, h, bind, Except.bind]

theorem EncUnit.flushFull_frame (u : EncUnit) :
    u.flushFull = { u with pos := u.flushFull.pos, out := u.flushFull.out } := by
  unfold EncUnit.flushFull
  split <;> rfl

/-- The unit with one more bit in the byte being filled, before a full byte is committed. -/
def EncUnit.addBit (u : EncUnit) (bit : Bool) : EncUnit :=
  { u with cur := u.cur ||| BitVec.ofNat 8 (bit.toNat <<< u.off), off := u.off + 1 }

/-- Everything one turn of `EMIT` can do: the byte is not full yet, or it is committed and the buffer delivered if that
filled it. -/
theorem EncUnit.emitBit_eq_ok {u u' : EncUnit} {bit : Bool} :
    u.emitBit bit = .ok u' ↔
      (u.off ≠ 7 ∧ u' = u.addBit bit) ∨
      (u.off = 7 ∧ ∃ v, (u.addBit bit).commitByte = .ok v ∧ u' = v.flushFull) := by
  unfold EncUnit.emitBit
  by_cases h : u.off = 7
  · simp only [h, ne_eq, not_true_eq_false, false_and, true_and, false_or, if_true, bind,
      Except.bind, pure, Except.pure]
    have e : ({ u with cur := u.cur ||| BitVec.ofNat 8 (bit.toNat <<< 7), off := 7 + 1 } : EncUnit)
        = u.addBit bit := by simp [EncUnit.addBit, h]
    rw [e]
    cases hc : (u.addBit bit).commitByte with
    | error f => simp
    | ok v =>
      simp only [Except.ok.injEq]
      constructor
      · rintro rfl
        exact ⟨v, rfl, rfl⟩
      · rintro ⟨_, rfl, rfl⟩
        rfl
  · have h8 : ¬ u.off + 1 = 8 := by omega
    simp only [h, h8, if_false, Except.ok.injEq, ne_eq, not_false_eq_true, true_and, false_and,
      or_false]
    exact eq_comm

/-- The result is the old unit with only the bit packer's cursor, buffer and deliveries changed. -/
def PackerFrame (u u' : EncUnit) : Prop :=
  u' = { u with
    cur := u'.cur, off := u'.off, pos := u'.pos, stage := u'.stage, out := u'.out }

theorem PackerFrame.refl (u : EncUnit) : PackerFrame u u := rfl

theorem PackerFrame.trans {u v x : EncUnit} (h : PackerFrame u v) (h' : PackerFrame v x) :
    PackerFrame u x := by
  unfold PackerFrame at *
  rw [h', h]

theorem EncUnit.commitByte_frame {u u' : EncUnit} (h : u.commitByte = .ok u') : PackerFrame u u' := by
  obtain ⟨_, rfl⟩ := EncUnit.commitByte_eq_ok.mp h
  rfl

theorem EncUnit.emitBit_frame {u u' : EncUnit} {bit : Bool} (h : u.emitBit bit = .ok u') :
    PackerFrame u u' := by
  rcases EncUnit.emitBit_eq_ok.mp h with ⟨_, rfl⟩ | ⟨_, v, hv, rfl⟩
  · rfl
  · have hv := EncUnit.commitByte_frame hv
    have hf := EncUnit.flushFull_frame v
    have ha : PackerFrame u (u.addBit bit) := rfl
    exact (ha.trans hv).trans (by unfold PackerFrame; rw [hf])

/-- `EMIT` changes nothing but the bit packer (R140). -/
theorem EncUnit.emitBits_frame : ∀ (bits : List Bool) {u u' : EncUnit},
    u.emitBits bits = .ok u' → PackerFrame u u'
  | [], u, u', h => by
    simp only [EncUnit.emitBits, Except.ok.injEq] at h
    subst h
    exact PackerFrame.refl u
  | bit :: bits, u, u', h => by
    simp only [EncUnit.emitBits, bind, Except.bind] at h
    split at h
    · cases h
    · rename_i v hv
      exact (EncUnit.emitBit_frame hv).trans (EncUnit.emitBits_frame bits h)

theorem EncUnit.emit_frame {u u' : EncUnit} {v w : Nat} (h : u.emit v w = .ok u') : PackerFrame u u' :=
  EncUnit.emitBits_frame _ h

/-- Emitting a sequence of bits in two parts. -/
theorem EncUnit.emitBits_append (a b : List Bool) (u : EncUnit) :
    u.emitBits (a ++ b) = (u.emitBits a).bind fun v => v.emitBits b := by
  induction a generalizing u with
  | nil => rfl
  | cons x a ih =>
    simp only [List.cons_append, EncUnit.emitBits, bind, Except.bind]
    cases u.emitBit x with
    | error f => rfl
    | ok v => exact ih v

/-! ### The dictionary -/

/-- The result is the old unit with only the dictionary's count and storage changed. -/
def DictFrame (u u' : EncUnit) : Prop :=
  u' = { u with
    count := u'.count, bytev := u'.bytev, first := u'.first, sib := u'.sib
    root := u'.root, nxt := u'.nxt }

theorem DictFrame.refl (u : EncUnit) : DictFrame u u := rfl

theorem DictFrame.trans {u v x : EncUnit} (h : DictFrame u v) (h' : DictFrame v x) :
    DictFrame u x := by
  unfold DictFrame at *
  rw [h', h]

theorem EncUnit.writeBytev_eq_ok {u u' : EncUnit} {c : Nat} {y : Byte} :
    u.writeBytev c y = .ok u' ↔ c < u.build.cap ∧
      u' = { u with bytev := Memory.write unlistedByte u.bytev c y } := by
  unfold EncUnit.writeBytev
  by_cases h : c < u.build.cap
  · rw [memWrite_ok ⟨Nat.zero_le _, h⟩]
    simp only [bind, Except.bind, pure, Except.pure, Except.ok.injEq, h, true_and]
    exact eq_comm
  · simp [memWrite, h, bind, Except.bind]

theorem EncUnit.writeFirst_eq_ok {u u' : EncUnit} {c : Nat} {e : Option Nat} :
    u.writeFirst c e = .ok u' ↔ c < u.build.cap ∧
      u' = { u with first := Memory.write unlistedLink u.first c e } := by
  unfold EncUnit.writeFirst
  by_cases h : c < u.build.cap
  · rw [memWrite_ok ⟨Nat.zero_le _, h⟩]
    simp only [bind, Except.bind, pure, Except.pure, Except.ok.injEq, h, true_and]
    exact eq_comm
  · simp [memWrite, h, bind, Except.bind]

theorem EncUnit.writeSib_eq_ok {u u' : EncUnit} {c : Nat} {e : Option Nat} :
    u.writeSib c e = .ok u' ↔ c < u.build.cap ∧
      u' = { u with sib := Memory.write unlistedLink u.sib c e } := by
  unfold EncUnit.writeSib
  by_cases h : c < u.build.cap
  · rw [memWrite_ok ⟨Nat.zero_le _, h⟩]
    simp only [bind, Except.bind, pure, Except.pure, Except.ok.injEq, h, true_and]
    exact eq_comm
  · simp [memWrite, h, bind, Except.bind]

theorem EncUnit.writeSlot_root_eq_ok {u u' : EncUnit} {c : Nat} {b : Bool} {e : Option Nat} :
    u.writeSlot (.root c b) e = .ok u' ↔ slotIndex c b < 2 * u.build.cap ∧
      u' = { u with root := Memory.write unlistedLink u.root (slotIndex c b) e } := by
  simp only [EncUnit.writeSlot]
  by_cases h : slotIndex c b < 2 * u.build.cap
  · rw [memWrite_ok ⟨Nat.zero_le _, h⟩]
    simp only [bind, Except.bind, pure, Except.pure, Except.ok.injEq, h, true_and]
    exact eq_comm
  · simp [memWrite, h, bind, Except.bind]

theorem EncUnit.writeSlot_nxt_eq_ok {u u' : EncUnit} {c : Nat} {b : Bool} {e : Option Nat} :
    u.writeSlot (.nxt c b) e = .ok u' ↔ slotIndex c b < 2 * u.build.cap ∧
      u' = { u with nxt := Memory.write unlistedLink u.nxt (slotIndex c b) e } := by
  simp only [EncUnit.writeSlot]
  by_cases h : slotIndex c b < 2 * u.build.cap
  · rw [memWrite_ok ⟨Nat.zero_le _, h⟩]
    simp only [bind, Except.bind, pure, Except.pure, Except.ok.injEq, h, true_and]
    exact eq_comm
  · simp [memWrite, h, bind, Except.bind]

theorem EncUnit.writeSlot_frame {u u' : EncUnit} {s : Slot} {e : Option Nat}
    (h : u.writeSlot s e = .ok u') : DictFrame u u' := by
  cases s with
  | root c b => obtain ⟨_, rfl⟩ := EncUnit.writeSlot_root_eq_ok.mp h; rfl
  | nxt c b => obtain ⟨_, rfl⟩ := EncUnit.writeSlot_nxt_eq_ok.mp h; rfl

/-- What inserting into LIST storage leaves alone; the new count (R120). -/
theorem EncUnit.listInsert_frame {u u' : EncUnit} {p : Nat} {b : Byte}
    (h : u.listInsert p b = .ok u') : DictFrame u u' ∧ u'.count = u.count + 1 := by
  simp only [EncUnit.listInsert, bind, Except.bind, pure, Except.pure] at h
  repeat' split at h
  all_goals cases h
  rename_i v1 h1 _ v2 h2 _ _ _ _ v3 h3 _ v4 h4
  obtain ⟨_, rfl⟩ := EncUnit.writeBytev_eq_ok.mp h1
  obtain ⟨_, rfl⟩ := EncUnit.writeFirst_eq_ok.mp h2
  obtain ⟨_, rfl⟩ := EncUnit.writeSib_eq_ok.mp h3
  obtain ⟨_, rfl⟩ := EncUnit.writeFirst_eq_ok.mp h4
  exact ⟨rfl, rfl⟩

/-- What inserting into TRIE storage leaves alone; the new count (R124). -/
theorem EncUnit.trieInsert_frame {u u' : EncUnit} {b : Byte} {slot : Slot}
    (h : u.trieInsert b slot = .ok u') : DictFrame u u' ∧ u'.count = u.count + 1 := by
  simp only [EncUnit.trieInsert, bind, Except.bind, pure, Except.pure] at h
  repeat' split at h
  all_goals cases h
  rename_i v1 h1 _ v2 h2 _ v3 h3 _ v4 h4 _ v5 h5 _ v6 h6
  obtain ⟨_, rfl⟩ := EncUnit.writeBytev_eq_ok.mp h1
  have f6 := (EncUnit.writeSlot_frame h2).trans ((EncUnit.writeSlot_frame h3).trans
    ((EncUnit.writeSlot_frame h4).trans ((EncUnit.writeSlot_frame h5).trans
      (EncUnit.writeSlot_frame h6))))
  refine ⟨?_, rfl⟩
  unfold DictFrame at f6 ⊢
  rw [f6]

/-- Everything `DictAdd` can do to the unit (R112, R116): a child found changes nothing; otherwise the count goes up by one
and only the dictionary's storage changes with it. -/
theorem EncUnit.dictAdd_frame {u u' : EncUnit} {p : Option Nat} {b : Byte} {r : DictResult}
    (h : u.dictAdd p b = .ok (r, u')) :
    (u' = u ∧ ∃ c, r = .found c) ∨ (r = .notFound ∧ DictFrame u u' ∧ u'.count = u.count + 1) := by
  unfold EncUnit.dictAdd at h
  cases p with
  | none =>
    simp only [Except.ok.injEq, Prod.mk.injEq] at h
    exact .inl ⟨h.2.symm, _, h.1.symm⟩
  | some p =>
    simp only [bind, Except.bind, pure, Except.pure] at h
    repeat' split at h
    all_goals cases h
    · exact .inl ⟨rfl, _, rfl⟩
    · rename_i hi
      exact .inr ⟨rfl, EncUnit.listInsert_frame hi⟩
    · exact .inl ⟨rfl, _, rfl⟩
    · rename_i hi
      exact .inr ⟨rfl, EncUnit.trieInsert_frame hi⟩

/-- With no match, `DictAdd` finds the literal and inserts nothing (R112). -/
@[simp] theorem EncUnit.dictAdd_none (u : EncUnit) (b : Byte) :
    u.dictAdd none b = .ok (.found b.toNat, u) := rfl

/-! ### Commands -/

/-- The result is the old unit in everything the encoder's BYTE and FINAL commands never write: the build, `CFG` and
`MAXB`. -/
def StreamFrame (u u' : EncUnit) : Prop := u'.build = u.build ∧ u'.cfg = u.cfg ∧ u'.maxb = u.maxb

theorem StreamFrame.trans {u v x : EncUnit} (h : StreamFrame u v) (h' : StreamFrame v x) :
    StreamFrame u x :=
  ⟨h'.1.trans h.1, h'.2.1.trans h.2.1, h'.2.2.trans h.2.2⟩

theorem PackerFrame.stream {u u' : EncUnit} (h : PackerFrame u u') : StreamFrame u u' := by
  unfold PackerFrame at h
  rw [h]
  exact ⟨rfl, rfl, rfl⟩

theorem DictFrame.stream {u u' : EncUnit} (h : DictFrame u u') : StreamFrame u u' := by
  unfold DictFrame at h
  rw [h]
  exact ⟨rfl, rfl, rfl⟩

theorem EncUnit.epochReset_stream (u : EncUnit) : StreamFrame u u.epochReset := by
  simp [StreamFrame]

end Sys2Proof.Machine
end

