-- ==== Sys2Proof/Laws/Operands.lean ====
section
/-! SUPPORT. `clog2` and the quantities derived from `MAXB` and `C` (R8). -/

namespace Sys2Proof.Machine

/-- `clog2(n)` is the smallest `w` with `n <= 2^w` (R8). -/
theorem clog2_le_iff (n w : Nat) : clog2 n ≤ w ↔ n ≤ 2 ^ w := by
  have hw : 1 ≤ 2 ^ w := Nat.one_le_two_pow
  unfold clog2
  split
  · constructor <;> intro _ <;> omega
  · rename_i h
    have hn : n - 1 ≠ 0 := by omega
    have := Nat.log2_lt (k := w) hn
    omega

theorem le_two_pow_clog2 (n : Nat) : n ≤ 2 ^ clog2 n := (clog2_le_iff n _).mp (Nat.le_refl _)

theorem clog2_mono {m n : Nat} (h : m ≤ n) : clog2 m ≤ clog2 n :=
  (clog2_le_iff m _).mpr (Nat.le_trans h (le_two_pow_clog2 n))

/-- Growth stays below `WMAX`: the bound behind R149 and R189. -/
theorem lt_clog2 {n w : Nat} (h : 2 ^ w < n) : w < clog2 n := by
  by_contra hc
  have := (clog2_le_iff n w).mp (by omega)
  omega

/-- `N0 <= 2^W0` (R150). -/
theorem emptyCount_le_two_pow (m : Byte) : emptyCount m ≤ 2 ^ startWidth m := by
  simpa [startWidth, literalCount, emptyCount] using le_two_pow_clog2 (m.toNat + 2)

/-- `W0` is at least 1 (R8). -/
theorem startWidth_pos (m : Byte) : 1 ≤ startWidth m := by
  by_contra hc
  have h := emptyCount_le_two_pow m
  have h0 : startWidth m = 0 := by omega
  rw [h0] at h
  simp [emptyCount] at h

/-- `W0` is at most 9 (R8). -/
theorem startWidth_le (m : Byte) : startWidth m ≤ 9 := by
  have := m.isLt
  exact (clog2_le_iff _ _).mpr (by simp [literalCount]; omega)

/-- In a valid configuration `W0 <= WMAX`. -/
theorem startWidth_le_maxWidth {cap : Nat} {m : Byte} (h : m.toNat + 3 ≤ cap) :
    startWidth m ≤ maxWidth cap := clog2_mono (by simp [literalCount]; omega)

/-- `WMAX` is in `2..32` (R8). -/
theorem maxWidth_range {cap : Nat} (h : capacityWf cap = true) : 2 ≤ maxWidth cap ∧ maxWidth cap ≤ 32 := by
  simp only [capacityWf, decide_eq_true_eq] at h
  refine ⟨?_, (clog2_le_iff _ _).mpr h.2⟩
  exact lt_clog2 (w := 1) (by omega)

theorem configValid_iff {cap : Nat} {m : Byte} : configValid cap m = true ↔ m.toNat + 3 ≤ cap := by
  simp [configValid]

end Sys2Proof.Machine
end

