-- ==== Sys2Proof/Laws/PerInstr.lean ====
section
/-! SUPPORT. Per-instruction laws about the instructions as syntax: each command's word belongs to its own row of the opcode
table and to no other. -/

namespace Sys2Proof.Laws.TableRow

open Sys2Proof

/-- The rows of the opcode table that cover the command's word are those of its mnemonic (opcode_table.json). -/
def Statement (i : Instr) : Prop :=
  ∀ r ∈ opcodeTable, (r.covers (encode i) = true ↔ r.mnemonic = i.mnemonic)

theorem encInit (m : Byte) : Statement (.encInit m) := by
  unfold Statement; revert m; decide

theorem encByte (b : Byte) : Statement (.encByte b) := by
  unfold Statement; revert b; decide

theorem encByteRemap (d : Byte) : Statement (.encByteRemap d) := by
  unfold Statement; revert d; decide

theorem encFinal : Statement .encFinal := by
  unfold Statement; decide

theorem decInit (m : Byte) : Statement (.decInit m) := by
  unfold Statement; revert m; decide

theorem decByte (x : Byte) : Statement (.decByte x) := by
  unfold Statement; revert x; decide

end Sys2Proof.Laws.TableRow
end

