-- ==== Sys2Proof/Laws/Step.lean ====
section
/-! SUPPORT. What a step of the core can do: which unit a command touches, and the cases of `step`. -/

namespace Sys2Proof.Machine

theorem State.onEnc_eq_next {s t : State} {r : Except Fault EncUnit} :
    s.onEnc r = .next t ↔ ∃ u, r = .ok u ∧ t = s.withEnc u := by
  cases r <;> simp [State.onEnc, eq_comm]

theorem State.onDec_eq_next {s t : State} {r : Except Fault DecUnit} :
    s.onDec r = .next t ↔ ∃ d, r = .ok d ∧ t = s.withDec d := by
  cases r <;> simp [State.onDec, eq_comm]

/-- A command of the encoder as a function of the encoder unit and the host's table (R227). -/
def encResult (i : Instr) (s : State) : Except Fault EncUnit :=
  match i with
  | .encInit m => .ok (s.enc.init m)
  | .encByte b => s.enc.byte b
  | .encByteRemap d => s.enc.byteRemap d (s.remapEntry d)
  | .encFinal => s.enc.final
  | .decInit _ => .ok s.enc
  | .decByte _ => .ok s.enc

/-- Everything an encoder command can do to the core: it replaces the encoder unit (R227). -/
theorem exec_enc {i : Instr} (h : i.port = .enc) (s : State) : exec i s = s.onEnc (encResult i s) := by
  cases i <;> first | rfl | cases h

/-- A command of the decoder as a function of the decoder unit (R227). -/
def decResult (i : Instr) (s : State) : Except Fault DecUnit :=
  match i with
  | .decInit m => .ok (s.dec.init m)
  | .decByte x => s.dec.byte x
  | .encInit _ => .ok s.dec
  | .encByte _ => .ok s.dec
  | .encByteRemap _ => .ok s.dec
  | .encFinal => .ok s.dec

/-- Everything a decoder command can do to the core: it replaces the decoder unit (R227). -/
theorem exec_dec {i : Instr} (h : i.port = .dec) (s : State) : exec i s = s.onDec (decResult i s) := by
  cases i <;> first | rfl | cases h

/-- Everything a step can do: nothing is pending; the host changes its table or pulses a reset input; an illegal word is
answered; or a legal command runs. -/
theorem step_cases (s : State) :
    (s.host = [] ∧ step s = .next s) ∨
    (∃ rest i v, s.host = .remapWrite i v :: rest ∧
      step s = .next (({ s with host := rest }).writeRemap i v)) ∨
    (∃ rest p, s.host = .resetPulse p :: rest ∧
      step s = .next (({ s with host := rest }).resetUnit p)) ∨
    (∃ rest p w r, s.host = .command p w :: rest ∧ decode p w = .error r ∧
      step s = .next (({ s with host := rest }).raiseIllegal p w)) ∨
    (∃ rest p w i, s.host = .command p w :: rest ∧ decode p w = .ok i ∧
      step s = exec i { s with host := rest }) := by
  cases h : s.host with
  | nil => exact .inl ⟨rfl, by simp [step, fetch, h]⟩
  | cons e rest =>
    cases e with
    | remapWrite i v =>
      exact .inr (.inl ⟨rest, i, v, rfl, by simp [step, fetch, h, State.takeEvent]⟩)
    | resetPulse p =>
      exact .inr (.inr (.inl ⟨rest, p, rfl, by simp [step, fetch, h, State.takeEvent]⟩))
    | command p w =>
      cases hd : decode p w with
      | error r =>
        exact .inr (.inr (.inr (.inl ⟨rest, p, w, r, rfl, hd, by
          simp [step, fetch, h, State.takeEvent, State.receive, hd]⟩)))
      | ok i =>
        exact .inr (.inr (.inr (.inr ⟨rest, p, w, i, rfl, hd, by
          simp [step, fetch, h, State.takeEvent, State.receive, hd]⟩)))

end Sys2Proof.Machine
end

