-- ==== Sys2Proof/Tests/Slice0.lean ====
section
/-! SUPPORT. Tests of the model on values taken from the spec (the section is named at each), a refused term for each check
of WellFormed, and a state that meets the hypotheses of each statement. -/

namespace Sys2Proof.Tests

open Sys2Proof Sys2Proof.Machine

/-! ### WellFormed: each check refuses an ill-formed term -/

theorem test_wf_capacity_too_small : capacityWf 2 = false := by decide
theorem test_wf_capacity_too_large : capacityWf (2 ^ 32 + 1) = false := by decide
theorem test_wf_stage_too_small : EncBuild.wf ⟨70000, 2, .list⟩ = false := by decide
theorem test_wf_enc_build : EncBuild.wf ⟨70000, 3, .trie⟩ = true := by decide
theorem test_wf_dec_build_refused : DecBuild.wf ⟨0⟩ = false := by decide
theorem test_wf_word_wrong_unit : CmdWord.wf .enc 0x8005#16 = false := by decide
theorem test_wf_word_reserved : CmdWord.wf .dec 0x9106#16 = false := by decide
theorem test_wf_word_op_enc : CmdWord.wf .enc 0x4000#16 = false := by decide
theorem test_wf_word_op_dec : CmdWord.wf .dec 0xA000#16 = false := by decide
theorem test_wf_word_final_data : CmdWord.wf .enc 0x3001#16 = false := by decide
theorem test_wf_word_legal : CmdWord.wf .enc 0x20C8#16 = true := by decide
theorem test_wf_line_operand_too_large : AsmLine.wf ⟨.encByte, some 256⟩ = false := by decide
theorem test_wf_line_operand_missing : AsmLine.wf ⟨.decInit, none⟩ = false := by decide
theorem test_wf_line_final_operand : AsmLine.wf ⟨.encFinal, some 0⟩ = false := by decide

/-! ### Decoding: a word of every command, written out from R81 and R82 (95_test_vectors.md, section 3.1) -/

theorem test_decode_encInit : decode .enc 0b0000000011111111#16 = .ok (.encInit 255#8) := by decide
theorem test_decode_encByte : decode .enc 0b0001000001000001#16 = .ok (.encByte 0x41#8) := by decide
theorem test_decode_encByteRemap : decode .enc 0b0010000011001000#16 = .ok (.encByteRemap 200#8) := by
  decide
theorem test_decode_encFinal : decode .enc 0b0011000000000000#16 = .ok .encFinal := by decide
theorem test_decode_decInit : decode .dec 0b1000000000000101#16 = .ok (.decInit 5#8) := by decide
theorem test_decode_decByte : decode .dec 0b1001000001101101#16 = .ok (.decByte 0x6D#8) := by decide
theorem test_decode_table_word : decodeTableWord 16 0x20C8 = some (.encByteRemap 200#8) := by decide
theorem test_decode_table_word_refused : decodeTableWord 16 0x3001 = none := by decide

/-! ### States -/

/-- A core just after reset, both units with capacity `c`, `B = 4`. -/
def fresh (c : Nat) (st : Strategy) : State := State.resetOf ⟨c, 4, st⟩ ⟨c⟩

/-- The encoder of such a core after `ENC.INIT m` (R232), with `w` its starting width. -/
def encReady (c : Nat) (st : Strategy) (m : Byte) (w : Nat) : EncUnit :=
  { EncUnit.reset ⟨c, 4, st⟩ with
    cfg := true, maxb := m, count := m.toNat + 2, w := w, t := 2 ^ w }

/-- The decoder of such a core after `DEC.INIT m` (R232), with `w` its starting width. -/
def decReady (c : Nat) (m : Byte) (w : Nat) : DecUnit :=
  { DecUnit.reset ⟨c⟩ with
    cfg := true, maxb := m, count := m.toNat + 2, w := w, t := 2 ^ w - 1 }

/-- The state after a command, or the state before it if the command stops. -/
def after (i : Instr) (s : State) : State :=
  match exec i s with
  | .next t => t
  | .fault _ => s
  | .refused _ => s

/-- The step answers a next state. -/
def answers (r : Host.Outcome State Fault Refusal) : Bool :=
  match r with
  | .next _ => true
  | .fault _ => false
  | .refused _ => false

/-- `C = 8`, `MAXB = 5`, the second epoch of program P1 with one byte taken: `idx = 5`, `cur = 2D`, `off = 6`. -/
def p1Mid : State :=
  { fresh 8 .list with
    enc := { encReady 8 .list 5#8 3 with idx := 5, idxv := true, cur := 0x2D#8, off := 6 } }

/-! ### The first commands after reset (R213, R231) -/

theorem test_step_runs_table_word :
    answers (step (State.reset.withFetchWord 16 0x0005)) = true := by decide
theorem test_reset_then_encByte :
    (after (.encByte 0#8) State.reset).enc.resp = [⟨0x81#8, 0#32⟩] := by decide
theorem test_reset_then_decByte :
    (after (.decByte 0#8) State.reset).dec.resp = [⟨0x81#8, 0#32⟩] := by decide

/-! ### Encoder commands (section 3.4, program P1) -/

theorem test_encInit_ok :
    (after (.encInit 5#8) (fresh 8 .trie)).enc =
      { encReady 8 .trie 5#8 3 with resp := [⟨0x00#8, 0#32⟩] } := by decide
theorem test_encInit_config :
    (after (.encInit 6#8) p1Mid).enc =
      { p1Mid.enc with cfg := false, resp := [⟨0x82#8, 6#32⟩] } := by decide
theorem test_encByte_full_step :
    (after (.encByte 5#8) p1Mid).enc =
      { encReady 8 .list 5#8 3 with
        idx := 5, cur := 0x0B#8, off := 4, pos := 1, stage := [(0, 0x6D#8)], bytev := [(7, 5#8)]
        resp := [⟨0x00#8, 0#32⟩] } := by decide
theorem test_encByte_growth_when_n0_is_a_power :
    let u := (after (.encByte 1#8)
      { fresh 64 .trie with enc := { encReady 64 .trie 6#8 3 with idx := 0, idxv := true } }).enc
    (u.count, u.w, u.t, u.idx, u.cur, u.off) = (9, 4, 16, 1, 0#8, 3) := by decide
theorem test_encByteRemap_out_of_range :
    (after (.encByteRemap 9#8) { p1Mid with remap := [(9, 7#8)] }).enc =
      { p1Mid.enc with resp := [⟨0x83#8, 0x0907#32⟩] } := by decide
theorem test_encByteRemap_in_range :
    (after (.encByteRemap 200#8)
      { fresh 8 .list with enc := encReady 8 .list 2#8 2, remap := [(200, 2#8)] }).enc.idx = 2 := by
  decide
theorem test_encFinal_delivers :
    let u := (after .encFinal { fresh 8 .list with
      enc := { encReady 8 .list 5#8 3 with
        cur := 0x0B#8, off := 4, pos := 1, stage := [(0, 0x6D#8)] } }).enc
    (u.out, u.cur, u.off, u.pos) = ([[0x6D#8, 0x6B#8]], 0#8, 0, 0) := by decide
theorem test_encFinal_width_step :
    (after .encFinal { fresh 9 .list with
      enc := { encReady 9 .list 5#8 3 with idx := 0, idxv := true } }).enc.out = [[0x30#8]] := by decide

/-! ### Internal operations (sections 3.2 and 3.3) -/

theorem test_emit_sixteen_bits :
    (({ encReady 70000 .list 255#8 9 with cur := 0x05#8, off := 4 }).emit 0xABCD 16).toOption =
      some { encReady 70000 .list 255#8 9 with
        cur := 0x0A#8, off := 4, pos := 2, stage := [(0, 0xD5#8), (1, 0xBC#8)] } := by decide
theorem test_listInsert_at_head :
    (({ encReady 512 .list 255#8 9 with
        count := 258, bytev := [(257, 1#8)], first := [(0, some 257)] }).dictAdd (some 0) 3#8).toOption =
    some (.notFound, { encReady 512 .list 255#8 9 with
        count := 259, bytev := [(257, 1#8), (258, 3#8)], first := [(0, some 258)]
        sib := [(258, some 257)] }) := by decide
theorem test_trieInsert_below_second_node :
    (({ encReady 512 .trie 255#8 9 with
        count := 260, bytev := [(257, 1#8), (258, 3#8), (259, 5#8)], root := [(1, some 257)]
        nxt := [(514, some 259), (515, some 258)] }).dictAdd (some 0) 7#8).toOption =
    some (.notFound, { encReady 512 .trie 255#8 9 with
        count := 261, bytev := [(257, 1#8), (258, 3#8), (259, 5#8), (260, 7#8)]
        root := [(1, some 257)]
        nxt := [(514, some 259), (515, some 258), (517, some 260)] }) := by decide

/-! ### Decoder commands (section 3.5, program P2) -/

theorem test_decInit_ok :
    (after (.decInit 5#8) { fresh 8 .list with dec := { decReady 8 4#8 3 with
      st := .error, err := 0x84#8, info := 7#32 } }).dec =
      { decReady 8 5#8 3 with resp := [⟨0x00#8, 0#32⟩] } := by decide
theorem test_decInit_config :
    (after (.decInit 6#8) { fresh 8 .list with dec := decReady 8 5#8 3 }).dec =
      { decReady 8 5#8 3 with cfg := false, resp := [⟨0x82#8, 6#32⟩] } := by decide
theorem test_decByte_two_codes_then_eos :
    let d := (after (.decByte 0x6B#8) { fresh 8 .list with
      dec := { decReady 8 5#8 3 with acc := 1, nacc := 2 } }).dec
    (d.out, d.resp, d.st, d.acc, d.nacc, d.count) =
      ([[5#8], [5#8]], [⟨0x01#8, 0#32⟩], .done, 0, 0, 7) := by decide
theorem test_decByte_code_above_count :
    let d := (after (.decByte 0x07#8) { fresh 8 .list with dec := decReady 8 4#8 3 }).dec
    (d.out, d.resp, d.st, d.err, d.info) = ([], [⟨0x84#8, 7#32⟩], .error, 0x84#8, 7#32) := by decide
theorem test_decByte_self_reference_chain :
    let d := (after (.decByte 0x1C#8) { fresh 6 .list with dec := decReady 6 0#8 1 }).dec
    (d.out, d.count, d.w, d.nacc) =
      ([[0#8], [0#8, 0#8], [0#8, 0#8, 0#8]], 4, 3, 2) := by decide

/-! ### The assembler (R92, section 3.1) -/

theorem test_assemble_hex_operand :
    assembleLine ['E', 'N', 'C', '.', 'B', 'Y', 'T', 'E', ' ', '0', 'x', '4', '1', ' ', ';', 'A'] =
      .word 0x1041#16 := by decide
theorem test_assemble_operand_to_final :
    assembleLine ['E', 'N', 'C', '.', 'F', 'I', 'N', 'A', 'L', ' ', '0'] = .error := by decide

/-! ### States that meet the hypotheses of the statements -/

/-- A freshly initialised encoder, with any match and any cursor in range, holds the empty dictionary. -/
theorem encHolds_empty {c : Nat} {st : Strategy} {m : Byte} {w idx off pos : Nat} {idxv : Bool}
    {cur : Byte} {stage : ByteMemory}
    (h : m.toNat + 3 ≤ c) (hw : startWidth m ≤ w ∧ w ≤ maxWidth c) (hc : m.toNat + 2 < 2 ^ w)
    (hi : idx ≤ m.toNat) (hoff : off ≤ 7) (hcur : cur.toNat < 2 ^ off) (hpos : pos < 4) :
    EncHolds { encReady c st m w with
      idx := idx, idxv := idxv, cur := cur, off := off, pos := pos, stage := stage } [] where
  dict :=
    { fits := h
      count := rfl
      countLe := by simp [encReady, EncUnit.reset]; omega
      entries := ⟨by simp, by simp, by simp, List.nodup_nil⟩
      bytev := by simp
      list := fun _ => ⟨fun _ _ _ => rfl, by simp⟩
      trie := fun _ _ _ _ bit => by cases bit <;> rfl }
  room := by simp [encReady, EncUnit.reset]; omega
  threshold := rfl
  growth := .inl hc
  widthMin := hw.1
  widthMax := hw.2
  matched := fun _ => by simp [encReady, EncUnit.reset, eosCode]; omega
  cursor := ⟨hoff, hcur, hpos⟩

/-- `C = 64`, `MAXB = 5`: the entries `(0, 1)` and `(1, 0)` have been created, as codes 7 and 8, and the match is 0. -/
def twoEntries : EncUnit :=
  { encReady 64 .list 5#8 4 with
    count := 9, idx := 0, idxv := true
    bytev := [(7, 1#8)], first := [(0, some 7), (1, some 8)] }

theorem twoEntries_holds : EncHolds twoEntries [(0, 1#8), (1, 0#8)] where
  dict :=
    { fits := by decide
      count := by decide
      countLe := by decide
      entries := ⟨by decide, by decide, by decide, by decide⟩
      bytev := by decide
      list := fun _ => ⟨by decide, by decide⟩
      trie := fun ht => by cases ht }
  room := by decide
  threshold := by decide
  growth := .inl (by decide)
  widthMin := by decide
  widthMax := by decide
  matched := fun _ => by decide
  cursor := ⟨by decide, by decide, by decide⟩

/-- Capacity `c`, `MAXB = 5`, width `w`: the decoder after the codes 0 and 1, one entry `(0, 1)` created, the previous code
1, so `count = 8`. -/
def decAt (c w : Nat) : DecUnit :=
  { decReady c 5#8 w with
    count := 8, prev := 1, prevv := true, pfirst := 1#8, bytev := [(7, 1#8)], acc := 5, nacc := 3 }

theorem decAt_holds {c w : Nat} (hc : 9 ≤ c) (hw : startWidth (5#8) ≤ w) (hm : w ≤ maxWidth c) :
    DecHolds (decAt c w) where
  fits := Nat.le_trans (Nat.le_succ 8) hc
  countMin := by simp [decAt, decReady, DecUnit.reset, emptyCount]
  room := hc
  threshold := rfl
  widthMin := hw
  widthMax := hm
  noPrev := fun h => by cases h
  prev := fun _ => ⟨by simp [decAt, decReady], by simp [decAt, decReady, DecUnit.reset, eosCode], rfl⟩
  prefixLower := fun x h1 h2 => by
    have h1 : 7 ≤ x := h1
    have h2 : x < 8 := h2
    obtain rfl : x = 7 := by omega
    exact Nat.succ_pos 6
  prefixNotEos := fun x h1 h2 => by
    have h1 : 7 ≤ x := h1
    have h2 : x < 8 := h2
    obtain rfl : x = 7 := by omega
    exact (Nat.succ_ne_zero 5).symm

/-- Such a decoder well below its capacity and its threshold. -/
def decMid : DecUnit := decAt 64 4

theorem decMid_holds : DecHolds decMid := decAt_holds (by decide) (by decide) (by decide)

/-- A core in the middle of two streams. -/
def busy : State := { fresh 64 .list with enc := twoEntries, dec := decMid, remap := [(9, 1#8)] }

theorem busy_inv : busy.Inv where
  enc := ⟨by decide, by decide, by decide, fun _ => ⟨_, twoEntries_holds⟩⟩
  dec := ⟨by decide, by decide, by decide,
    fun _ => ⟨decMid_holds, by unfold AccOk; decide, by decide⟩, fun _ _ => by decide,
    fun _ h => by cases h⟩
  remap := by decide

theorem witness_IllegalWord :
    ∃ (s : State) (rest : List HostEvent), s.host = .command .enc 0x3001#16 :: rest ∧
      (Port.enc = .enc ∧ (0x3001#16).extractLsb' 12 3 = 3#3 ∧ (0x3001#16).extractLsb' 0 8 ≠ 0#8) :=
  ⟨busy.issueFirst .enc 0x3001#16, [], rfl, by decide⟩

theorem witness_IllegalWord_each_point :
    ((0x8005#16).getLsbD 15 ≠ (Port.enc == .dec)) ∧ (0x9106#16).extractLsb' 8 4 ≠ 0#4 ∧
    4 ≤ ((0x4000#16).extractLsb' 12 3).toNat ∧ 2 ≤ ((0xA000#16).extractLsb' 12 3).toNat ∧
    CmdWord.wf .enc 0x3000#16 = true ∧ CmdWord.wf .dec 0x90FF#16 = true := by decide

theorem witness_StepRunsTheDecodedCommand :
    (busy.issueFirst .enc 0x1001#16).host = .command .enc 0x1001#16 :: [] ∧
      decode .enc 0x1001#16 = .ok (.encByte 1#8) := by decide

theorem witness_CoreWithoutEvents : State.reset.host = [] := by decide

theorem witness_RemapWrite :
    ({ busy with host := [.remapWrite 9#8 0#8] }).host = .remapWrite 9#8 0#8 :: [] ∧
      Memory.wf unlistedByte busy.remap = true := by decide

theorem witness_ResetPulse :
    ({ busy with host := [.resetPulse .enc] }).host = .resetPulse .enc :: [] ∧
      ({ busy with host := [.resetPulse .dec] }).host = .resetPulse .dec :: [] := by decide

theorem witness_UnconfiguredUnit :
    (fresh 8 .list).enc.cfg = false ∧ (fresh 8 .list).dec.cfg = false ∧
      (fresh 8 .list).enc.build.cap < (6#8).toNat + 3 ∧
      (fresh 8 .list).dec.build.cap < (6#8).toNat + 3 := by decide

theorem witness_OnlyInitWakesTheCore :
    (fresh 8 .list).enc.cfg = false ∧ (fresh 8 .list).dec.cfg = false ∧
      ∀ i ∈ [Instr.encFinal, .decByte 3#8], (∀ m, i ≠ .encInit m) ∧ ∀ m, i ≠ .decInit m := by
  refine ⟨rfl, rfl, ?_⟩
  simp

theorem witness_InitThatDoesNotFit :
    (fresh 8 .list).enc.build.cap < (6#8).toNat + 3 ∧ capacityWf (fresh 8 .list).enc.build.cap = true ∧
      (fresh 8 .list).dec.build.cap < (6#8).toNat + 3 := by decide

theorem witness_InitThatFits_boundary :
    (5#8).toNat + 3 ≤ (fresh 8 .list).enc.build.cap ∧ (5#8).toNat + 3 ≤ (fresh 8 .list).dec.build.cap ∧
      (fresh 8 .list).enc.build.wf = true := by decide

theorem witness_DictAdd_found :
    DictHolds twoEntries [(0, 1#8), (1, 0#8)] ∧ twoEntries.memoriesWf = true ∧ 0 < twoEntries.count ∧
      0 ≠ eosCode twoEntries.maxb ∧ 1#8 ≤ twoEntries.maxb ∧
      entryCode twoEntries.maxb [(0, 1#8), (1, 0#8)] 0 1#8 = some 7 :=
  ⟨twoEntries_holds.dict, by decide, by decide, by decide, by decide, by decide⟩

theorem witness_DictAdd_created_boundary :
    DictHolds (encReady 8 .list 5#8 3) [] ∧ (encReady 8 .list 5#8 3).memoriesWf = true ∧
      5 < (encReady 8 .list 5#8 3).count ∧ 5 ≠ eosCode (5#8) ∧ 5#8 ≤ 5#8 ∧
      entryCode (5#8) [] 5 5#8 = none ∧
      (encReady 8 .list 5#8 3).count < (encReady 8 .list 5#8 3).build.cap :=
  ⟨(encHolds_empty (c := 8) (st := .list) (m := 5#8) (w := 3) (idx := 0) (off := 0) (pos := 0)
      (idxv := false) (cur := 0#8) (stage := []) (by decide) (by decide) (by decide) (by decide) (by decide)
      (by decide) (by decide)).dict,
    by decide, by decide, by decide, by decide, by decide, by decide⟩

theorem witness_DistinctCodes :
    EntriesOk (5#8) [(0, 1#8), (1, 0#8)] ∧ 7 < emptyCount (5#8) + 2 ∧ 8 < emptyCount (5#8) + 2 ∧
      7 ≠ eosCode (5#8) ∧ 8 ≠ eosCode (5#8) ∧ 7 ≠ 8 :=
  ⟨twoEntries_holds.dict.entries, by decide, by decide, by decide, by decide, by decide⟩

theorem witness_Emit : CursorOk p1Mid.enc ∧ p1Mid.enc.memoriesWf = true :=
  ⟨⟨by decide, by decide, by decide⟩, by decide⟩

theorem witness_ByteAboveMaximum_boundary :
    p1Mid.enc.cfg = true ∧ p1Mid.enc.maxb.toNat < (6#8).toNat ∧
      ({ p1Mid with remap := [(9, 7#8)] }).enc.maxb.toNat <
        (({ p1Mid with remap := [(9, 7#8)] }).remapEntry 9#8).toNat := by decide

theorem witness_FirstByteOfAnEpoch :
    ({ busy with enc := encReady 64 .list 5#8 3 }).takes (.encByteRemap 9#8) 1#8 ∧
      (encReady 64 .list 5#8 3).cfg = true ∧ 1#8 ≤ (encReady 64 .list 5#8 3).maxb ∧
      (encReady 64 .list 5#8 3).idxv = false :=
  ⟨.inr ⟨9#8, rfl, by decide⟩, by decide, by decide, by decide⟩

theorem witness_ByteExtendingTheMatch :
    busy.takes (.encByte 1#8) 1#8 ∧ busy.enc.cfg = true ∧
      EncHolds busy.enc [(0, 1#8), (1, 0#8)] ∧ 1#8 ≤ busy.enc.maxb ∧ busy.enc.idxv = true ∧
      entryCode busy.enc.maxb [(0, 1#8), (1, 0#8)] busy.enc.idx 1#8 = some 7 :=
  ⟨.inl rfl, by decide, twoEntries_holds, by decide, by decide, by decide⟩

theorem witness_ByteEndingTheMatch :
    busy.takes (.encByte 5#8) 5#8 ∧ busy.enc.cfg = true ∧
      EncHolds busy.enc [(0, 1#8), (1, 0#8)] ∧ busy.enc.memoriesWf = true ∧ 5#8 ≤ busy.enc.maxb ∧
      busy.enc.idxv = true ∧ entryCode busy.enc.maxb [(0, 1#8), (1, 0#8)] busy.enc.idx 5#8 = none ∧
      busy.enc.count + 1 < busy.enc.build.cap :=
  ⟨.inl rfl, by decide, twoEntries_holds, by decide, by decide, by decide, by decide, by decide⟩

theorem p1Mid_holds : EncHolds p1Mid.enc [] :=
  encHolds_empty (c := 8) (st := .list) (m := 5#8) (w := 3) (by decide) (by decide) (by decide)
    (by decide) (by decide) (by decide) (by decide)

/-- The same state over TRIE storage. -/
def p1MidTrie : State :=
  { fresh 8 .trie with
    enc := { encReady 8 .trie 5#8 3 with idx := 5, idxv := true, cur := 0x2D#8, off := 6 } }

theorem p1MidTrie_holds : EncHolds p1MidTrie.enc [] :=
  encHolds_empty (c := 8) (st := .trie) (m := 5#8) (w := 3) (by decide) (by decide) (by decide)
    (by decide) (by decide) (by decide) (by decide)

theorem witness_ByteFillingTheDictionary :
    p1Mid.takes (.encByte 5#8) 5#8 ∧ p1Mid.enc.cfg = true ∧ EncHolds p1Mid.enc [] ∧
      p1Mid.enc.memoriesWf = true ∧ 5#8 ≤ p1Mid.enc.maxb ∧ p1Mid.enc.idxv = true ∧
      entryCode p1Mid.enc.maxb [] p1Mid.enc.idx 5#8 = none ∧
      p1Mid.enc.count + 1 = p1Mid.enc.build.cap :=
  ⟨.inl rfl, by decide, p1Mid_holds, by decide, by decide, by decide, by decide, by decide⟩

theorem witness_ByteEndingTheMatchStores :
    busy.takes (.encByte 5#8) 5#8 ∧ busy.enc.cfg = true ∧ EncHolds busy.enc [(0, 1#8), (1, 0#8)] ∧
      busy.enc.memoriesWf = true ∧ 5#8 ≤ busy.enc.maxb ∧ busy.enc.idxv = true ∧
      busy.enc.dictFind busy.enc.idx 5#8 = .ok .notFound ∧
      exec (.encByte 5#8) busy = .next (after (.encByte 5#8) busy) :=
  ⟨.inl rfl, by decide, twoEntries_holds, by decide, by decide, by decide, by decide, rfl⟩

/-- The full step over TRIE storage, at the slot `ROOT[5][1]`. -/
theorem witness_ByteEndingTheMatchStores_trie :
    p1MidTrie.takes (.encByte 5#8) 5#8 ∧ p1MidTrie.enc.cfg = true ∧ EncHolds p1MidTrie.enc [] ∧
      p1MidTrie.enc.memoriesWf = true ∧ 5#8 ≤ p1MidTrie.enc.maxb ∧ p1MidTrie.enc.idxv = true ∧
      p1MidTrie.enc.dictFind p1MidTrie.enc.idx 5#8 = .ok .notFound ∧
      exec (.encByte 5#8) p1MidTrie = .next (after (.encByte 5#8) p1MidTrie) ∧
      p1MidTrie.enc.trieLookup p1MidTrie.enc.idx 5#8 = .ok (.notFound (.root 5 true)) ∧
      p1MidTrie.enc.count + 1 = p1MidTrie.enc.build.cap :=
  ⟨.inl rfl, by decide, p1MidTrie_holds, by decide, by decide, by decide, by decide, rfl,
    by decide, by decide⟩

theorem witness_Final :
    p1Mid.enc.cfg = true ∧ EncHolds p1Mid.enc [] ∧ p1Mid.enc.memoriesWf = true ∧
      exec .encFinal p1Mid = .next (after .encFinal p1Mid) ∧ (fresh 8 .list).enc.cfg = false :=
  ⟨by decide, p1Mid_holds, by decide, rfl, by decide⟩

theorem witness_EncoderDelivers :
    busy.enc.Inv ∧ (Instr.encByte 5#8).port = .enc ∧
      exec (.encByte 5#8) busy = .next (after (.encByte 5#8) busy) := ⟨busy_inv.enc, rfl, rfl⟩

theorem witness_String :
    DecHolds decMid ∧ decMid.memoriesWf = true ∧ 7 < decMid.count ∧ 7 ≠ eosCode decMid.maxb ∧
      5 < decMid.count ∧ 5 ≠ eosCode decMid.maxb ∧ 5 ≤ decMid.maxb.toNat ∧ decMid.maxb.toNat < 7 :=
  ⟨decMid_holds, by decide, by decide, by decide, by decide, by decide, by decide, by decide⟩

theorem witness_SelfReference :
    DecHolds decMid ∧ decMid.memoriesWf = true ∧ decMid.prevv = true :=
  ⟨decMid_holds, by decide, by decide⟩

/-- O29 and O30 where the new entry fills the dictionary, leaves one code free, or makes the width grow, and where it does
none of these (`decMid`); an existing code is 7. -/
theorem witness_NextCode_boundaries :
    (DecHolds (decAt 9 4) ∧ (decAt 9 4).memoriesWf = true ∧ (decAt 9 4).prevv = true ∧
      7 < (decAt 9 4).count ∧ 7 ≠ eosCode (decAt 9 4).maxb ∧
      (decAt 9 4).count + 1 = (decAt 9 4).build.cap) ∧
    (DecHolds (decAt 10 4) ∧ (decAt 10 4).memoriesWf = true ∧ (decAt 10 4).prevv = true ∧
      7 < (decAt 10 4).count ∧ 7 ≠ eosCode (decAt 10 4).maxb ∧
      (decAt 10 4).count + 1 = (decAt 10 4).build.cap - 1) ∧
    (DecHolds (decAt 64 3) ∧ (decAt 64 3).memoriesWf = true ∧ (decAt 64 3).prevv = true ∧
      7 < (decAt 64 3).count ∧ 7 ≠ eosCode (decAt 64 3).maxb ∧
      2 ^ (decAt 64 3).w - 1 ≤ (decAt 64 3).count + 1) :=
  ⟨⟨decAt_holds (by decide) (by decide) (by decide), by decide, by decide, by decide, by decide,
      by decide⟩,
    ⟨decAt_holds (by decide) (by decide) (by decide), by decide, by decide, by decide, by decide,
      by decide⟩,
    ⟨decAt_holds (by decide) (by decide) (by decide), by decide, by decide, by decide, by decide,
      by decide⟩⟩

theorem witness_DecoderWidth :
    DecHolds decMid ∧ decMid.memoriesWf = true ∧ ∃ e, decMid.decodeIndex 6 = .ok e :=
  ⟨decMid_holds, by decide, _, rfl⟩

theorem witness_ByteCompletingNoCode :
    let s := { fresh 512 .list with dec := decReady 512 255#8 9 }
    s.dec.cfg = true ∧ s.dec.st = .run ∧ s.dec.nacc + 8 < s.dec.w := by decide

theorem witness_ByteDecodes : busy.dec.Inv ∧ busy.dec.cfg = true ∧ busy.dec.st = .run :=
  ⟨busy_inv.dec, by decide, by decide⟩

/-- A freshly initialised decoder meets its invariant. -/
theorem decReady_inv {c : Nat} {m : Byte} {w : Nat} (h : m.toNat + 3 ≤ c) (hc : capacityWf c = true)
    (hw : startWidth m ≤ w ∧ w ≤ maxWidth c) (hp : 0 < w) : (decReady c m w).Inv where
  build := hc
  memories := rfl
  prevFits := Nat.two_pow_pos _
  configured := fun _ =>
    ⟨{ fits := h
       countMin := Nat.le_refl _
       room := by simp [decReady, DecUnit.reset]; omega
       threshold := rfl
       widthMin := hw.1
       widthMax := hw.2
       noPrev := fun _ => rfl
       prev := fun hv => by cases hv
       prefixLower := fun x h1 h2 => absurd h2 (Nat.not_lt.mpr h1)
       prefixNotEos := fun x h1 h2 => absurd h2 (Nat.not_lt.mpr h1) },
      Nat.one_pos, Nat.zero_le _⟩
  running := fun _ _ => hp
  errorLatched := fun _ h => by cases h

theorem witness_Completion :
    let s := { fresh 8 .list with dec := decReady 8 5#8 3 }
    let d := { s.dec with acc := s.dec.acc ||| ((0xFE#8).toNat <<< s.dec.nacc), nacc := s.dec.nacc + 8 }
    s.dec.Inv ∧ s.dec.cfg = true ∧ s.dec.st = .run ∧ DecUnit.Reaches d d ∧ d.st = .run ∧
      d.w ≤ d.nacc ∧ d.acc % 2 ^ d.w = d.maxb.toNat + 1 ∧
      ({ s.dec with st := DecSt.done }).cfg = true :=
  ⟨decReady_inv (by decide) (by decide) (by decide) (by decide), rfl, rfl, .here _, rfl,
    by decide, by decide, rfl⟩

theorem witness_DecodeError_above :
    let s := { fresh 8 .list with dec := decReady 8 4#8 3 }
    let d := { s.dec with acc := s.dec.acc ||| ((0x07#8).toNat <<< s.dec.nacc), nacc := s.dec.nacc + 8 }
    s.dec.Inv ∧ s.dec.cfg = true ∧ s.dec.st = .run ∧ DecUnit.Reaches d d ∧ d.st = .run ∧
      d.w ≤ d.nacc ∧ 7 = d.acc % 2 ^ d.w ∧ d.count < 7 :=
  ⟨decReady_inv (by decide) (by decide) (by decide) (by decide), rfl, rfl, .here _, rfl,
    by decide, by decide, by decide⟩

theorem witness_DecodeError_equal :
    let s := { fresh 8 .list with dec := decReady 8 4#8 3 }
    let d := { s.dec with acc := s.dec.acc ||| ((0x06#8).toNat <<< s.dec.nacc), nacc := s.dec.nacc + 8 }
    s.dec.Inv ∧ s.dec.cfg = true ∧ s.dec.st = .run ∧ DecUnit.Reaches d d ∧ d.st = .run ∧
      d.w ≤ d.nacc ∧ 6 = d.acc % 2 ^ d.w ∧ 6 = d.count ∧ d.prevv = false :=
  ⟨decReady_inv (by decide) (by decide) (by decide) (by decide), rfl, rfl, .here _, rfl,
    by decide, by decide, by decide, rfl⟩

theorem witness_DecodeError_sticky :
    let d := { decReady 8 4#8 3 with st := DecSt.error, err := 0x84#8, info := 7#32 }
    d.cfg = true ∧ d.st = .error := by decide

theorem witness_EveryCommandAnswered :
    busy.Inv ∧ exec (.decByte 9#8) busy = .next (after (.decByte 9#8) busy) := ⟨busy_inv, rfl⟩

theorem witness_UnitsAreIndependent :
    exec (.encByteRemap 9#8) busy = .next (after (.encByteRemap 9#8) busy) ∧
      exec (.decByte 9#8) busy = .next (after (.decByte 9#8) busy) := ⟨rfl, rfl⟩

theorem witness_ResetMeetsTheInvariant :
    EncBuild.wf ⟨3, 1, .trie⟩ = true ∧ DecBuild.wf ⟨2 ^ 32⟩ = true := by decide

theorem witness_StepKeepsTheInvariant :
    (busy.issueFirst .enc 0x1005#16).Inv ∧
      ∃ t, step (busy.issueFirst .enc 0x1005#16) = .next t :=
  ⟨⟨busy_inv.enc, busy_inv.dec, busy_inv.remap⟩, _, rfl⟩

theorem witness_RegistersFit :
    busy.Inv ∧ busy.enc.cfg = true ∧ busy.dec.cfg = true ∧ busy.dec.st = .run :=
  ⟨busy_inv, by decide, by decide, by decide⟩

/-- A decoder in error, with bits left in the accumulator, in a core that meets the invariant. -/
theorem witness_RegistersFit_error :
    let s := { busy with dec := { decMid with st := DecSt.error, err := eCodeRange, info := 9#32 } }
    s.Inv ∧ s.enc.cfg = true ∧ s.dec.cfg = true ∧ s.dec.st = .error ∧ s.dec.nacc = 3 :=
  ⟨⟨busy_inv.enc,
      ⟨by decide, by decide, by decide,
        fun _ => ⟨{ decMid_holds with }, by unfold AccOk; decide, by decide⟩,
        fun _ h => (by cases h), fun _ _ => .inl rfl⟩,
      busy_inv.remap⟩,
    by decide, by decide, by decide, by decide⟩

/-- Two configured cores that differ in STRATEGY. -/
theorem witness_StrategyHasNoEffect :
    let s := { fresh 8 .list with enc := encReady 8 .list 5#8 3 }
    let t := { fresh 8 .trie with enc := encReady 8 .trie 5#8 3 }
    s.Inv ∧ t.Inv ∧ SameButStrategy s.enc t.enc ∧ t.dec = s.dec ∧ t.remap = s.remap ∧
      t.host = s.host := by
  have he : ∀ st, EncHolds (encReady 8 st 5#8 3) [] := fun st =>
    encHolds_empty (c := 8) (st := st) (m := 5#8) (w := 3) (idx := 0) (off := 0) (pos := 0)
      (idxv := false) (cur := 0#8) (stage := []) (by decide) (by decide) (by decide) (by decide)
      (by decide) (by decide) (by decide)
  have hd : (DecUnit.reset ⟨8⟩).Inv :=
    ⟨by decide, by decide, by decide, fun h => (by cases h), fun h => (by cases h),
      fun h => (by cases h)⟩
  exact ⟨⟨⟨by decide, by decide, by decide, fun _ => ⟨_, he _⟩⟩, hd, rfl⟩,
    ⟨⟨by decide, by decide, by decide, fun _ => ⟨_, he _⟩⟩, hd, rfl⟩,
    ⟨rfl, rfl, rfl, rfl, rfl, rfl, rfl, rfl, rfl, rfl, rfl, rfl, rfl, rfl, rfl,
      fun _ => ⟨[], he _, he _⟩⟩, rfl, rfl, rfl⟩

theorem witness_EncoderStream_boundary :
    busy.enc.Inv ∧ (61#8).toNat + 3 ≤ busy.enc.build.cap ∧ ∀ b ∈ [0#8, 61#8], b ≤ 61#8 :=
  ⟨busy_inv.enc, by decide, by decide⟩

theorem witness_RoundTrip_boundary :
    busy.Inv ∧ busy.dec.build.cap = busy.enc.build.cap ∧ (61#8).toNat + 3 ≤ busy.enc.build.cap ∧
      ∀ b ∈ [0#8, 61#8, 61#8], b ≤ 61#8 :=
  ⟨busy_inv, by decide, by decide, by decide⟩

theorem witness_EncBytes :
    let s := p1Mid
    let t := after (.encByte 5#8) s
    execAll ([5#8].map .encByte) s = .next t ∧ t.enc.resp = s.enc.resp ++ [⟨0x00#8, 0#32⟩] ∧
      exec (.encByte 6#8) t = .next (after (.encByte 6#8) t) ∧
      (after (.encByte 6#8) t).enc.resp = t.enc.resp ++ [⟨0x83#8, 6#32⟩] ∧
      (0x83#8 : StatusCode) ≠ 0x00#8 := ⟨rfl, by decide, rfl, by decide, by decide⟩

theorem witness_EncBytesRemap :
    let s := { p1Mid with remap := [(1, 5#8), (9, 6#8)] }
    let t := after (.encByteRemap 1#8) s
    execAll ([1#8].map .encByteRemap) s = .next t ∧ t.enc.resp = s.enc.resp ++ [⟨0x00#8, 0#32⟩] ∧
      exec (.encByteRemap 9#8) t = .next (after (.encByteRemap 9#8) t) ∧
      (after (.encByteRemap 9#8) t).enc.resp = t.enc.resp ++ [⟨0x83#8, 0x0906#32⟩] ∧
      (0x83#8 : StatusCode) ≠ 0x00#8 := ⟨rfl, by decide, rfl, by decide, by decide⟩

theorem witness_DecBytes :
    let s := { fresh 8 .list with dec := decReady 8 5#8 3 }
    let t := after (.decByte 0x6D#8) s
    execAll ([0x6D#8].map .decByte) s = .next t ∧ t.dec.resp = s.dec.resp ++ [⟨0x00#8, 0#32⟩] ∧
      exec (.decByte 0x6B#8) t = .next (after (.decByte 0x6B#8) t) ∧
      (after (.decByte 0x6B#8) t).dec.resp = t.dec.resp ++ [⟨0x01#8, 0#32⟩] ∧
      (0x01#8 : StatusCode) ≠ 0x00#8 := ⟨rfl, by decide, rfl, by decide, by decide⟩

theorem witness_Assembler_boundary : (255 : Nat) ≤ 255 ∧ 255 < 256 ∧ Mnemonic.encByte ≠ .encFinal := by
  decide

end Sys2Proof.Tests
end

section
/-! PROOF. Tier 1 statements of 10_state.md: a legal word is run, and what holds right after reset. -/

namespace Sys2Proof.Machine

/-- With a command word pending, what the core takes from its host is what its port receives. -/
theorem fetch_of_command {s : State} {p : Port} {w : CmdWord} {rest : List HostEvent}
    (h : s.host = .command p w :: rest) : fetch s = ({ s with host := rest }).receive p w := by
  rw [fetch, h]
  rfl

/-- A legal word is received as the command it decodes to. -/
theorem State.receive_of_decode {s : State} {p : Port} {w : CmdWord} {i : Instr}
    (h : decode p w = .ok i) : s.receive p w = .run i s := by
  rw [State.receive, h]

/-- Settles O4: the word is received, and receiving a legal word gives its command to run. -/
theorem stepRunsTheDecodedCommand : Obligations.StepRunsTheDecodedCommand := by
  intro s p w i rest hhost hdec
  rw [step, fetch_of_command hhost, State.receive_of_decode hdec]

/-- Settles O8: the fields of the state after reset, read off. -/
theorem resetLeavesBothUnitsUnconfigured : Obligations.ResetLeavesBothUnitsUnconfigured :=
  fun _ _ => ⟨rfl, rfl, rfl, rfl, rfl, rfl, rfl, rfl⟩

/-- An encoder whose registers and memories are those of reset meets its invariant, whatever it has delivered before. -/
theorem EncUnit.reset_inv {b : EncBuild} (hb : b.wf = true) (out : List (List Byte))
    (resp : List Response) : ({ EncUnit.reset b with out := out, resp := resp }).Inv where
  build := hb
  memories := rfl
  idxFits := Nat.two_pow_pos _
  configured h := by cases h

/-- A decoder whose registers and memories are those of reset meets its invariant, whatever it has delivered before. -/
theorem DecUnit.reset_inv {b : DecBuild} (hb : b.wf = true) (out : List (List Byte))
    (resp : List Response) : ({ DecUnit.reset b with out := out, resp := resp }).Inv where
  build := hb
  memories := rfl
  prevFits := Nat.two_pow_pos _
  configured h := by cases h
  running h := by cases h
  errorLatched h := by cases h

theorem State.resetOf_inv {e : EncBuild} {d : DecBuild} (he : e.wf = true) (hd : d.wf = true) :
    (State.resetOf e d).Inv :=
  ⟨EncUnit.reset_inv he [] [], DecUnit.reset_inv hd [] [], rfl⟩

/-- A capacity that lies above 3 by less than `2^32 - 2` is in range (R6). -/
theorem capacityWf_above_min (x : Fin 4294967294) : capacityWf (3 + x.val) = true := by
  have := x.isLt
  simp only [capacityWf, decide_eq_true_eq]
  omega

theorem encBuild_wf : Config.encBuild.wf = true := by
  have hcap := capacityWf_above_min Config.encCapacityAboveMin
  have hstage := Nat.le_add_right (minStageBytes (3 + Config.encCapacityAboveMin.val))
    Config.stageBytesAboveMin
  exact decide_eq_true ⟨hcap, hstage⟩

theorem decBuild_wf : Config.decBuild.wf = true := capacityWf_above_min _

/-- Settles O38: both units are unconfigured, and every build that Config can name is in range. -/
theorem resetMeetsTheInvariant : Obligations.ResetMeetsTheInvariant :=
  ⟨State.resetOf_inv encBuild_wf decBuild_wf, fun _ _ => State.resetOf_inv⟩

end Sys2Proof.Machine
end

section
/-! PROOF. The widths of the registers (10_state.md R24 to R28, R33 to R38), from the invariant. -/

namespace Sys2Proof.Machine

/-- `clog2(n + 1)` bits hold every number up to `n`. -/
theorem lt_two_pow_clog2_succ {k n : Nat} (h : k ≤ n) : k < 2 ^ clog2 (n + 1) :=
  Nat.lt_of_lt_of_le (Nat.lt_succ_of_le h) (le_two_pow_clog2 (n + 1))

theorem EncBuild.wf_iff {b : EncBuild} :
    b.wf = true ↔ capacityWf b.cap = true ∧ minStageBytes b.cap ≤ b.stageBytes := by
  simp [EncBuild.wf]

theorem EncHolds.registers_fit {u : EncUnit} {es : Entries} (h : EncHolds u es)
    (hb : u.build.wf = true) :
    u.count < 2 ^ clog2 (u.build.cap + 1) ∧ u.w < 2 ^ 6 ∧ u.w ≤ clog2 u.build.cap ∧
      u.t < 2 ^ (clog2 u.build.cap + 1) ∧ u.off < 2 ^ 3 ∧
      u.pos < 2 ^ clog2 (u.build.stageBytes + 1) := by
  have hw : u.w ≤ clog2 u.build.cap := h.widthMax
  have hmax : clog2 u.build.cap ≤ 32 := (maxWidth_range (EncBuild.wf_iff.mp hb).1).2
  have hoff := h.cursor.off
  refine ⟨lt_two_pow_clog2_succ h.dict.countLe, by omega, hw, ?_, by omega,
    lt_two_pow_clog2_succ h.cursor.pos.le⟩
  rw [h.threshold]
  exact Nat.pow_lt_pow_right (by decide) (Nat.lt_succ_of_le hw)

theorem DecHolds.registers_fit {d : DecUnit} (h : DecHolds d) (hb : d.build.wf = true) :
    d.count < 2 ^ clog2 (d.build.cap + 1) ∧ d.w < 2 ^ 6 ∧ d.w ≤ clog2 d.build.cap ∧
      d.t < 2 ^ (clog2 d.build.cap + 1) := by
  have hw : d.w ≤ clog2 d.build.cap := h.widthMax
  have hmax : clog2 d.build.cap ≤ 32 := (maxWidth_range hb).2
  refine ⟨lt_two_pow_clog2_succ (Nat.le_of_succ_le h.room), by omega, hw, ?_⟩
  rw [h.threshold]
  exact Nat.lt_of_le_of_lt (Nat.sub_le _ _) (Nat.pow_lt_pow_right (by decide) (Nat.lt_succ_of_le hw))

/-- The unpacker's registers fit `WMAX + 7` and 6 bits (R38). -/
theorem accumulator_fits {d : DecUnit} (hacc : AccOk d) (hn : d.nacc ≤ maxWidth d.build.cap + 7)
    (hb : d.build.wf = true) : d.acc < 2 ^ (clog2 d.build.cap + 7) ∧ d.nacc < 2 ^ 6 := by
  have hmax : maxWidth d.build.cap ≤ 32 := (maxWidth_range hb).2
  exact ⟨Nat.lt_of_lt_of_le hacc (Nat.pow_le_pow_right (by decide) hn), by omega⟩

/-- Settles O41: each unit's invariant bounds its registers, at widths of at most `WMAX <= 32`. -/
theorem registersFitTheirWidths : Obligations.RegistersFitTheirWidths := by
  intro s ⟨henc, hdec, _⟩
  constructor
  · intro hcfg
    obtain ⟨es, h⟩ := henc.configured hcfg
    obtain ⟨hcount, hrest⟩ := h.registers_fit henc.build
    exact ⟨hcount, henc.idxFits, hrest⟩
  · intro hcfg
    obtain ⟨h, hacc, hnacc⟩ := hdec.configured hcfg
    obtain ⟨hcount, hw, hwmax, ht⟩ := h.registers_fit hdec.build
    exact ⟨hcount, hdec.prevFits, hw, hwmax, ht, accumulator_fits hacc hnacc hdec.build⟩

end Sys2Proof.Machine
end

section
/-! PROOF. The encode-side dictionary (40_dictionary.md): what a search over storage that holds the entries of an epoch
answers, and what an insertion leaves there. -/

namespace Sys2Proof.Machine

/-- A computation in two parts answers when both do. -/
theorem bind_eq_ok {ε α β : Type} {x : Except ε α} {f : α → Except ε β} {r : β} :
    x >>= f = .ok r ↔ ∃ a, x = .ok a ∧ f a = .ok r := by
  cases x <;> simp [bind, Except.bind]

theorem pure_eq_ok {ε α : Type} {a r : α} : (pure a : Except ε α) = .ok r ↔ a = r := by
  simp [pure, Except.pure]

/-! ### Entries -/

/-- The entry at an index of an epoch, by code `N0 + k` (R110). -/
theorem Entries.getD_append_left {es fs : Entries} {k : Nat} (h : k < es.length) :
    (es ++ fs).getD k (0, 0#8) = es.getD k (0, 0#8) := List.getD_append _ _ _ _ h

theorem Entries.getD_append_length (es : Entries) (e : Nat × Byte) :
    (es ++ [e]).getD es.length (0, 0#8) = e := by simp

theorem Entries.mem_iff {es : Entries} {e : Nat × Byte} :
    e ∈ es ↔ ∃ k < es.length, es.getD k (0, 0#8) = e := by
  rw [List.mem_iff_getElem]
  constructor
  · rintro ⟨k, hk, rfl⟩
    exact ⟨k, hk, List.getD_eq_getElem _ _ hk⟩
  · rintro ⟨k, hk, rfl⟩
    exact ⟨k, hk, (List.getD_eq_getElem _ _ hk).symm⟩

/-- No pair is created twice, so an entry has one index (R115). -/
theorem EntriesOk.index_unique {m : Byte} {es : Entries} (h : EntriesOk m es) {j k : Nat}
    (hj : j < es.length) (hk : k < es.length)
    (e : es.getD j (0, 0#8) = es.getD k (0, 0#8)) : j = k := by
  rw [List.getD_eq_getElem _ _ hj, List.getD_eq_getElem _ _ hk] at e
  exact (List.Nodup.getElem_inj_iff h.distinct).mp e

theorem EntriesOk.nil (m : Byte) : EntriesOk m [] := ⟨by simp, by simp, by simp, List.nodup_nil⟩

/-- A new pair with a lower prefix other than `EOS` and a byte in range keeps the entries in order (R112, R115). -/
theorem EntriesOk.append {m : Byte} {es : Entries} {p : Nat} {b : Byte} (h : EntriesOk m es)
    (hp : p < emptyCount m + es.length) (heos : p ≠ eosCode m) (hb : b ≤ m) (hnew : (p, b) ∉ es) :
    EntriesOk m (es ++ [(p, b)]) := by
  have split : ∀ k < (es ++ [(p, b)]).length, k < es.length ∨ k = es.length := by
    intro k hk
    simp only [List.length_append, List.length_singleton] at hk
    omega
  refine ⟨fun k hk => ?_, fun k hk => ?_, fun k hk => ?_, ?_⟩
  · obtain hk | rfl := split k hk
    · rw [Entries.getD_append_left hk]
      exact h.prefixLower k hk
    · rw [Entries.getD_append_length]
      exact hp
  · obtain hk | rfl := split k hk
    · rw [Entries.getD_append_left hk]
      exact h.prefixNotEos k hk
    · rw [Entries.getD_append_length]
      exact heos
  · obtain hk | rfl := split k hk
    · rw [Entries.getD_append_left hk]
      exact h.byteInRange k hk
    · rw [Entries.getD_append_length]
      exact hb
  · exact List.Nodup.append h.distinct (List.nodup_singleton _) (by simpa using hnew)

/-! ### LIST storage -/

theorem lastChild_append {m : Byte} {es fs : Entries} {p : Nat} :
    ∀ {k : Nat}, k ≤ es.length → lastChild m (es ++ fs) p k = lastChild m es p k
  | 0, _ => rfl
  | k + 1, hk => by
    simp only [lastChild, Entries.getD_append_left hk, lastChild_append (Nat.le_of_succ_le hk)]

/-- The newest child of a code is an entry with that prefix, and no later one has it. -/
theorem lastChild_some {m : Byte} {es : Entries} {p c : Nat} :
    ∀ {k : Nat}, lastChild m es p k = some c → ∃ j < k, c = emptyCount m + j ∧
      (es.getD j (0, 0#8)).1 = p ∧ ∀ i < k, j < i → (es.getD i (0, 0#8)).1 ≠ p
  | 0, h => by cases h
  | k + 1, h => by
    rw [lastChild] at h
    split at h
    · rename_i hp
      cases h
      exact ⟨k, k.lt_succ_self, rfl, hp, fun i _ _ => by omega⟩
    · rename_i hp
      obtain ⟨j, hj, hc, hjp, hlater⟩ := lastChild_some h
      refine ⟨j, by omega, hc, hjp, fun i hi hji => ?_⟩
      obtain hik | rfl : i < k ∨ i = k := by omega
      · exact hlater i hik hji
      · exact hp

theorem lastChild_none {m : Byte} {es : Entries} {p : Nat} :
    ∀ {k : Nat}, lastChild m es p k = none ↔ ∀ i < k, (es.getD i (0, 0#8)).1 ≠ p
  | 0 => by simp [lastChild]
  | k + 1 => by
    rw [lastChild, Nat.forall_lt_succ_right, ← lastChild_none (m := m)]
    split <;> simp_all

theorem EncUnit.readBytev_eq_ok {u : EncUnit} {c : Nat} {y : Byte} :
    u.readBytev c = .ok y ↔ c < u.build.cap ∧ Memory.read unlistedByte u.bytev c = y := by
  simp [EncUnit.readBytev, memRead_eq_ok]

theorem EncUnit.readFirst_eq_ok {u : EncUnit} {c : Nat} {e : Option Nat} :
    u.readFirst c = .ok e ↔ c < u.build.cap ∧ Memory.read unlistedLink u.first c = e := by
  simp [EncUnit.readFirst, memRead_eq_ok]

theorem EncUnit.readSib_eq_ok {u : EncUnit} {c : Nat} {e : Option Nat} :
    u.readSib c = .ok e ↔ c < u.build.cap ∧ Memory.read unlistedLink u.sib c = e := by
  simp [EncUnit.readSib, memRead_eq_ok]

/-- One step of the list walk at a node: its byte is the one searched, or the walk goes on at its sibling (R119). -/
theorem EncUnit.listWalk_some {u : EncUnit} {b : Byte} {n e : Nat} {r : DictResult}
    (h : u.listWalk b n (some e) = .ok r) :
    (Memory.read unlistedByte u.bytev e = b ∧ r = .found e) ∨
    (Memory.read unlistedByte u.bytev e ≠ b ∧
      ∃ n', n = n' + 1 ∧ u.listWalk b n' (Memory.read unlistedLink u.sib e) = .ok r) := by
  cases n with
  | zero => cases h
  | succ n =>
    obtain ⟨y, hy, h⟩ := bind_eq_ok.mp h
    obtain ⟨_, rfl⟩ := EncUnit.readBytev_eq_ok.mp hy
    by_cases hb : Memory.read unlistedByte u.bytev e = b
    · rw [if_pos hb] at h
      exact .inl ⟨hb, (pure_eq_ok.mp h).symm⟩
    · rw [if_neg hb] at h
      obtain ⟨e', he', h⟩ := bind_eq_ok.mp h
      obtain ⟨_, rfl⟩ := EncUnit.readSib_eq_ok.mp he'
      exact .inr ⟨hb, n, rfl, h⟩

/-- What a search for `(p, b)` means for the entries: found, it is the entry's code; not found, the pair is new (R112). -/
def SearchMeans (m : Byte) (es : Entries) (p : Nat) (b : Byte) : DictResult → Prop
  | .found c => ∃ k < es.length, c = emptyCount m + k ∧ es.getD k (0, 0#8) = (p, b)
  | .notFound => (p, b) ∉ es

@[simp] theorem EncUnit.listWalk_none (u : EncUnit) (b : Byte) (n : Nat) :
    u.listWalk b n none = .ok .notFound := by cases n <;> rfl

/-- A walk down the child list that held the first `k` entries looks through those of them with prefix `p`; that the
others are not `(p, b)` is the premise. -/
theorem EncUnit.listWalk_means {u : EncUnit} {es : Entries} {p : Nat} {b : Byte} {r : DictResult}
    (hd : DictHolds u es) (hl : ListHolds u es) (k : Nat) : ∀ {n : Nat}, k ≤ es.length →
      (∀ i < es.length, k ≤ i → es.getD i (0, 0#8) ≠ (p, b)) →
      u.listWalk b n (lastChild u.maxb es p k) = .ok r → SearchMeans u.maxb es p b r := by
  induction k using Nat.strong_induction_on with
  | _ k ih =>
    intro n hk hseen h
    cases hc : lastChild u.maxb es p k with
    | none =>
      rw [hc, EncUnit.listWalk_none] at h
      cases h
      intro hmem
      obtain ⟨i, hi, he⟩ := Entries.mem_iff.mp hmem
      by_cases hik : i < k
      · exact lastChild_none.mp hc i hik (by rw [he])
      · exact hseen i hi (by omega) he
    | some c =>
      rw [hc] at h
      obtain ⟨j, hj, rfl, hjp, hlater⟩ := lastChild_some hc
      have hjlen : j < es.length := by omega
      have hbyte := hd.bytev j hjlen
      obtain ⟨hb, rfl⟩ | ⟨hb, n', _, h⟩ := EncUnit.listWalk_some h
      · exact ⟨j, hjlen, rfl, Prod.ext hjp (hbyte.symm.trans hb)⟩
      · rw [hl.sib j hjlen, hjp] at h
        refine ih j hj hjlen.le (fun i hi hji he => ?_) h
        obtain rfl | hji := Nat.eq_or_lt_of_le hji
        · exact hb (hbyte.trans (by rw [he]))
        · by_cases hik : i < k
          · exact hlater i hik hji (by rw [he])
          · exact hseen i hi (by omega) he

theorem EncUnit.listLookup_means {u : EncUnit} {es : Entries} {p : Nat} {b : Byte} {r : DictResult}
    (hd : DictHolds u es) (hl : ListHolds u es) (hp : p < u.count) (heos : p ≠ eosCode u.maxb)
    (h : u.listLookup p b = .ok r) : SearchMeans u.maxb es p b r := by
  obtain ⟨e, he, h⟩ := bind_eq_ok.mp h
  obtain ⟨_, rfl⟩ := EncUnit.readFirst_eq_ok.mp he
  rw [hl.first p (hd.count ▸ hp) heos] at h
  exact EncUnit.listWalk_means hd hl es.length le_rfl (fun i hi hle => by omega) h

/-- Everything an insertion into LIST storage can do (R120). -/
theorem EncUnit.listInsert_eq_ok {u u' : EncUnit} {p : Nat} {b : Byte}
    (h : u.listInsert p b = .ok u') :
    u' = { u with
      bytev := Memory.write unlistedByte u.bytev u.count b
      first := Memory.write unlistedLink (Memory.write unlistedLink u.first u.count none) p
        (some u.count)
      sib := Memory.write unlistedLink u.sib u.count
        (Memory.read unlistedLink (Memory.write unlistedLink u.first u.count none) p)
      count := u.count + 1 } := by
  obtain ⟨_, h1, h⟩ := bind_eq_ok.mp h
  obtain ⟨_, rfl⟩ := EncUnit.writeBytev_eq_ok.mp h1
  obtain ⟨_, h2, h⟩ := bind_eq_ok.mp h
  obtain ⟨_, rfl⟩ := EncUnit.writeFirst_eq_ok.mp h2
  obtain ⟨_, h3, h⟩ := bind_eq_ok.mp h
  obtain ⟨_, rfl⟩ := EncUnit.readFirst_eq_ok.mp h3
  obtain ⟨_, h4, h⟩ := bind_eq_ok.mp h
  obtain ⟨_, rfl⟩ := EncUnit.writeSib_eq_ok.mp h4
  obtain ⟨_, h5, h⟩ := bind_eq_ok.mp h
  obtain ⟨_, rfl⟩ := EncUnit.writeFirst_eq_ok.mp h5
  exact (pure_eq_ok.mp h).symm

/-- The canonical form of the encoder's memories, one conjunct a memory. -/
theorem EncUnit.memoriesWf_iff {u : EncUnit} : u.memoriesWf = true ↔
    Memory.wf unlistedByte u.stage = true ∧ Memory.wf unlistedByte u.bytev = true ∧
    Memory.wf unlistedLink u.first = true ∧ Memory.wf unlistedLink u.sib = true ∧
    Memory.wf unlistedLink u.root = true ∧ Memory.wf unlistedLink u.nxt = true := by
  simp [EncUnit.memoriesWf, and_assoc]

theorem EncUnit.listInsert_memoriesWf {u u' : EncUnit} {p : Nat} {b : Byte}
    (h : u.listInsert p b = .ok u') (hm : u.memoriesWf = true) : u'.memoriesWf = true := by
  obtain ⟨hstage, hbytev, hfirst, hsib, hroot, hnxt⟩ := EncUnit.memoriesWf_iff.mp hm
  rw [EncUnit.listInsert_eq_ok h, EncUnit.memoriesWf_iff]
  exact ⟨hstage, Memory.wf_write _ _ _ _ hbytev,
    Memory.wf_write _ _ _ _ (Memory.wf_write _ _ _ _ hfirst), Memory.wf_write _ _ _ _ hsib,
    hroot, hnxt⟩

/-- The code of a new entry has no child yet: every prefix is lower than its code. -/
theorem EntriesOk.lastChild_new {m : Byte} {es : Entries} (h : EntriesOk m es) :
    lastChild m es (emptyCount m + es.length) es.length = none :=
  lastChild_none.mpr fun i hi e => by
    have := h.prefixLower i hi
    omega

/-- An insertion into LIST storage puts the new entry at the head of its prefix's child list (R118, R120). -/
theorem EncUnit.listInsert_holds {u u' : EncUnit} {es : Entries} {p : Nat} {b : Byte}
    (hd : DictHolds u es) (hl : ListHolds u es) (hm : u.memoriesWf = true) (hp : p < u.count)
    (heos : p ≠ eosCode u.maxb) (h : u.listInsert p b = .ok u') :
    ListHolds u' (es ++ [(p, b)]) := by
  obtain ⟨_, _, hfirst, hsib, _, _⟩ := EncUnit.memoriesWf_iff.mp hm
  have hcount := hd.count
  have hfirst' := Memory.wf_write unlistedLink u.first u.count none hfirst
  rw [EncUnit.listInsert_eq_ok h]
  constructor
  · intro q hq hqeos
    rw [List.length_append, List.length_singleton] at hq ⊢
    rw [Memory.read_write _ _ _ _ _ hfirst', lastChild, Entries.getD_append_length,
      lastChild_append le_rfl, Memory.read_write _ _ _ _ _ hfirst]
    by_cases hqp : q = p
    · rw [if_pos hqp, if_pos hqp.symm, hcount]
    · rw [if_neg hqp, if_neg (Ne.symm hqp)]
      by_cases hqn : q = u.count
      · rw [if_pos hqn, hqn, hcount, hd.entries.lastChild_new]
      · have hq : q < emptyCount u.maxb + (es.length + 1) := hq
        rw [if_neg hqn]
        exact hl.first q (by omega) hqeos
  · intro k hk
    rw [List.length_append, List.length_singleton] at hk
    have hlast := hl.first p (hcount ▸ hp) heos
    rw [lastChild_append (Nat.le_of_lt_succ hk), Memory.read_write _ _ _ _ _ hsib,
      Memory.read_write _ _ _ _ _ hfirst, if_neg hp.ne]
    obtain hk | rfl := Nat.lt_succ_iff_lt_or_eq.mp hk
    · have hne : emptyCount u.maxb + k ≠ u.count := by omega
      rw [if_neg hne, Entries.getD_append_left hk]
      exact hl.sib k hk
    · rw [if_pos hcount.symm, Entries.getD_append_length, hlast]

end Sys2Proof.Machine
end

section
/-! PROOF. TRIE storage of the encode-side dictionary (40_dictionary.md R122 to R124): the slots of a trie, the path of a
search in it, and what an insertion leaves. -/

namespace Sys2Proof.Machine

/-! ### Slots -/

/-- The code that a slot belongs to. -/
def Slot.code : Slot → Nat
  | .root c _ => c
  | .nxt c _ => c

theorem slotIndex_inj {c c' : Nat} {b b' : Bool} :
    slotIndex c b = slotIndex c' b' ↔ c = c' ∧ b = b' := by
  cases b <;> cases b' <;> simp [slotIndex] <;> omega

/-- The slots of a trie that hangs below a slot, occupied or empty. -/
def Trie.slots : Slot → Trie → List Slot
  | slot, .empty => [slot]
  | slot, .node c z o => slot :: (z.slots (.nxt c false) ++ o.slots (.nxt c true))

/-- The first empty slot on the path of the given bits, in a trie below a slot (R123); none if every slot is occupied. -/
def Trie.hole : Slot → Trie → List Bool → Option Slot
  | slot, .empty, _ => some slot
  | _, .node _ _ _, [] => none
  | _, .node c z _, false :: bits => z.hole (.nxt c false) bits
  | _, .node c _ o, true :: bits => o.hole (.nxt c true) bits

/-- The codes on the path of the given bits, from the top (R123). -/
def Trie.path : Trie → List Bool → List Nat
  | .empty, _ => []
  | .node c _ _, [] => [c]
  | .node c z _, false :: bits => c :: z.path bits
  | .node c _ o, true :: bits => c :: o.path bits

/-- The subtrie that a search branches to (R123). -/
def Trie.child (z o : Trie) : Bool → Trie
  | false => z
  | true => o

theorem Trie.path_cons (c : Nat) (z o : Trie) (bit : Bool) (bits : List Bool) :
    (Trie.node c z o).path (bit :: bits) = c :: (Trie.child z o bit).path bits := by
  cases bit <;> rfl

theorem Trie.hole_cons (slot : Slot) (c : Nat) (z o : Trie) (bit : Bool) (bits : List Bool) :
    (Trie.node c z o).hole slot (bit :: bits) = (Trie.child z o bit).hole (.nxt c bit) bits := by
  cases bit <;> rfl

theorem Trie.mem_path_node (c : Nat) (z o : Trie) (bits : List Bool) :
    c ∈ (Trie.node c z o).path bits := by
  cases bits with
  | nil => exact List.mem_singleton_self c
  | cons bit bits => rw [Trie.path_cons]; exact List.mem_cons_self

theorem Trie.slot_mem_slots (slot : Slot) (t : Trie) : slot ∈ t.slots slot := by
  cases t <;> simp [Trie.slots]

theorem Trie.hole_mem_slots {t : Trie} {slot s : Slot} {bits : List Bool}
    (h : t.hole slot bits = some s) : s ∈ t.slots slot := by
  induction t generalizing slot bits with
  | empty => cases h; exact Trie.slot_mem_slots _ _
  | node c z o ihz iho =>
    match bits with
    | [] => cases h
    | false :: bits => simp [Trie.slots, ihz h]
    | true :: bits => simp [Trie.slots, iho h]

/-- Storage that agrees at every slot of a trie holds it too. -/
theorem EncUnit.slotHolds_congr {u u' : EncUnit} {t : Trie} {slot : Slot}
    (h : ∀ s ∈ t.slots slot, u'.slotContent s = u.slotContent s) (ht : u.slotHolds slot t) :
    u'.slotHolds slot t := by
  induction t generalizing slot with
  | empty => exact (h slot (Trie.slot_mem_slots _ _)).trans ht
  | node c z o ihz iho =>
    obtain ⟨hslot, hz, ho⟩ := ht
    exact ⟨(h slot (Trie.slot_mem_slots _ _)).trans hslot,
      ihz (fun s hs => h s (by simp [Trie.slots, hs])) hz,
      iho (fun s hs => h s (by simp [Trie.slots, hs])) ho⟩

/-- Filling the hole of a path with a code whose own slots are empty inserts that code (R124), in storage where no slot
occurs twice. -/
theorem EncUnit.slotHolds_insert {u u' : EncUnit} {t : Trie} {slot s : Slot} {bits : List Bool}
    {n : Nat} (ht : u.slotHolds slot t) (hole : t.hole slot bits = some s)
    (hnodup : (t.slots slot).Nodup) (hs : u'.slotContent s = some n)
    (hn : ∀ bit, u'.slotContent (.nxt n bit) = none)
    (hframe : ∀ s' ∈ t.slots slot, s' ≠ s → u'.slotContent s' = u.slotContent s') :
    u'.slotHolds slot (t.insert bits n) := by
  induction t generalizing slot bits with
  | empty =>
    cases hole
    exact ⟨hs, hn false, hn true⟩
  | node c z o ihz iho =>
    obtain ⟨hslot, hz, ho⟩ := ht
    simp only [Trie.slots, List.nodup_cons, List.nodup_append', List.mem_append, not_or,
      List.mem_cons, List.Disjoint] at hnodup hframe
    obtain ⟨⟨hslotz, hsloto⟩, hznodup, honodup, hdisj⟩ := hnodup
    match bits with
    | [] => cases hole
    | false :: bits =>
      have hmem : s ∈ z.slots (.nxt c false) := Trie.hole_mem_slots hole
      refine ⟨(hframe slot (.inl rfl) fun e => hslotz (e ▸ hmem)).trans hslot,
        ihz hz hole hznodup fun s' hs' => hframe s' (.inr (.inl hs')),
        EncUnit.slotHolds_congr (fun s' hs' => ?_) ho⟩
      exact hframe s' (.inr (.inr hs')) fun e => hdisj hmem (e ▸ hs')
    | true :: bits =>
      have hmem : s ∈ o.slots (.nxt c true) := Trie.hole_mem_slots hole
      refine ⟨(hframe slot (.inl rfl) fun e => hsloto (e ▸ hmem)).trans hslot,
        EncUnit.slotHolds_congr (fun s' hs' => ?_) hz,
        iho ho hole honodup fun s' hs' => hframe s' (.inr (.inr hs'))⟩
      exact hframe s' (.inr (.inl hs')) fun e => hdisj (e ▸ hs') hmem

/-! ### Insertion into a trie -/

/-- An insertion changes nothing or adds the two slots of the new code. -/
theorem Trie.slots_insert (t : Trie) (slot : Slot) (bits : List Bool) (n : Nat) :
    t.insert bits n = t ∨
      ((t.insert bits n).slots slot).Perm (.nxt n false :: .nxt n true :: t.slots slot) := by
  induction t generalizing slot bits with
  | empty =>
    right
    refine List.perm_iff_count.mpr fun x => ?_
    simp only [Trie.insert, Trie.slots, List.count_cons, List.count_nil, List.count_append]
    omega
  | node c z o ihz iho =>
    match bits with
    | [] => exact .inl rfl
    | false :: bits =>
      refine (ihz (.nxt c false) bits).imp (fun h => by rw [Trie.insert, h]) fun h => ?_
      refine List.perm_iff_count.mpr fun x => ?_
      have := h.count_eq x
      simp only [Trie.insert, Trie.slots, List.count_cons, List.count_append] at this ⊢
      omega
    | true :: bits =>
      refine (iho (.nxt c true) bits).imp (fun h => by rw [Trie.insert, h]) fun h => ?_
      refine List.perm_iff_count.mpr fun x => ?_
      have := h.count_eq x
      simp only [Trie.insert, Trie.slots, List.count_cons, List.count_append] at this ⊢
      omega

/-- What stands on a path stays where it is. -/
theorem Trie.path_insert_of_get {t : Trie} {bits bits' : List Bool} {n i c : Nat}
    (h : (t.path bits')[i]? = some c) : ((t.insert bits n).path bits')[i]? = some c := by
  induction t generalizing bits bits' i with
  | empty => simp [Trie.path] at h
  | node e z o ihz iho =>
    match bits, bits', i with
    | [], _, _ | false :: _, [], _ | true :: _, [], _ | false :: _, true :: _, _
    | true :: _, false :: _, _ | false :: _, false :: _, 0 | true :: _, true :: _, 0 => exact h
    | false :: _, false :: _, i + 1 => exact ihz h
    | true :: _, true :: _, i + 1 => exact iho h

/-- What stands on a path after an insertion stood there before, or is the new code, whose own path agrees down to there. -/
theorem Trie.get_of_path_insert {t : Trie} {bits bits' : List Bool} {n i c : Nat}
    (h : ((t.insert bits n).path bits')[i]? = some c) :
    (t.path bits')[i]? = some c ∨ (c = n ∧ bits.take i = bits'.take i) := by
  induction t generalizing bits bits' i with
  | empty =>
    obtain ⟨rfl, rfl⟩ : i = 0 ∧ n = c := by
      match bits', i with
      | [], 0 | false :: _, 0 | true :: _, 0 => exact ⟨rfl, by simpa [Trie.insert, Trie.path] using h⟩
      | [], i + 1 | false :: _, i + 1 | true :: _, i + 1 => simp [Trie.insert, Trie.path] at h
    exact .inr ⟨rfl, by simp⟩
  | node e z o ihz iho =>
    match bits, bits', i with
    | [], _, _ | false :: _, [], _ | true :: _, [], _ | false :: _, true :: _, _
    | true :: _, false :: _, _ | false :: _, false :: _, 0 | true :: _, true :: _, 0 => exact .inl h
    | false :: _, false :: _, i + 1 => exact (ihz h).imp id fun ⟨hc, hb⟩ => ⟨hc, by simp [hb]⟩
    | true :: _, true :: _, i + 1 => exact (iho h).imp id fun ⟨hc, hb⟩ => ⟨hc, by simp [hb]⟩

/-- After an insertion the code is on its path, unless the path was occupied to its end. -/
theorem Trie.mem_path_insert (t : Trie) (bits : List Bool) (n : Nat) :
    n ∈ (t.insert bits n).path bits ∨ (t.path bits).length = bits.length + 1 := by
  induction t generalizing bits with
  | empty => left; rcases bits with _ | ⟨_ | _, _⟩ <;> simp [Trie.insert, Trie.path]
  | node c z o ihz iho =>
    match bits with
    | [] => exact .inr rfl
    | false :: bits => exact (ihz bits).imp (List.mem_cons_of_mem c) (congrArg (· + 1))
    | true :: bits => exact (iho bits).imp (List.mem_cons_of_mem c) (congrArg (· + 1))

/-! ### The tries of an epoch's entries -/

/-- A byte is its bit 0 and the bits that a search branches on below it (R123). -/
theorem byte_eq_of_branchBits {x y : Byte} (h0 : x.getLsbD 0 = y.getLsbD 0)
    (h : branchBits x = branchBits y) : x = y := by
  refine BitVec.eq_of_getLsbD_eq fun i hi => ?_
  match i with
  | 0 => exact h0
  | i + 1 => exact List.map_inj_left.mp h i (List.mem_range.mpr (by omega))

@[simp] theorem branchBits_length (b : Byte) : (branchBits b).length = 7 := by simp [branchBits]

theorem trieOf_append {m : Byte} {es fs : Entries} {p : Nat} {bit : Bool} :
    ∀ {k : Nat}, k ≤ es.length → trieOf m (es ++ fs) p bit k = trieOf m es p bit k
  | 0, _ => rfl
  | k + 1, hk => by
    simp only [trieOf, Entries.getD_append_left hk, trieOf_append (Nat.le_of_succ_le hk)]

/-- The entry at an index belongs to the trie below slot `ROOT[p][bit]` (R122). -/
def BelongsTo (es : Entries) (p : Nat) (bit : Bool) (k : Nat) : Prop :=
  (es.getD k (0, 0#8)).1 = p ∧ (es.getD k (0, 0#8)).2.getLsbD 0 = bit

theorem trieOf_succ_of_belongs {m : Byte} {es : Entries} {p : Nat} {bit : Bool} {k : Nat}
    (h : BelongsTo es p bit k) :
    trieOf m es p bit (k + 1) = (trieOf m es p bit k).insert
      (branchBits (es.getD k (0, 0#8)).2) (emptyCount m + k) := by
  rw [trieOf]
  exact if_pos h

theorem trieOf_succ_of_not {m : Byte} {es : Entries} {p : Nat} {bit : Bool} {k : Nat}
    (h : ¬ BelongsTo es p bit k) : trieOf m es p bit (k + 1) = trieOf m es p bit k := by
  rw [trieOf]
  exact if_neg h

theorem mem_slots_trieOf {m : Byte} {es : Entries} {p : Nat} {bit : Bool} {s : Slot} :
    ∀ {k : Nat}, s ∈ (trieOf m es p bit k).slots (.root p bit) →
      s = .root p bit ∨ ∃ j < k, BelongsTo es p bit j ∧ ∃ b, s = .nxt (emptyCount m + j) b
  | 0, h => .inl (List.mem_singleton.mp h)
  | k + 1, h => by
    have old : s ∈ (trieOf m es p bit k).slots (.root p bit) →
        s = .root p bit ∨ ∃ j < k + 1, BelongsTo es p bit j ∧ ∃ b, s = .nxt (emptyCount m + j) b :=
      fun h => (mem_slots_trieOf h).imp id fun ⟨j, hj, hjs⟩ => ⟨j, by omega, hjs⟩
    by_cases hk : BelongsTo es p bit k
    · rw [trieOf_succ_of_belongs hk] at h
      obtain hsame | hperm := (trieOf m es p bit k).slots_insert (.root p bit)
        (branchBits (es.getD k (0, 0#8)).2) (emptyCount m + k)
      · exact old (hsame ▸ h)
      · obtain rfl | rfl | h := by simpa using hperm.mem_iff.mp h
        · exact .inr ⟨k, k.lt_succ_self, hk, false, rfl⟩
        · exact .inr ⟨k, k.lt_succ_self, hk, true, rfl⟩
        · exact old h
    · exact old (trieOf_succ_of_not hk ▸ h)

/-- No slot of a trie of the entries occurs twice. -/
theorem slots_trieOf_nodup {m : Byte} {es : Entries} {p : Nat} {bit : Bool} :
    ∀ {k : Nat}, ((trieOf m es p bit k).slots (.root p bit)).Nodup
  | 0 => List.nodup_singleton _
  | k + 1 => by
    have ih := slots_trieOf_nodup (m := m) (es := es) (p := p) (bit := bit) (k := k)
    by_cases hk : BelongsTo es p bit k
    · rw [trieOf_succ_of_belongs hk]
      obtain hsame | hperm := (trieOf m es p bit k).slots_insert (.root p bit)
        (branchBits (es.getD k (0, 0#8)).2) (emptyCount m + k)
      · rw [hsame]
        exact ih
      · have fresh : ∀ b, Slot.nxt (emptyCount m + k) b ∉
            (trieOf m es p bit k).slots (.root p bit) := by
          intro b hb
          obtain h | ⟨j, hj, -, b', h⟩ := mem_slots_trieOf hb
          · cases h
          · obtain ⟨h, -⟩ := Slot.nxt.inj h
            omega
        rw [hperm.nodup_iff]
        simpa using ⟨fresh false, fresh true, ih⟩
    · rw [trieOf_succ_of_not hk]
      exact ih

/-- The code at a level of a path belongs to the trie, and its own path agrees down to there (R122). -/
theorem get_path_trieOf {m : Byte} {es : Entries} {p : Nat} {bit : Bool} {bits : List Bool}
    {i c : Nat} : ∀ {k : Nat}, ((trieOf m es p bit k).path bits)[i]? = some c →
      ∃ j < k, c = emptyCount m + j ∧ BelongsTo es p bit j ∧
        (branchBits (es.getD j (0, 0#8)).2).take i = bits.take i
  | 0, h => by simp [trieOf, Trie.path] at h
  | k + 1, h => by
    have old : ((trieOf m es p bit k).path bits)[i]? = some c →
        ∃ j < k + 1, c = emptyCount m + j ∧ BelongsTo es p bit j ∧
          (branchBits (es.getD j (0, 0#8)).2).take i = bits.take i :=
      fun h => (get_path_trieOf h).imp fun j ⟨hj, hjs⟩ => ⟨by omega, hjs⟩
    by_cases hk : BelongsTo es p bit k
    · rw [trieOf_succ_of_belongs hk] at h
      obtain h | ⟨rfl, hb⟩ := Trie.get_of_path_insert h
      · exact old h
      · exact ⟨k, k.lt_succ_self, rfl, hk, hb⟩
    · exact old (trieOf_succ_of_not hk ▸ h)

/-- Every entry is on its own path: no insertion finds its path occupied to the end, since that would take an entry equal to
the new one (R115, R122). -/
theorem mem_path_trieOf {m : Byte} {es : Entries} {p : Nat} {bit : Bool} (hes : EntriesOk m es)
    {j : Nat} (hj : BelongsTo es p bit j) : ∀ {k : Nat}, k ≤ es.length → j < k →
      emptyCount m + j ∈ (trieOf m es p bit k).path (branchBits (es.getD j (0, 0#8)).2)
  | k + 1, hk, hjk => by
    obtain hjk | rfl := Nat.lt_succ_iff_lt_or_eq.mp hjk
    · have ih := mem_path_trieOf hes hj (Nat.le_of_succ_le hk) hjk
      by_cases hb : BelongsTo es p bit k
      · rw [trieOf_succ_of_belongs hb]
        obtain ⟨i, hi⟩ := List.mem_iff_getElem?.mp ih
        exact List.mem_iff_getElem?.mpr ⟨i, Trie.path_insert_of_get hi⟩
      · rw [trieOf_succ_of_not hb]
        exact ih
    · rw [trieOf_succ_of_belongs hj]
      refine (Trie.mem_path_insert _ _ _).resolve_right fun hfull => ?_
      rw [branchBits_length] at hfull
      obtain ⟨c, hc⟩ : ∃ c, ((trieOf m es p bit j).path
          (branchBits (es.getD j (0, 0#8)).2))[7]? = some c :=
        ⟨_, List.getElem?_eq_getElem (by omega)⟩
      obtain ⟨j', hj', -, ⟨hp', hbit'⟩, hbits⟩ := get_path_trieOf hc
      rw [List.take_of_length_le (by simp), List.take_of_length_le (by simp)] at hbits
      have hbyte := byte_eq_of_branchBits (hbit'.trans hj.2.symm) hbits
      have := hes.index_unique (by omega) (by omega) (Prod.ext (hp'.trans hj.1.symm) hbyte)
      omega

/-! ### The search and the insertion in storage -/

theorem EncUnit.readSlot_eq_ok {u : EncUnit} {slot : Slot} {e : Option Nat}
    (h : u.readSlot slot = .ok e) : u.slotContent slot = e := by
  cases slot <;> exact (memRead_eq_ok.mp h).2

/-- A search that comes to an empty slot ends there (R123). -/
theorem EncUnit.trieWalk_of_none {u : EncUnit} {b : Byte} {bits : List Bool} {slot : Slot}
    {r : TrieResult} (hs : u.slotContent slot = none) (h : u.trieWalk b bits slot = .ok r) :
    r = .notFound slot := by
  cases bits <;> obtain ⟨e, he, h⟩ := bind_eq_ok.mp h <;>
    obtain rfl := hs.symm.trans (EncUnit.readSlot_eq_ok he) <;>
    exact (pure_eq_ok.mp h).symm

/-- A search that comes to a node finds the byte there, or branches on its next bit (R123). -/
theorem EncUnit.trieWalk_of_some {u : EncUnit} {b : Byte} {bits : List Bool} {slot : Slot} {c : Nat}
    {r : TrieResult} (hs : u.slotContent slot = some c) (h : u.trieWalk b bits slot = .ok r) :
    (Memory.read unlistedByte u.bytev c = b ∧ r = .found c) ∨
    (Memory.read unlistedByte u.bytev c ≠ b ∧
      ∃ bit rest, bits = bit :: rest ∧ u.trieWalk b rest (.nxt c bit) = .ok r) := by
  cases bits with
  | nil =>
    obtain ⟨e, he, h⟩ := bind_eq_ok.mp h
    obtain rfl := hs.symm.trans (EncUnit.readSlot_eq_ok he)
    obtain ⟨y, hy, h⟩ := bind_eq_ok.mp h
    obtain ⟨_, rfl⟩ := EncUnit.readBytev_eq_ok.mp hy
    split at h
    · exact .inl ⟨‹_›, (pure_eq_ok.mp h).symm⟩
    · cases h
  | cons bit rest =>
    obtain ⟨e, he, h⟩ := bind_eq_ok.mp h
    obtain rfl := hs.symm.trans (EncUnit.readSlot_eq_ok he)
    obtain ⟨y, hy, h⟩ := bind_eq_ok.mp h
    obtain ⟨_, rfl⟩ := EncUnit.readBytev_eq_ok.mp hy
    split at h
    · exact .inl ⟨‹_›, (pure_eq_ok.mp h).symm⟩
    · exact .inr ⟨‹_›, bit, rest, rfl, h⟩

/-- What a search answers in a trie: a code on its path with the byte, or the hole of a path without the byte. -/
def TrieSearchMeans (u : EncUnit) (t : Trie) (slot : Slot) (b : Byte) (bits : List Bool) :
    TrieResult → Prop
  | .found c => c ∈ t.path bits ∧ Memory.read unlistedByte u.bytev c = b
  | .notFound s => t.hole slot bits = some s ∧
      ∀ c ∈ t.path bits, Memory.read unlistedByte u.bytev c ≠ b

theorem EncUnit.trieWalk_means {u : EncUnit} {t : Trie} {slot : Slot} {b : Byte} {bits : List Bool}
    {r : TrieResult} (ht : u.slotHolds slot t) (h : u.trieWalk b bits slot = .ok r) :
    TrieSearchMeans u t slot b bits r := by
  induction t generalizing slot bits with
  | empty =>
    obtain rfl := EncUnit.trieWalk_of_none ht h
    exact ⟨rfl, fun c hc => by cases hc⟩
  | node c z o ihz iho =>
    obtain ⟨hslot, hz, ho⟩ := ht
    obtain ⟨hb, rfl⟩ | ⟨hb, bit, rest, rfl, hrest⟩ := EncUnit.trieWalk_of_some hslot h
    · exact ⟨Trie.mem_path_node .., hb⟩
    · have ih : TrieSearchMeans u (Trie.child z o bit) (.nxt c bit) b rest r := by
        cases bit with
        | false => exact ihz hz hrest
        | true => exact iho ho hrest
      cases r with
      | found e => exact ⟨Trie.path_cons .. ▸ List.mem_cons_of_mem c ih.1, ih.2⟩
      | notFound s =>
        exact ⟨(Trie.hole_cons ..).trans ih.1,
          Trie.path_cons .. ▸ List.forall_mem_cons.mpr ⟨hb, ih.2⟩⟩

/-- What `TrieLookup` answers: the code of the entry, or that the pair is new and the hole where it belongs (R112, R123). -/
def TrieLookupMeans (m : Byte) (es : Entries) (p : Nat) (b : Byte) : TrieResult → Prop
  | .found c => SearchMeans m es p b (.found c)
  | .notFound s => SearchMeans m es p b .notFound ∧
      (trieOf m es p (b.getLsbD 0) es.length).hole (.root p (b.getLsbD 0)) (branchBits b) = some s

theorem EncUnit.trieLookup_means {u : EncUnit} {es : Entries} {p : Nat} {b : Byte} {r : TrieResult}
    (hd : DictHolds u es) (ht : TrieHolds u es) (hp : p < u.count) (heos : p ≠ eosCode u.maxb)
    (h : u.trieLookup p b = .ok r) : TrieLookupMeans u.maxb es p b r := by
  have hmeans := EncUnit.trieWalk_means (ht p (hd.count ▸ hp) heos (b.getLsbD 0)) h
  cases r with
  | found c =>
    obtain ⟨hpath, hb⟩ := hmeans
    obtain ⟨i, hi⟩ := List.mem_iff_getElem?.mp hpath
    obtain ⟨j, hj, rfl, ⟨hjp, -⟩, -⟩ := get_path_trieOf hi
    exact ⟨j, hj, rfl, Prod.ext hjp ((hd.bytev j hj).symm.trans hb)⟩
  | notFound s =>
    obtain ⟨hole, hpath⟩ := hmeans
    refine ⟨fun hmem => ?_, hole⟩
    obtain ⟨j, hj, he⟩ := Entries.mem_iff.mp hmem
    have hjpath := mem_path_trieOf hd.entries (p := p) (bit := b.getLsbD 0) (j := j)
      ⟨by rw [he], by rw [he]⟩ le_rfl hj
    rw [he] at hjpath
    exact hpath _ hjpath (by rw [hd.bytev j hj, he])

/-- What a write of a slot leaves: only that slot has changed, and every memory is canonical still. -/
structure SlotWritten (u u' : EncUnit) (slot : Slot) (e : Option Nat) : Prop where
  bytev : u'.bytev = u.bytev
  memories : u'.memoriesWf = true
  content : ∀ s, u'.slotContent s = if s = slot then e else u.slotContent s

theorem EncUnit.writeSlot_written {u u' : EncUnit} {slot : Slot} {e : Option Nat}
    (h : u.writeSlot slot e = .ok u') (hm : u.memoriesWf = true) : SlotWritten u u' slot e := by
  obtain ⟨hstage, hbytev, hfirst, hsib, hroot, hnxt⟩ := EncUnit.memoriesWf_iff.mp hm
  cases slot with
  | root c b =>
    obtain ⟨_, rfl⟩ := EncUnit.writeSlot_root_eq_ok.mp h
    refine ⟨rfl, EncUnit.memoriesWf_iff.mpr
      ⟨hstage, hbytev, hfirst, hsib, Memory.wf_write _ _ _ _ hroot, hnxt⟩, fun s => ?_⟩
    cases s with
    | root c' b' => simp [EncUnit.slotContent, Memory.read_write _ _ _ _ _ hroot, slotIndex_inj]
    | nxt c' b' => simp [EncUnit.slotContent]
  | nxt c b =>
    obtain ⟨_, rfl⟩ := EncUnit.writeSlot_nxt_eq_ok.mp h
    refine ⟨rfl, EncUnit.memoriesWf_iff.mpr
      ⟨hstage, hbytev, hfirst, hsib, hroot, Memory.wf_write _ _ _ _ hnxt⟩, fun s => ?_⟩
    cases s with
    | root c' b' => simp [EncUnit.slotContent]
    | nxt c' b' => simp [EncUnit.slotContent, Memory.read_write _ _ _ _ _ hnxt, slotIndex_inj]

/-- The slots of a code are its two ROOT slots and its two NXT slots (R122). -/
theorem Slot.code_eq_iff {s : Slot} {n : Nat} : s.code = n ↔
    s = .nxt n true ∨ s = .nxt n false ∨ s = .root n true ∨ s = .root n false := by
  cases s with
  | root c b => cases b <;> simp [Slot.code]
  | nxt c b => cases b <;> simp [Slot.code]

/-- Everything an insertion into TRIE storage can do: it writes the byte of the new code, empties that code's slots and puts
it into the given slot (R124). -/
structure TrieInserted (u u' : EncUnit) (b : Byte) (slot : Slot) : Prop where
  bytev : u'.bytev = Memory.write unlistedByte u.bytev u.count b
  memories : u'.memoriesWf = true
  content : ∀ s, u'.slotContent s =
    if s = slot then some u.count else if s.code = u.count then none else u.slotContent s

theorem EncUnit.trieInsert_inserted {u u' : EncUnit} {b : Byte} {slot : Slot}
    (h : u.trieInsert b slot = .ok u') (hm : u.memoriesWf = true) : TrieInserted u u' b slot := by
  obtain ⟨u0, h0, h⟩ := bind_eq_ok.mp h
  obtain ⟨u1, h1, h⟩ := bind_eq_ok.mp h
  obtain ⟨u2, h2, h⟩ := bind_eq_ok.mp h
  obtain ⟨u3, h3, h⟩ := bind_eq_ok.mp h
  obtain ⟨u4, h4, h⟩ := bind_eq_ok.mp h
  obtain ⟨u5, h5, h⟩ := bind_eq_ok.mp h
  obtain rfl := pure_eq_ok.mp h
  obtain ⟨hstage, hbytev, hlinks⟩ := EncUnit.memoriesWf_iff.mp hm
  obtain ⟨_, e0⟩ := EncUnit.writeBytev_eq_ok.mp h0
  have w0 : u0.memoriesWf = true := by
    rw [e0, EncUnit.memoriesWf_iff]
    exact ⟨hstage, Memory.wf_write _ _ _ _ hbytev, hlinks⟩
  have c0 (s : Slot) : u0.slotContent s = u.slotContent s := by rw [e0]; cases s <;> rfl
  obtain ⟨b1, w1, c1⟩ := EncUnit.writeSlot_written h1 w0
  obtain ⟨b2, w2, c2⟩ := EncUnit.writeSlot_written h2 w1
  obtain ⟨b3, w3, c3⟩ := EncUnit.writeSlot_written h3 w2
  obtain ⟨b4, w4, c4⟩ := EncUnit.writeSlot_written h4 w3
  obtain ⟨b5, w5, c5⟩ := EncUnit.writeSlot_written h5 w4
  refine ⟨?_, w5, fun s => (c5 s).trans ?_⟩
  · change u5.bytev = _
    rw [b5, b4, b3, b2, b1, e0]
  · simp only [c4, c3, c2, c1, c0, Slot.code_eq_iff, ite_or]

/-- The slots of a trie of the entries belong to codes already created. -/
theorem code_lt_of_mem_slots {m : Byte} {es : Entries} {p k n : Nat} {bit : Bool} {s : Slot}
    (hp : p < n) (hk : emptyCount m + k ≤ n)
    (h : s ∈ (trieOf m es p bit k).slots (.root p bit)) : s.code < n := by
  obtain rfl | ⟨j, hj, -, b, rfl⟩ := mem_slots_trieOf h
  · exact hp
  · change emptyCount m + j < n
    omega

/-- Two tries of the entries share no slot. -/
theorem trieOf_slots_disjoint {m : Byte} {es : Entries} {p p' k k' : Nat} {bit bit' : Bool}
    {s : Slot} (h : s ∈ (trieOf m es p bit k).slots (.root p bit))
    (h' : s ∈ (trieOf m es p' bit' k').slots (.root p' bit')) : p = p' ∧ bit = bit' := by
  obtain rfl | ⟨j, -, ⟨hp, hbit⟩, b, rfl⟩ := mem_slots_trieOf h
  · obtain h' | ⟨j, -, -, b, h'⟩ := mem_slots_trieOf h'
    · exact Slot.root.inj h'
    · cases h'
  · obtain h' | ⟨j', -, ⟨hp', hbit'⟩, b', h'⟩ := mem_slots_trieOf h'
    · cases h'
    · obtain rfl : j = j' := Nat.add_left_cancel (Slot.nxt.inj h').1
      exact ⟨hp.symm.trans hp', hbit.symm.trans hbit'⟩

/-- The code of a new entry has no child yet. -/
theorem EntriesOk.trieOf_new {m : Byte} {es : Entries} (h : EntriesOk m es) {bit : Bool} :
    ∀ {k : Nat}, k ≤ es.length → trieOf m es (emptyCount m + es.length) bit k = .empty
  | 0, _ => rfl
  | k + 1, hk => by
    rw [trieOf_succ_of_not fun hb => by have := h.prefixLower k hk; have := hb.1; omega]
    exact h.trieOf_new (Nat.le_of_succ_le hk)

/-- An insertion into TRIE storage at the hole of the new entry's path makes it hold that entry too (R122 to R124). -/
theorem EncUnit.trieInsert_holds {u u' : EncUnit} {es : Entries} {p : Nat} {b : Byte} {slot : Slot}
    (hd : DictHolds u es) (ht : TrieHolds u es) (hm : u.memoriesWf = true) (hp : p < u.count)
    (heos : p ≠ eosCode u.maxb)
    (hole : (trieOf u.maxb es p (b.getLsbD 0) es.length).hole (.root p (b.getLsbD 0))
      (branchBits b) = some slot)
    (h : u.trieInsert b slot = .ok u') : TrieHolds u' (es ++ [(p, b)]) := by
  have hcount := hd.count
  have content := (EncUnit.trieInsert_inserted h hm).content
  obtain ⟨-, -, hmaxb⟩ := (EncUnit.trieInsert_frame h).1.stream
  have hslot := Trie.hole_mem_slots hole
  have slot_ne {s : Slot} (hs : s.code = u.count) : s ≠ slot := by
    rintro rfl
    exact (code_lt_of_mem_slots hp hcount.ge hslot).ne hs
  have old {s : Slot} {q : Nat} {bit : Bool} (hq : q < u.count)
      (hs : s ∈ (trieOf u.maxb es q bit es.length).slots (.root q bit)) (hne : s ≠ slot) :
      u'.slotContent s = u.slotContent s := by
    rw [content, if_neg hne, if_neg (code_lt_of_mem_slots hq hcount.ge hs).ne]
  intro q hq hqeos bit
  rw [hmaxb, List.length_append, List.length_singleton] at *
  by_cases hnew : BelongsTo (es ++ [(p, b)]) q bit es.length
  · rw [trieOf_succ_of_belongs hnew, trieOf_append le_rfl, Entries.getD_append_length]
    rw [BelongsTo, Entries.getD_append_length] at hnew
    obtain ⟨rfl, rfl⟩ := hnew
    refine EncUnit.slotHolds_insert (ht p (hcount ▸ hp) heos _) hole slots_trieOf_nodup ?_ ?_
      fun s hs => old hp hs
    · rw [content, if_pos rfl, hcount]
    · intro bit
      have hcode : (Slot.nxt (emptyCount u.maxb + es.length) bit).code = u.count := hcount.symm
      rw [content, if_neg (slot_ne hcode), if_pos hcode]
  · rw [trieOf_succ_of_not hnew, trieOf_append le_rfl]
    rw [BelongsTo, Entries.getD_append_length] at hnew
    by_cases hqn : q = u.count
    · rw [hqn, hcount, hd.entries.trieOf_new le_rfl, ← hcount]
      have hcode : (Slot.root u.count bit).code = u.count := rfl
      change u'.slotContent _ = none
      rw [content, if_neg (slot_ne hcode), if_pos hcode]
    · have hq : q < u.count := by omega
      refine EncUnit.slotHolds_congr (fun s hs => old hq hs ?_) (ht q (hcount ▸ hq) hqeos bit)
      rintro rfl
      exact hnew (trieOf_slots_disjoint hslot hs)

end Sys2Proof.Machine
end

section
/-! PROOF. `DictAdd` and `DictReset` over storage that holds the entries of an epoch, whichever strategy the encoder is built
with (40_dictionary.md R112 to R116, R121, R125). -/

namespace Sys2Proof.Machine

/-- The two units have the same build, the same `MAXB`, and the same dictionary (R30, R117). -/
structure SameDict (u u' : EncUnit) : Prop where
  build : u'.build = u.build
  maxb : u'.maxb = u.maxb
  count : u'.count = u.count
  bytev : u'.bytev = u.bytev
  first : u'.first = u.first
  sib : u'.sib = u.sib
  root : u'.root = u.root
  nxt : u'.nxt = u.nxt

theorem PackerFrame.sameDict {u u' : EncUnit} (h : PackerFrame u u') : SameDict u u' := by
  rw [PackerFrame] at h
  rw [h]
  exact ⟨rfl, rfl, rfl, rfl, rfl, rfl, rfl, rfl⟩

/-- The entries that a dictionary holds depend on the dictionary only. -/
theorem DictHolds.congr {u u' : EncUnit} {es : Entries} (h : DictHolds u es) (e : SameDict u u') :
    DictHolds u' es := by
  have content (s : Slot) : u'.slotContent s = u.slotContent s := by
    cases s <;> simp only [EncUnit.slotContent, e.root, e.nxt]
  refine ⟨?_, ?_, ?_, ?_, ?_, fun hs => ⟨?_, ?_⟩, fun hs p hp heos bit => ?_⟩
  · rw [e.maxb, e.build]; exact h.fits
  · rw [e.count, e.maxb]; exact h.count
  · rw [e.count, e.build]; exact h.countLe
  · rw [e.maxb]; exact h.entries
  · rw [e.bytev, e.maxb]; exact h.bytev
  · rw [e.first, e.maxb]; exact (h.list (e.build ▸ hs)).first
  · rw [e.sib, e.maxb]; exact (h.list (e.build ▸ hs)).sib
  · rw [e.maxb] at hp heos ⊢
    exact EncUnit.slotHolds_congr (fun s _ => content s) (h.trie (e.build ▸ hs) p hp heos bit)

/-- A dictionary with one entry more: what both strategies' insertions have in common (R112). -/
theorem DictHolds.insert {u u' : EncUnit} {es : Entries} {p : Nat} {b : Byte} (h : DictHolds u es)
    (hm : u.memoriesWf = true) (hframe : DictFrame u u' ∧ u'.count = u.count + 1)
    (hbytev : u'.bytev = Memory.write unlistedByte u.bytev u.count b)
    (hroom : u.count + 1 ≤ u.build.cap) (hentries : EntriesOk u.maxb (es ++ [(p, b)]))
    (hlist : u.build.strategy = .list → ListHolds u' (es ++ [(p, b)]))
    (htrie : u.build.strategy = .trie → TrieHolds u' (es ++ [(p, b)])) :
    DictHolds u' (es ++ [(p, b)]) := by
  obtain ⟨hframe, hcount⟩ := hframe
  obtain ⟨hbuild, -, hmaxb⟩ := hframe.stream
  obtain ⟨-, hbwf, -⟩ := EncUnit.memoriesWf_iff.mp hm
  refine ⟨?_, ?_, ?_, hmaxb ▸ hentries, fun k hk => ?_, hbuild ▸ hlist, hbuild ▸ htrie⟩
  · rw [hmaxb, hbuild]; exact h.fits
  · rw [hcount, hmaxb, h.count, List.length_append, List.length_singleton, Nat.add_assoc]
  · rw [hcount, hbuild]; exact hroom
  · rw [hbytev, hmaxb, Memory.read_write _ _ _ _ _ hbwf, h.count]
    rw [List.length_append, List.length_singleton] at hk
    obtain hk | rfl := Nat.lt_succ_iff_lt_or_eq.mp hk
    · rw [if_neg (by omega), Entries.getD_append_left hk]
      exact h.bytev k hk
    · rw [if_pos rfl, Entries.getD_append_length]

/-- What `DictAdd` with a prefix comes to: the entry's code and no change, or an entry more (R112, R116). -/
def AddMeans (u u' : EncUnit) (es : Entries) (p : Nat) (b : Byte) (r : DictResult) : Prop :=
  SearchMeans u.maxb es p b r ∧
    match r with
    | .found _ => u' = u
    | .notFound => u'.memoriesWf = true ∧ DictHolds u' (es ++ [(p, b)])

/-- `DictAdd` by either strategy, for a prefix that is a code other than `EOS` and a byte in range, with room for an entry
(R112, R121, R125). -/
theorem EncUnit.dictAdd_means {u u' : EncUnit} {es : Entries} {p : Nat} {b : Byte} {r : DictResult}
    (hd : DictHolds u es) (hm : u.memoriesWf = true) (hroom : u.count + 1 ≤ u.build.cap)
    (hp : p < u.count) (heos : p ≠ eosCode u.maxb) (hb : b ≤ u.maxb)
    (h : u.dictAdd (some p) b = .ok (r, u')) : AddMeans u u' es p b r := by
  have entries (hnew : (p, b) ∉ es) : EntriesOk u.maxb (es ++ [(p, b)]) :=
    hd.entries.append (hd.count ▸ hp) heos hb hnew
  cases hs : u.build.strategy with
  | list =>
    simp only [EncUnit.dictAdd, hs] at h
    obtain ⟨a, ha, h⟩ := bind_eq_ok.mp h
    have hmeans := EncUnit.listLookup_means hd (hd.list hs) hp heos ha
    cases a with
    | found c =>
      cases h
      exact ⟨hmeans, rfl⟩
    | notFound =>
      obtain ⟨v, hi, h⟩ := bind_eq_ok.mp h
      cases h
      exact ⟨hmeans, EncUnit.listInsert_memoriesWf hi hm,
        hd.insert hm (EncUnit.listInsert_frame hi) (by rw [EncUnit.listInsert_eq_ok hi]) hroom
          (entries hmeans) (fun _ => EncUnit.listInsert_holds hd (hd.list hs) hm hp heos hi)
          fun ht => by rw [hs] at ht; cases ht⟩
  | trie =>
    simp only [EncUnit.dictAdd, hs] at h
    obtain ⟨a, ha, h⟩ := bind_eq_ok.mp h
    have hmeans := EncUnit.trieLookup_means hd (hd.trie hs) hp heos ha
    cases a with
    | found c =>
      cases h
      exact ⟨hmeans, rfl⟩
    | notFound slot =>
      obtain ⟨hnew, hole⟩ := hmeans
      obtain ⟨v, hi, h⟩ := bind_eq_ok.mp h
      cases h
      have hins := EncUnit.trieInsert_inserted hi hm
      exact ⟨hnew, hins.memories,
        hd.insert hm (EncUnit.trieInsert_frame hi) hins.bytev hroom (entries hnew)
          (fun ht => by rw [hs] at ht; cases ht)
          fun _ => EncUnit.trieInsert_holds hd (hd.trie hs) hm hp heos hole hi⟩

/-! ### The start of an epoch -/

theorem EncUnit.dictReset_memoriesWf {u : EncUnit} (hm : u.memoriesWf = true) :
    u.dictReset.memoriesWf = true := by
  obtain ⟨hstage, hbytev, hfirst, hsib, hroot, hnxt⟩ := EncUnit.memoriesWf_iff.mp hm
  unfold EncUnit.dictReset
  rw [EncUnit.memoriesWf_iff]
  split
  · exact ⟨hstage, hbytev, Memory.wf_clearBelow _ _ _ hfirst, hsib, hroot, hnxt⟩
  · exact ⟨hstage, hbytev, hfirst, hsib, Memory.wf_clearBelow _ _ _ hroot, hnxt⟩

theorem EncUnit.first_dictReset {u : EncUnit} (h : u.build.strategy = .list) :
    u.dictReset.first = Memory.clearBelow (literalCount u.maxb) u.first := by
  rw [EncUnit.dictReset, h]

theorem EncUnit.root_dictReset {u : EncUnit} (h : u.build.strategy = .trie) :
    u.dictReset.root = Memory.clearBelow (2 * literalCount u.maxb) u.root := by
  rw [EncUnit.dictReset, h]

/-- A code below `N0` other than `EOS` is a literal (R8). -/
theorem lt_literalCount {m : Byte} {c : Nat} (h : c < emptyCount m) (heos : c ≠ eosCode m) :
    c < literalCount m := by
  simp only [emptyCount, eosCode, literalCount] at *
  omega

/-- After `DictReset` the dictionary is empty: no literal has a child (R114). -/
theorem EncUnit.dictReset_holds {u : EncUnit} (hfits : u.maxb.toNat + 3 ≤ u.build.cap) :
    DictHolds u.dictReset [] where
  fits := by simpa using hfits
  count := by simp
  countLe := by simp only [count_dictReset, build_dictReset, emptyCount]; omega
  entries := EntriesOk.nil _
  bytev := by simp
  list hs := by
    rw [build_dictReset] at hs
    refine ⟨fun p hp heos => ?_, by simp⟩
    rw [maxb_dictReset] at hp heos
    rw [EncUnit.first_dictReset hs, Memory.read_clearBelow, if_pos (lt_literalCount hp heos)]
    rfl
  trie hs p hp heos bit := by
    rw [build_dictReset] at hs
    rw [maxb_dictReset] at hp heos
    have hindex : slotIndex p bit < 2 * literalCount u.maxb := by
      have := lt_literalCount hp heos
      have := Bool.toNat_le bit
      simp only [slotIndex]
      omega
    change Memory.read unlistedLink u.dictReset.root (slotIndex p bit) = none
    rw [EncUnit.root_dictReset hs, Memory.read_clearBelow, if_pos hindex]
    rfl

end Sys2Proof.Machine
end

section
/-! PROOF. The encoder keeps its invariant (41_encoder.md, 10_state.md R45). -/

namespace Sys2Proof.Machine

/-! ### The bit packer -/

/-- The bit packer between two bits: its cursor in range, its buffer canonical (R28, R29). -/
structure PackerOk (u : EncUnit) : Prop where
  cursor : CursorOk u
  stage : Memory.wf unlistedByte u.stage = true

/-- A bit put at position `off` of a byte with nothing from there on leaves nothing above it. -/
theorem addBit_cur_lt {u : EncUnit} (h : u.cur.toNat < 2 ^ u.off) (bit : Bool) :
    (u.addBit bit).cur.toNat < 2 ^ (u.addBit bit).off := by
  have hbit : bit.toNat <<< u.off < 2 ^ (u.off + 1) := by
    have := Bool.toNat_le bit
    have := Nat.two_pow_pos u.off
    rw [Nat.shiftLeft_eq, Nat.pow_succ]
    nlinarith
  have hcur : u.cur.toNat < 2 ^ (u.off + 1) := h.trans (Nat.pow_lt_pow_succ (by decide))
  simp only [EncUnit.addBit, BitVec.toNat_or, BitVec.toNat_ofNat]
  exact Nat.or_lt_two_pow hcur ((Nat.mod_le _ _).trans_lt hbit)

theorem EncUnit.commitByte_stage_wf {u u' : EncUnit} (h : u.commitByte = .ok u')
    (hs : Memory.wf unlistedByte u.stage = true) : Memory.wf unlistedByte u'.stage = true := by
  obtain ⟨-, rfl⟩ := EncUnit.commitByte_eq_ok.mp h
  exact Memory.wf_write _ _ _ _ hs

/-- After a byte is committed and a full buffer delivered, there is room in the buffer again (R140, R141). -/
theorem EncUnit.commitByte_flushFull_packerOk {u v : EncUnit} (h : u.commitByte = .ok v)
    (hs : Memory.wf unlistedByte u.stage = true) : PackerOk v.flushFull := by
  have hstage := EncUnit.commitByte_stage_wf h hs
  obtain ⟨hpos, rfl⟩ := EncUnit.commitByte_eq_ok.mp h
  unfold EncUnit.flushFull
  split
  · exact ⟨⟨Nat.zero_le 7, Nat.one_pos, Nat.zero_lt_of_lt hpos⟩, hstage⟩
  · rename_i hne
    exact ⟨⟨Nat.zero_le 7, Nat.one_pos, Nat.lt_of_le_of_ne hpos hne⟩, hstage⟩

theorem EncUnit.emitBit_packerOk {u u' : EncUnit} {bit : Bool} (hu : PackerOk u)
    (h : u.emitBit bit = .ok u') : PackerOk u' := by
  obtain ⟨⟨hoff, hcur, hpos⟩, hstage⟩ := hu
  obtain ⟨hoff7, rfl⟩ | ⟨-, v, hv, rfl⟩ := EncUnit.emitBit_eq_ok.mp h
  · exact ⟨⟨by simp only [EncUnit.addBit]; omega, addBit_cur_lt hcur bit, hpos⟩, hstage⟩
  · exact EncUnit.commitByte_flushFull_packerOk hv hstage

theorem EncUnit.emitBits_packerOk {bits : List Bool} {u u' : EncUnit} (hu : PackerOk u)
    (h : u.emitBits bits = .ok u') : PackerOk u' := by
  induction bits generalizing u with
  | nil => cases h; exact hu
  | cons bit bits ih =>
    obtain ⟨v, hv, h⟩ := bind_eq_ok.mp h
    exact ih (EncUnit.emitBit_packerOk hu hv) h

theorem EncUnit.emit_packerOk {u u' : EncUnit} {v w : Nat} (hu : PackerOk u)
    (h : u.emit v w = .ok u') : PackerOk u' := EncUnit.emitBits_packerOk hu h

/-- An operation of the bit packer writes no memory but its buffer. -/
theorem PackerFrame.memoriesWf {u u' : EncUnit} (h : PackerFrame u u')
    (hs : Memory.wf unlistedByte u'.stage = true) (hm : u.memoriesWf = true) :
    u'.memoriesWf = true := by
  obtain ⟨-, hrest⟩ := EncUnit.memoriesWf_iff.mp hm
  rw [PackerFrame] at h
  rw [h, EncUnit.memoriesWf_iff]
  exact ⟨hs, hrest⟩

/-- What `EMIT` and the steps of `ENC.FINAL` keep, from one unit to a later one: the bit packer and the canonical memories, the
registers that only INIT writes, and `ENC.idx`. -/
structure PackerStep (u u' : EncUnit) : Prop where
  packer : PackerOk u'
  memories : u'.memoriesWf = true
  stream : StreamFrame u u'
  idx : u'.idx = u.idx

theorem PackerStep.trans {u v x : EncUnit} (h : PackerStep u v) (h' : PackerStep v x) :
    PackerStep u x :=
  ⟨h'.packer, h'.memories, h.stream.trans h'.stream, h'.idx.trans h.idx⟩

theorem PackerOk.of_cursor {u : EncUnit} (hc : CursorOk u) (hm : u.memoriesWf = true) : PackerOk u :=
  ⟨hc, (EncUnit.memoriesWf_iff.mp hm).1⟩

theorem PackerFrame.registers {u u' : EncUnit} (h : PackerFrame u u') :
    u'.idx = u.idx ∧ u'.w = u.w ∧ u'.t = u.t := by
  rw [PackerFrame] at h
  rw [h]
  exact ⟨rfl, rfl, rfl⟩

theorem PackerFrame.step {u u' : EncUnit} (h : PackerFrame u u') (hp : PackerOk u')
    (hm : u.memoriesWf = true) : PackerStep u u' :=
  ⟨hp, h.memoriesWf hp.stage hm, h.stream, h.registers.1⟩

theorem EncUnit.emit_step {u u' : EncUnit} {v w : Nat} (hu : PackerOk u) (hm : u.memoriesWf = true)
    (h : u.emit v w = .ok u') : PackerStep u u' :=
  (EncUnit.emit_frame h).step (EncUnit.emit_packerOk hu h) hm

/-! ### The start of an epoch -/

theorem EncUnit.epochReset_memoriesWf {u : EncUnit} (hm : u.memoriesWf = true) :
    u.epochReset.memoriesWf = true := EncUnit.dictReset_memoriesWf hm

theorem EncUnit.epochReset_sameDict (u : EncUnit) : SameDict u.dictReset u.epochReset :=
  ⟨rfl, rfl, rfl, rfl, rfl, rfl, rfl, rfl⟩

/-- An epoch starts with the empty dictionary and no match, wherever the cursor of the bit packer stands (R143). -/
theorem EncUnit.epochReset_holds {u : EncUnit} (hfits : u.maxb.toNat + 3 ≤ u.build.cap)
    (hc : CursorOk u) : EncHolds u.epochReset [] where
  dict := (EncUnit.dictReset_holds hfits).congr u.epochReset_sameDict
  room := by simp only [count_epochReset, build_epochReset, emptyCount]; omega
  threshold := by simp
  growth := by simpa using Nat.lt_or_eq_of_le (emptyCount_le_two_pow u.maxb)
  widthMin := by simp
  widthMax := by simpa using startWidth_le_maxWidth hfits
  matched h := by simp at h
  cursor := ⟨by simpa using hc.off, by simpa using hc.cur, by simpa using hc.pos⟩

/-! ### `ENC.BYTE` -/

/-- A configured encoder in the middle of `ENC.BYTE`, where the count may have reached `C`. -/
structure EncMid (u : EncUnit) (es : Entries) : Prop where
  dict : DictHolds u es
  threshold : u.t = 2 ^ u.w
  widthMin : startWidth u.maxb ≤ u.w
  widthMax : u.w ≤ maxWidth u.build.cap
  cursor : CursorOk u
  memories : u.memoriesWf = true

theorem EncHolds.mid {u : EncUnit} {es : Entries} (h : EncHolds u es) (hm : u.memoriesWf = true) :
    EncMid u es :=
  ⟨h.dict, h.threshold, h.widthMin, h.widthMax, h.cursor, hm⟩

theorem EncMid.emit {u u' : EncUnit} {es : Entries} {v w : Nat} (h : EncMid u es)
    (he : u.emit v w = .ok u') : EncMid u' es := by
  have hframe := EncUnit.emit_frame he
  have hstep := EncUnit.emit_step (.of_cursor h.cursor h.memories) h.memories he
  obtain ⟨hbuild, -, hmaxb⟩ := hframe.stream
  obtain ⟨-, hw, ht⟩ := hframe.registers
  refine ⟨h.dict.congr hframe.sameDict, ?_, ?_, ?_, hstep.packer.cursor, hstep.memories⟩
  · rw [ht, hw, h.threshold]
  · rw [hmaxb, hw]; exact h.widthMin
  · rw [hbuild, hw]; exact h.widthMax

/-- An insertion into the dictionary changes nothing else that a configured encoder keeps. -/
theorem EncMid.insert {u u' : EncUnit} {es es' : Entries} (h : EncMid u es) (hframe : DictFrame u u')
    (hd : DictHolds u' es') (hm : u'.memoriesWf = true) : EncMid u' es' := by
  rw [DictFrame] at hframe
  obtain ⟨hoff, hcur, hpos⟩ := h.cursor
  refine ⟨hd, ?_, ?_, ?_, ⟨?_, ?_, ?_⟩, hm⟩ <;> rw [hframe]
  · exact h.threshold
  · exact h.widthMin
  · exact h.widthMax
  · exact hoff
  · exact hcur
  · exact hpos

theorem DictFrame.t {u u' : EncUnit} (h : DictFrame u u') : u'.t = u.t := by
  rw [DictFrame] at h
  rw [h]

/-- Everything the steps 3c and 3d of R145 can do: the literal emitted and an epoch reset, one bit more of width, or
nothing. -/
theorem EncUnit.afterInsert_eq_ok {u u' : EncUnit} {b : Byte} (h : u.afterInsert b = .ok u') :
    (u.count = u.build.cap ∧ ∃ v, u.emit b.toNat u.w = .ok v ∧ u' = v.epochReset) ∨
    (u.count ≠ u.build.cap ∧ u.t ≤ u.count ∧ u' = u.setWidth (u.w + 1)) ∨
    (u.count ≠ u.build.cap ∧ u.count < u.t ∧ u' = u) := by
  simp only [EncUnit.afterInsert, EncUnit.isFull, decide_eq_true_eq] at h
  split at h
  · rename_i hfull
    obtain ⟨v, hv, h⟩ := bind_eq_ok.mp h
    exact .inl ⟨hfull, v, hv, (pure_eq_ok.mp h).symm⟩
  · rename_i hfull
    split at h <;> rename_i ht <;> cases h
    · exact .inr (.inl ⟨hfull, ht, rfl⟩)
    · exact .inr (.inr ⟨hfull, Nat.lt_of_not_le ht, rfl⟩)

/-- The steps 3c and 3d of R145 end between two commands: by a reset where the dictionary is full, and otherwise with a width
that the next code fits, since the count was at most one above the threshold. -/
theorem EncUnit.afterInsert_holds {u u' : EncUnit} {es : Entries} {b : Byte} (h : EncMid u es)
    (hcount : u.count < 2 * u.t) (hmatch : u.idx < u.count ∧ u.idx ≠ eosCode u.maxb)
    (ha : u.afterInsert b = .ok u') :
    u'.memoriesWf = true ∧ StreamFrame u u' ∧ u'.idx = u.idx ∧ ∃ es', EncHolds u' es' := by
  obtain ⟨-, v, hv, rfl⟩ | ⟨hroom, ht, rfl⟩ | ⟨hroom, ht, rfl⟩ := EncUnit.afterInsert_eq_ok ha
  · have hstep := EncUnit.emit_step (.of_cursor h.cursor h.memories) h.memories hv
    have hmid := h.emit hv
    exact ⟨EncUnit.epochReset_memoriesWf hmid.memories,
      hstep.stream.trans v.epochReset_stream, (idx_epochReset v).trans hstep.idx,
      [], EncUnit.epochReset_holds hmid.dict.fits hmid.cursor⟩
  · have hlt : u.count < u.build.cap := Nat.lt_of_le_of_ne h.dict.countLe hroom
    have htw := h.threshold
    refine ⟨h.memories, ⟨rfl, rfl, rfl⟩, rfl, es, ?_⟩
    exact
      { dict := h.dict.congr ⟨rfl, rfl, rfl, rfl, rfl, rfl, rfl, rfl⟩
        room := hlt
        threshold := rfl
        growth := .inl (by rw [count_setWidth, t_setWidth, Nat.pow_succ]; omega)
        widthMin := Nat.le_succ_of_le h.widthMin
        widthMax := lt_clog2 (Nat.lt_of_le_of_lt (htw ▸ ht) hlt)
        matched := fun _ => hmatch
        cursor := ⟨h.cursor.off, h.cursor.cur, h.cursor.pos⟩ }
  · exact ⟨h.memories, ⟨rfl, rfl, rfl⟩, rfl, es, h.dict,
      Nat.lt_of_le_of_ne h.dict.countLe hroom, h.threshold, .inl ht, h.widthMin, h.widthMax,
      fun _ => hmatch, h.cursor⟩

/-- R45 speaks of the dictionary, the width, the match and the bit packer's cursor only. -/
theorem EncHolds.congr {u u' : EncUnit} {es : Entries} (h : EncHolds u es) (hd : SameDict u u')
    (hw : u'.w = u.w) (ht : u'.t = u.t) (hc : CursorOk u')
    (hm : u'.idxv = true → u'.idx < u.count ∧ u'.idx ≠ eosCode u.maxb) : EncHolds u' es where
  dict := h.dict.congr hd
  room := by rw [hd.count, hd.build]; exact h.room
  threshold := by rw [ht, hw]; exact h.threshold
  growth := by rw [hd.count, ht]; exact h.growth
  widthMin := by rw [hd.maxb, hw]; exact h.widthMin
  widthMax := by rw [hd.build, hw]; exact h.widthMax
  matched := by rw [hd.count, hd.maxb]; exact hm
  cursor := hc

/-- Setting the match to a code of the dictionary other than `EOS` keeps R45. -/
theorem EncHolds.setMatch {u : EncUnit} {es : Entries} {c : Nat} (h : EncHolds u es)
    (hc : c < u.count ∧ c ≠ eosCode u.maxb) : EncHolds { u with idx := c, idxv := true } es :=
  h.congr ⟨rfl, rfl, rfl, rfl, rfl, rfl, rfl, rfl⟩ rfl rfl
    ⟨h.cursor.off, h.cursor.cur, h.cursor.pos⟩ fun _ => hc

theorem EncHolds.setCfg {u : EncUnit} {es : Entries} (h : EncHolds u es) (c : Bool) :
    EncHolds { u with cfg := c } es :=
  h.congr ⟨rfl, rfl, rfl, rfl, rfl, rfl, rfl, rfl⟩ rfl rfl
    ⟨h.cursor.off, h.cursor.cur, h.cursor.pos⟩ h.matched

theorem EncHolds.respond {u : EncUnit} {es : Entries} (h : EncHolds u es) (r : Response) :
    EncHolds (u.respond r) es :=
  h.congr ⟨rfl, rfl, rfl, rfl, rfl, rfl, rfl, rfl⟩ rfl rfl
    ⟨h.cursor.off, h.cursor.cur, h.cursor.pos⟩ h.matched

/-- A literal is a code of the dictionary other than `EOS` (R8). -/
theorem DictHolds.literal {u : EncUnit} {es : Entries} {b : Byte} (h : DictHolds u es)
    (hb : b ≤ u.maxb) : b.toNat < u.count ∧ b.toNat ≠ eosCode u.maxb := by
  have hcount := h.count
  have hb : b.toNat ≤ u.maxb.toNat := hb
  simp only [emptyCount, eosCode] at *
  omega

/-- A created code is a code of the dictionary other than `EOS` (R8). -/
theorem DictHolds.created {u : EncUnit} {es : Entries} {k : Nat} (h : DictHolds u es)
    (hk : k < es.length) :
    emptyCount u.maxb + k < u.count ∧ emptyCount u.maxb + k ≠ eosCode u.maxb := by
  have hcount := h.count
  simp only [emptyCount, eosCode] at *
  omega

/-- Before an insertion the count is at most the threshold, so after it less than twice that (R149). -/
theorem EncHolds.count_succ_lt {u : EncUnit} {es : Entries} (h : EncHolds u es) :
    u.count + 1 < 2 * u.t := by
  have hw : 1 ≤ u.w := (startWidth_pos u.maxb).trans h.widthMin
  have ht : 2 ^ 1 ≤ u.t := h.threshold ▸ Nat.pow_le_pow_right (by decide) hw
  obtain hlt | ⟨-, heq⟩ := h.growth <;> omega

/-- Everything `ENC.BYTE` can do from its `DictAdd` on: set the match to a code of the dictionary, or go through the steps 3a
to 3d after an insertion (R145). -/
theorem EncUnit.take_cases {u u' : EncUnit} {es : Entries} {b : Byte} (h : EncHolds u es)
    (hm : u.memoriesWf = true) (hb : b ≤ u.maxb) (ht : u.take b = .ok u') :
    (∃ c, (c < u.count ∧ c ≠ eosCode u.maxb) ∧
      u' = ({ u with idx := c, idxv := true }).respond (success sOk)) ∨
    (∃ v x y, DictFrame u v ∧ v.count = u.count + 1 ∧ EncMid v (es ++ [(u.idx, b)]) ∧
      v.emit v.idx v.w = .ok x ∧ ({ x with idx := b.toNat }).afterInsert b = .ok y ∧
      u' = y.respond (success sOk)) := by
  obtain ⟨⟨r, v⟩, hadd, ht⟩ := bind_eq_ok.mp ht
  cases hv : u.idxv with
  | false =>
    rw [EncUnit.matchCode, hv] at hadd
    cases hadd
    exact .inl ⟨_, h.dict.literal hb, (pure_eq_ok.mp ht).symm⟩
  | true =>
    rw [EncUnit.matchCode, hv] at hadd
    obtain ⟨hidx, heos⟩ := h.matched hv
    have hmeans := EncUnit.dictAdd_means h.dict hm h.room hidx heos hb hadd
    cases r with
    | found c =>
      obtain ⟨⟨k, hk, rfl, -⟩, rfl⟩ := hmeans
      exact .inl ⟨_, h.dict.created hk, (pure_eq_ok.mp ht).symm⟩
    | notFound =>
      obtain ⟨-, hvm, hvd⟩ := hmeans
      obtain ⟨_, c, hc⟩ | ⟨-, hframe, hcount⟩ := EncUnit.dictAdd_frame hadd
      · cases hc
      · obtain ⟨x, hx, ht⟩ := bind_eq_ok.mp ht
        obtain ⟨y, hy, ht⟩ := bind_eq_ok.mp ht
        exact .inr ⟨v, x, y, hframe, hcount, (h.mid hm).insert hframe hvd hvm, hx, hy,
          (pure_eq_ok.mp ht).symm⟩

/-- `ENC.BYTE` with a byte in range ends between two commands (R145). -/
theorem EncUnit.take_holds {u u' : EncUnit} {es : Entries} {b : Byte} (h : EncHolds u es)
    (hm : u.memoriesWf = true) (hb : b ≤ u.maxb) (ht : u.take b = .ok u') :
    u'.memoriesWf = true ∧ StreamFrame u u' ∧ u'.idx < u.build.cap ∧ ∃ es', EncHolds u' es' := by
  obtain ⟨c, hc, rfl⟩ | ⟨v, x, y, hframe, hcount, hmid, hx, hy, rfl⟩ :=
    EncUnit.take_cases h hm hb ht
  · exact ⟨hm, ⟨rfl, rfl, rfl⟩, hc.1.trans_le h.dict.countLe, es,
      (h.setMatch hc).respond _⟩
  · have hxframe := EncUnit.emit_frame hx
    have hxmid := hmid.emit hx
    have hstream := hframe.stream.trans hxframe.stream
    have hxcount : x.count = u.count + 1 := hxframe.sameDict.count.trans hcount
    have hxt : x.t = u.t := hxframe.registers.2.2.trans hframe.t
    have hmid' : EncMid { x with idx := b.toNat } (es ++ [(u.idx, b)]) :=
      ⟨hxmid.dict.congr ⟨rfl, rfl, rfl, rfl, rfl, rfl, rfl, rfl⟩, hxmid.threshold, hxmid.widthMin,
        hxmid.widthMax, ⟨hxmid.cursor.off, hxmid.cursor.cur, hxmid.cursor.pos⟩, hxmid.memories⟩
    have hlit := hxmid.dict.literal (b := b) (hstream.2.2 ▸ hb)
    obtain ⟨hym, hystream, hyidx, es', hyholds⟩ := EncUnit.afterInsert_holds hmid'
      (by rw [hxcount, hxt]; exact h.count_succ_lt) hlit hy
    refine ⟨hym, hstream.trans hystream, ?_, es', hyholds.respond _⟩
    change y.idx < _
    rw [hyidx, ← hstream.1]
    exact hlit.1.trans_le hxmid.dict.countLe

/-! ### `ENC.FINAL` -/

theorem EncUnit.finalWidthStep_step {u : EncUnit} (hu : PackerOk u) (hm : u.memoriesWf = true) :
    PackerStep u u.finalWidthStep := by
  unfold EncUnit.finalWidthStep
  split
  · exact ⟨⟨⟨hu.cursor.off, hu.cursor.cur, hu.cursor.pos⟩, hu.stage⟩, hm, ⟨rfl, rfl, rfl⟩, rfl⟩
  · exact ⟨hu, hm, ⟨rfl, rfl, rfl⟩, rfl⟩

theorem EncUnit.emitPending_step {u u' : EncUnit} (hu : PackerOk u) (hm : u.memoriesWf = true)
    (h : u.emitPending = .ok u') : PackerStep u u' := by
  unfold EncUnit.emitPending at h
  split at h
  · obtain ⟨v, hv, h⟩ := bind_eq_ok.mp h
    obtain rfl := pure_eq_ok.mp h
    have hstep := EncUnit.emit_step hu hm hv
    exact hstep.trans (EncUnit.finalWidthStep_step hstep.packer hstep.memories)
  · cases h
    exact ⟨hu, hm, ⟨rfl, rfl, rfl⟩, rfl⟩

theorem EncUnit.flushRest_frame (u : EncUnit) : PackerFrame u u.flushRest := by
  unfold EncUnit.flushRest PackerFrame
  split <;> rfl

@[simp] theorem EncUnit.pos_flushRest (u : EncUnit) : u.flushRest.pos = 0 := by
  unfold EncUnit.flushRest
  split
  · rfl
  · omega

@[simp] theorem EncUnit.off_flushRest (u : EncUnit) : u.flushRest.off = u.off := by
  unfold EncUnit.flushRest; split <;> rfl

@[simp] theorem EncUnit.cur_flushRest (u : EncUnit) : u.flushRest.cur = u.cur := by
  unfold EncUnit.flushRest; split <;> rfl

@[simp] theorem EncUnit.stage_flushRest (u : EncUnit) : u.flushRest.stage = u.stage := by
  unfold EncUnit.flushRest; split <;> rfl

/-- Padding the partial byte and delivering what is left empties the bit packer (R147). -/
theorem EncUnit.padByte_flushRest_step {u v : EncUnit} (hu : PackerOk u) (hm : u.memoriesWf = true)
    (h : u.padByte = .ok v) : PackerStep u v.flushRest := by
  obtain ⟨⟨hoff, hcur, hpos⟩, hstage⟩ := hu
  have hroom : 0 < u.build.stageBytes := Nat.zero_lt_of_lt hpos
  have packer (hvoff : v.off ≤ 7) (hvcur : v.cur.toNat < 2 ^ v.off)
      (hvstage : Memory.wf unlistedByte v.stage = true) (hframe : PackerFrame u v) :
      PackerStep u v.flushRest := by
    have hall := hframe.trans v.flushRest_frame
    refine hall.step ⟨⟨by simpa using hvoff, by simpa using hvcur, ?_⟩, by simpa using hvstage⟩ hm
    rw [pos_flushRest, hall.stream.1]
    exact hroom
  unfold EncUnit.padByte at h
  split at h
  · have hframe := EncUnit.commitByte_frame h
    have hvstage := EncUnit.commitByte_stage_wf h hstage
    obtain ⟨-, rfl⟩ := EncUnit.commitByte_eq_ok.mp h
    exact packer (Nat.zero_le 7) Nat.one_pos hvstage hframe
  · cases h
    exact packer hoff hcur hstage (.refl u)

/-- Everything `ENC.FINAL` can do on a configured encoder (R147). -/
theorem EncUnit.final_step {u u' : EncUnit} (hu : PackerOk u) (hm : u.memoriesWf = true)
    (hcfg : u.cfg = true) (h : u.final = .ok u') :
    ∃ v, PackerStep u v ∧ u' = v.epochReset.respond (success sOk) := by
  rw [EncUnit.final, if_neg (by simp [hcfg])] at h
  obtain ⟨v, hv, h⟩ := bind_eq_ok.mp h
  obtain ⟨x, hx, h⟩ := bind_eq_ok.mp h
  obtain ⟨y, hy, h⟩ := bind_eq_ok.mp h
  have hv := EncUnit.emitPending_step hu hm hv
  have hx := EncUnit.emit_step hv.packer hv.memories hx
  have hy := EncUnit.padByte_flushRest_step hx.packer hx.memories hy
  exact ⟨y.flushRest, (hv.trans hx).trans hy, (pure_eq_ok.mp h).symm⟩

/-! ### The encoder's commands -/

theorem EncUnit.Inv.respond {u : EncUnit} (h : u.Inv) (r : Response) : (u.respond r).Inv where
  build := h.build
  memories := h.memories
  idxFits := h.idxFits
  configured hcfg := (h.configured hcfg).imp fun _ hes => hes.respond r

theorem EncUnit.Inv.raise {u : EncUnit} (h : u.Inv) (e : StatusCode) (i : InfoWord) :
    (u.raise e i).Inv := h.respond ⟨e, i⟩

/-- A build in range has room for a byte in the staging buffer (R11). -/
theorem stageBytes_pos {b : EncBuild} (h : b.wf = true) : 0 < b.stageBytes := by
  obtain ⟨hcap, hstage⟩ := EncBuild.wf_iff.mp h
  have := (maxWidth_range hcap).1
  simp only [minStageBytes] at hstage
  omega

/-- The encoder after the first steps of an INIT that fits, before its response (R144). -/
def EncUnit.started (u : EncUnit) (m : Byte) : EncUnit :=
  { ({ u with maxb := m, cur := 0#8, off := 0, pos := 0 }).epochReset with cfg := true }

/-- The two cases of `ENC.INIT` (R144). -/
theorem EncUnit.init_cases (u : EncUnit) (m : Byte) :
    (m.toNat + 3 ≤ u.build.cap ∧ u.init m = (u.started m).respond (success sOk)) ∨
    (u.build.cap < m.toNat + 3 ∧
      u.init m = ({ u with cfg := false }).raise eConfig (zext32 m.toNat)) := by
  unfold EncUnit.init
  split
  · rename_i h
    exact .inl ⟨configValid_iff.mp h, rfl⟩
  · rename_i h
    exact .inr ⟨Nat.lt_of_not_le (mt configValid_iff.mpr h), rfl⟩

theorem EncUnit.started_holds {u : EncUnit} {m : Byte} (hb : u.build.wf = true)
    (hfits : m.toNat + 3 ≤ u.build.cap) : EncHolds (u.started m) [] :=
  (EncUnit.epochReset_holds (u := { u with maxb := m, cur := 0#8, off := 0, pos := 0 }) hfits
    ⟨Nat.zero_le 7, Nat.one_pos, stageBytes_pos hb⟩).setCfg true

theorem EncUnit.started_inv {u : EncUnit} {m : Byte} (h : u.Inv)
    (hfits : m.toNat + 3 ≤ u.build.cap) : (u.started m).Inv where
  build := by simpa [EncUnit.started] using h.build
  memories := EncUnit.epochReset_memoriesWf
    (u := { u with maxb := m, cur := 0#8, off := 0, pos := 0 }) h.memories
  idxFits := by simpa [EncUnit.started] using h.idxFits
  configured _ := ⟨[], EncUnit.started_holds h.build hfits⟩

theorem EncUnit.init_inv {u : EncUnit} (h : u.Inv) (m : Byte) : (u.init m).Inv := by
  obtain ⟨hfits, e⟩ | ⟨-, e⟩ := u.init_cases m <;> rw [e]
  · exact (EncUnit.started_inv h hfits).respond _
  · exact EncUnit.Inv.raise (u := { u with cfg := false })
      ⟨h.build, h.memories, h.idxFits, fun hcfg => by cases hcfg⟩ _ _

theorem EncUnit.take_inv {u u' : EncUnit} {b : Byte} (h : u.Inv) (hcfg : u.cfg = true)
    (hb : b ≤ u.maxb) (ht : u.take b = .ok u') : u'.Inv := by
  obtain ⟨es, hes⟩ := h.configured hcfg
  obtain ⟨hm, ⟨hbuild, -, -⟩, hidx, hes'⟩ := EncUnit.take_holds hes h.memories hb ht
  refine ⟨hbuild ▸ h.build, hm, ?_, fun _ => hes'⟩
  rw [hbuild]
  exact hidx.trans_le (le_two_pow_clog2 _)

theorem EncUnit.final_inv {u u' : EncUnit} (h : u.Inv) (hf : u.final = .ok u') : u'.Inv := by
  cases hcfg : u.cfg with
  | false =>
    rw [EncUnit.final, if_pos hcfg] at hf
    cases hf
    exact h.raise _ _
  | true =>
    obtain ⟨es, hes⟩ := h.configured hcfg
    obtain ⟨v, hv, rfl⟩ :=
      EncUnit.final_step (.of_cursor hes.cursor h.memories) h.memories hcfg hf
    obtain ⟨hbuild, -, hmaxb⟩ := hv.stream
    have hholds := EncUnit.epochReset_holds (u := v) (by rw [hmaxb, hbuild]; exact hes.dict.fits)
      hv.packer.cursor
    refine EncUnit.Inv.respond (u := v.epochReset) ⟨?_, ?_, ?_, fun _ => ⟨[], hholds⟩⟩ _
    · rw [build_epochReset, hbuild]; exact h.build
    · exact EncUnit.epochReset_memoriesWf hv.memories
    · rw [build_epochReset, idx_epochReset, hbuild, hv.idx]; exact h.idxFits

/-- The checks of `ENC.BYTE` and `ENC.BYTE.REMAP` before `DictAdd`: the two commands differ in the byte and in the INFO of its
range error only (R145, R146). -/
def EncUnit.checkedTake (u : EncUnit) (b : Byte) (rangeInfo : InfoWord) : Except Fault EncUnit :=
  if u.cfg = false then .ok (u.raise eNotConfigured 0#32)
  else if u.maxb < b then .ok (u.raise eByteRange rangeInfo)
  else u.take b

theorem EncUnit.byte_eq (u : EncUnit) (b : Byte) :
    u.byte b = u.checkedTake b (zext32 b.toNat) := rfl

theorem EncUnit.byteRemap_eq (u : EncUnit) (d b : Byte) :
    u.byteRemap d b = u.checkedTake b (remapInfo d b) := rfl

theorem EncUnit.checkedTake_inv {u u' : EncUnit} {b : Byte} {rangeInfo : InfoWord} (h : u.Inv)
    (hb : u.checkedTake b rangeInfo = .ok u') : u'.Inv := by
  unfold EncUnit.checkedTake at hb
  split at hb
  · cases hb; exact h.raise _ _
  · rename_i hcfg
    split at hb
    · cases hb; exact h.raise _ _
    · rename_i hrange
      exact EncUnit.take_inv h (by simpa using hcfg) (BitVec.not_lt.mp hrange) hb

/-- Every command of the encoder keeps its invariant (R45). -/
theorem encResult_inv {i : Instr} {s : State} {u : EncUnit} (h : s.enc.Inv)
    (hi : encResult i s = .ok u) : u.Inv := by
  cases i with
  | encInit m => cases hi; exact EncUnit.init_inv h m
  | encByte b => exact EncUnit.checkedTake_inv h ((s.enc.byte_eq b).symm.trans hi)
  | encByteRemap d => exact EncUnit.checkedTake_inv h ((s.enc.byteRemap_eq d _).symm.trans hi)
  | encFinal => exact EncUnit.final_inv h hi
  | decInit m => cases hi; exact h
  | decByte x => cases hi; exact h

end Sys2Proof.Machine
end

section
/-! PROOF. Strings in the decoder's dictionary (42_decoder.md R171, R173): `String` gives the string of its code. -/

namespace Sys2Proof.Machine

/-- The prefix of every created code is a lower code other than `EOS` (R46). -/
structure PrefixesOk (d : DecUnit) : Prop where
  lower : ∀ c, emptyCount d.maxb ≤ c → c < d.count → Memory.read unlistedCode d.pfx c < c
  notEos : ∀ c, emptyCount d.maxb ≤ c → c < d.count →
    Memory.read unlistedCode d.pfx c ≠ eosCode d.maxb

/-- A code that is neither a literal nor `EOS` is a created one (R8). -/
theorem emptyCount_le {m : Byte} {c : Nat} (h : literalCount m ≤ c) (heos : c ≠ eosCode m) :
    emptyCount m ≤ c := by
  simp only [emptyCount, eosCode, literalCount] at *
  omega

/-- The string of a literal (R111). -/
theorem DecUnit.str_literal {d : DecUnit} {c : Nat} (h : c < literalCount d.maxb) :
    d.str c = [BitVec.ofNat 8 c] := if_pos h

/-- With more steps than the code counts, the string is the same: every prefix is lower than its code (R111). -/
theorem DecUnit.strFrom_eq_str {d : DecUnit} (hp : PrefixesOk d) (c : Nat) : c < d.count →
    c ≠ eosCode d.maxb → ∀ k, c < k →
      strFrom d.maxb (Memory.read unlistedCode d.pfx) (Memory.read unlistedByte d.bytev) k c
        = d.str c := by
  induction c using Nat.strong_induction_on with
  | _ c ih =>
    intro hc heos k hk
    obtain ⟨k, rfl⟩ := Nat.exists_eq_succ_of_ne_zero (Nat.ne_zero_of_lt hk)
    by_cases hlit : c < literalCount d.maxb
    · rw [DecUnit.str_literal hlit]
      exact if_pos hlit
    · have hcreated := emptyCount_le (Nat.le_of_not_lt hlit) heos
      have hlow := hp.lower c hcreated hc
      have ih := ih _ hlow (hlow.trans hc) (hp.notEos c hcreated hc)
      rw [DecUnit.str, strFrom, strFrom, if_neg hlit, if_neg hlit, ih k (by omega), ih c hlow]

/-- The string of a created code is its prefix's string and its own byte (R111, R171). -/
theorem DecUnit.str_created {d : DecUnit} (hp : PrefixesOk d) {c : Nat}
    (hlit : literalCount d.maxb ≤ c) (hc : c < d.count) (heos : c ≠ eosCode d.maxb) :
    d.str c = d.str (Memory.read unlistedCode d.pfx c) ++ [Memory.read unlistedByte d.bytev c] := by
  have hcreated := emptyCount_le hlit heos
  have hlow := hp.lower c hcreated hc
  rw [← DecUnit.strFrom_eq_str hp _ (hlow.trans hc) (hp.notEos c hcreated hc) c hlow, DecUnit.str,
    strFrom, if_neg (Nat.not_lt.mpr hlit)]

/-- Two dictionaries that agree on the codes created in the first give these the same strings. -/
theorem DecUnit.str_congr {d d' : DecUnit} (hp : PrefixesOk d) (hp' : PrefixesOk d')
    (hm : d'.maxb = d.maxb) (hcount : d.count ≤ d'.count)
    (hpfx : ∀ c < d.count, Memory.read unlistedCode d'.pfx c = Memory.read unlistedCode d.pfx c)
    (hbytev : ∀ c < d.count,
      Memory.read unlistedByte d'.bytev c = Memory.read unlistedByte d.bytev c)
    (c : Nat) : c < d.count → c ≠ eosCode d.maxb → d'.str c = d.str c := by
  induction c using Nat.strong_induction_on with
  | _ c ih =>
    intro hc heos
    by_cases hlit : c < literalCount d.maxb
    · rw [DecUnit.str_literal hlit, DecUnit.str_literal (hm ▸ hlit)]
    · have hlit := Nat.le_of_not_lt hlit
      have hcreated := emptyCount_le hlit heos
      have hlow := hp.lower c hcreated hc
      rw [DecUnit.str_created hp hlit hc heos,
        DecUnit.str_created hp' (hm ▸ hlit) (hc.trans_le hcount) (hm ▸ heos), hpfx c hc,
        hbytev c hc, ih _ hlow (hlow.trans hc) (hp.notEos c hcreated hc)]

theorem Memory.prefixBytes_write {m : ByteMemory} (h : Memory.wf unlistedByte m = true) (n : Nat)
    (y : Byte) : Memory.prefixBytes (Memory.write unlistedByte m n y) (n + 1)
      = Memory.prefixBytes m n ++ [y] := by
  rw [Memory.prefixBytes, List.range_succ, List.map_append, List.map_singleton,
    Memory.read_write_same _ _ _ _ h]
  congr 1
  exact List.map_congr_left fun i hi =>
    Memory.read_write_ne _ _ _ (List.mem_range.mp hi).ne

theorem DecUnit.readPrefix_eq_ok {d : DecUnit} {c p : Nat} (h : d.readPrefix c = .ok p) :
    Memory.read unlistedCode d.pfx c = p := (memRead_eq_ok.mp h).2

theorem DecUnit.readBytev_eq_ok {d : DecUnit} {c : Nat} {y : Byte} (h : d.readBytev c = .ok y) :
    Memory.read unlistedByte d.bytev c = y := (memRead_eq_ok.mp h).2

/-- The walk of `String` writes the string of its code, last byte first, after what it had written (R173). -/
theorem DecUnit.walk_str {k : Nat} {d d' : DecUnit} {n n' x : Nat} (hp : PrefixesOk d)
    (hs : Memory.wf unlistedByte d.scratch = true) (hx : x < d.count) (heos : x ≠ eosCode d.maxb)
    (h : d.walk k n x = .ok (n', d')) :
    Memory.prefixBytes d'.scratch n' = Memory.prefixBytes d.scratch n ++ (d.str x).reverse ∧
      Memory.wf unlistedByte d'.scratch = true := by
  induction k generalizing d n x with
  | zero => cases h
  | succ k ih =>
    rw [DecUnit.walk] at h
    split at h
    · rename_i hlit
      obtain ⟨y, hy, h⟩ := bind_eq_ok.mp h
      obtain rfl := DecUnit.readBytev_eq_ok hy
      obtain ⟨e, he, h⟩ := bind_eq_ok.mp h
      obtain ⟨-, rfl⟩ := DecUnit.writeScratch_eq_ok.mp he
      obtain ⟨x', hx', h⟩ := bind_eq_ok.mp h
      obtain rfl := DecUnit.readPrefix_eq_ok hx'
      have hcreated := emptyCount_le hlit heos
      obtain ⟨hbytes, hwf⟩ := ih (d := { d with
          scratch := Memory.write unlistedByte d.scratch n (Memory.read unlistedByte d.bytev x) })
        ⟨hp.lower, hp.notEos⟩ (Memory.wf_write _ _ _ _ hs)
        ((hp.lower x hcreated hx).trans hx) (hp.notEos x hcreated hx) h
      refine ⟨hbytes.trans ?_, hwf⟩
      rw [Memory.prefixBytes_write hs, DecUnit.str_created hp hlit hx heos, List.reverse_append,
        List.append_assoc]
      rfl
    · rename_i hlit
      obtain ⟨e, he, h⟩ := bind_eq_ok.mp h
      obtain ⟨-, rfl⟩ := DecUnit.writeScratch_eq_ok.mp he
      cases h
      rw [DecUnit.str_literal (Nat.lt_of_not_le hlit)]
      exact ⟨Memory.prefixBytes_write hs _ _, Memory.wf_write _ _ _ _ hs⟩

/-- `String(c)` is the string of its code, and leaves the scratch buffer canonical (R173). -/
theorem DecUnit.string_str {d d' : DecUnit} {c : Nat} {s : List Byte} (hp : PrefixesOk d)
    (hs : Memory.wf unlistedByte d.scratch = true) (hc : c < d.count) (heos : c ≠ eosCode d.maxb)
    (h : d.string c = .ok (s, d')) :
    s = d.str c ∧ Memory.wf unlistedByte d'.scratch = true := by
  obtain ⟨⟨n, e⟩, hw, h⟩ := bind_eq_ok.mp h
  obtain ⟨hbytes, hwf⟩ := DecUnit.walk_str hp hs hc heos hw
  cases h
  refine ⟨?_, hwf⟩
  rw [hbytes]
  exact List.reverse_reverse _

end Sys2Proof.Machine
end

section
/-! PROOF. The decoder keeps its invariant (42_decoder.md, 10_state.md R46). -/

namespace Sys2Proof.Machine

/-- The canonical form of the decoder's memories, one conjunct a memory. -/
theorem DecUnit.memoriesWf_iff {d : DecUnit} : d.memoriesWf = true ↔
    Memory.wf unlistedCode d.pfx = true ∧ Memory.wf unlistedByte d.bytev = true ∧
    Memory.wf unlistedByte d.scratch = true := by
  simp [DecUnit.memoriesWf, and_assoc]

/-! ### The dictionary in the middle of a code -/

/-- A configured decoder in the middle of a code, where the count may have reached `C`. -/
structure DecMid (d : DecUnit) : Prop where
  fits : d.maxb.toNat + 3 ≤ d.build.cap
  countMin : emptyCount d.maxb ≤ d.count
  countLe : d.count ≤ d.build.cap
  threshold : d.t = 2 ^ d.w - 1
  widthMin : startWidth d.maxb ≤ d.w
  widthMax : d.w ≤ maxWidth d.build.cap
  prefixes : PrefixesOk d
  memories : d.memoriesWf = true

theorem DecHolds.mid {d : DecUnit} (h : DecHolds d) (hm : d.memoriesWf = true) : DecMid d :=
  ⟨h.fits, h.countMin, Nat.le_of_succ_le h.room, h.threshold, h.widthMin, h.widthMax,
    ⟨h.prefixLower, h.prefixNotEos⟩, hm⟩

/-- The result is the old unit with only what a code that is decoded can change: dictionary, width, previous code, scratch
buffer and deliveries. -/
def DecodeFrame (d d' : DecUnit) : Prop :=
  d' = { d with
    count := d'.count, w := d'.w, t := d'.t, prev := d'.prev, prevv := d'.prevv
    pfirst := d'.pfirst, pfx := d'.pfx, bytev := d'.bytev, scratch := d'.scratch, out := d'.out }

theorem DecodeFrame.trans {d e f : DecUnit} (h : DecodeFrame d e) (h' : DecodeFrame e f) :
    DecodeFrame d f := by
  unfold DecodeFrame at *
  rw [h', h]

theorem ScratchFrame.decode {d d' : DecUnit} (h : ScratchFrame d d') : DecodeFrame d d' := by
  unfold ScratchFrame at h
  rw [h]
  rfl

theorem DecUnit.append_decode {d d' : DecUnit} {p : Nat} {y : Byte} (h : d.append p y = .ok d') :
    DecodeFrame d d' := by
  obtain ⟨-, rfl⟩ := DecUnit.append_eq_ok.mp h
  rfl

theorem DecUnit.output_decode (d : DecUnit) (c : Nat) (s : List Byte) :
    DecodeFrame d (d.output c s) := by
  unfold DecUnit.output
  obtain ⟨-, e⟩ | ⟨-, -, e⟩ | ⟨-, -, -, e⟩ | ⟨-, -, -, e⟩ := DecUnit.afterStep_cases
    { d.deliver s with prev := c, prevv := true, pfirst := firstByte s } <;> rw [e] <;> rfl

theorem DecMid.scratch {d d' : DecUnit} (h : DecMid d) (hframe : ScratchFrame d d')
    (hs : Memory.wf unlistedByte d'.scratch = true) : DecMid d' := by
  obtain ⟨hpfx, hbytev, -⟩ := DecUnit.memoriesWf_iff.mp h.memories
  rw [ScratchFrame] at hframe
  rw [hframe]
  exact { h with
    prefixes := { h.prefixes with }
    memories := DecUnit.memoriesWf_iff.mpr ⟨hpfx, hbytev, hs⟩ }

/-- Appending an entry with a prefix among the codes created so far, or a literal, keeps the dictionary in order, and every
string in it (R172). -/
theorem DecMid.append {d d' : DecUnit} {p : Nat} {y : Byte} (h : DecMid d)
    (hp : p < d.count ∧ p ≠ eosCode d.maxb) (ha : d.append p y = .ok d') :
    DecMid d' ∧ d'.count = d.count + 1 ∧ ∀ c < d.count, c ≠ eosCode d.maxb → d'.str c = d.str c := by
  obtain ⟨hpfx, hbytev, hscratch⟩ := DecUnit.memoriesWf_iff.mp h.memories
  obtain ⟨⟨-, hroom⟩, rfl⟩ := DecUnit.append_eq_ok.mp ha
  have hprefixes : PrefixesOk { d with
      pfx := Memory.write unlistedCode d.pfx d.count p
      bytev := Memory.write unlistedByte d.bytev d.count y
      count := d.count + 1 } := by
    constructor <;> intro c hmin hc <;> rw [Memory.read_write _ _ _ _ _ hpfx] <;>
      obtain hc | rfl := Nat.lt_succ_iff_lt_or_eq.mp hc
    · rw [if_neg hc.ne]; exact h.prefixes.lower c hmin hc
    · rw [if_pos rfl]; exact hp.1
    · rw [if_neg hc.ne]; exact h.prefixes.notEos c hmin hc
    · rw [if_pos rfl]; exact hp.2
  refine ⟨{ h with
      countMin := Nat.le_succ_of_le h.countMin
      countLe := hroom
      prefixes := hprefixes
      memories := DecUnit.memoriesWf_iff.mpr
        ⟨Memory.wf_write _ _ _ _ hpfx, Memory.wf_write _ _ _ _ hbytev, hscratch⟩ }, rfl, ?_⟩
  exact DecUnit.str_congr h.prefixes hprefixes rfl (Nat.le_succ _)
    (fun c hc => Memory.read_write_ne _ _ _ hc.ne) fun c hc => Memory.read_write_ne _ _ _ hc.ne

/-! ### The end of a code -/

/-- A decoder at the start of an epoch (R175). -/
theorem DecUnit.epochReset_holds {d : DecUnit} (hfits : d.maxb.toNat + 3 ≤ d.build.cap) :
    DecHolds d.epochReset where
  fits := hfits
  countMin := le_rfl
  room := by simp only [count_epochReset, build_epochReset, emptyCount]; omega
  threshold := rfl
  widthMin := le_rfl
  widthMax := startWidth_le_maxWidth hfits
  noPrev _ := rfl
  prev h := by cases h
  prefixLower c hmin hc := absurd hc (Nat.not_lt.mpr hmin)
  prefixNotEos c hmin hc := absurd hc (Nat.not_lt.mpr hmin)

theorem DecMid.holds {d : DecUnit} (h : DecMid d) (hroom : d.count ≠ d.build.cap)
    (hv : d.prevv = true) (hprev : d.prev < d.count ∧ d.prev ≠ eosCode d.maxb)
    (hfirst : d.pfirst = firstByte (d.str d.prev)) : DecHolds d where
  fits := h.fits
  countMin := h.countMin
  room := Nat.lt_of_le_of_ne h.countLe hroom
  threshold := h.threshold
  widthMin := h.widthMin
  widthMax := h.widthMax
  noPrev h := by rw [hv] at h; cases h
  prev _ := ⟨hprev.1, hprev.2, hfirst⟩
  prefixLower := h.prefixes.lower
  prefixNotEos := h.prefixes.notEos

/-- Delivering a code's string and making it the previous code ends between two codes: in a new epoch if the dictionary is
full, and otherwise at a width of at most `WMAX` (R177, R180). -/
theorem DecMid.output {d : DecUnit} {c : Nat} (h : DecMid d)
    (hc : c < d.count ∧ c ≠ eosCode d.maxb) :
    DecHolds (d.output c (d.str c)) ∧ (d.output c (d.str c)).memoriesWf = true ∧
      (d.output c (d.str c)).prev = c := by
  have hmid : DecMid { d.deliver (d.str c) with
      prev := c, prevv := true, pfirst := firstByte (d.str c) } :=
    { h with prefixes := { h.prefixes with } }
  unfold DecUnit.output
  obtain ⟨-, e⟩ | ⟨hroom, -, e⟩ | ⟨hroom, hlast, ht, e⟩ | ⟨hroom, -, -, e⟩ :=
    DecUnit.afterStep_cases { d.deliver (d.str c) with
      prev := c, prevv := true, pfirst := firstByte (d.str c) } <;> rw [e]
  · exact ⟨DecUnit.epochReset_holds h.fits, h.memories, rfl⟩
  · exact ⟨hmid.holds hroom rfl hc rfl, h.memories, rfl⟩
  · have hlt : 2 ^ d.w < d.build.cap := by
      have hcap := h.countLe
      have htw := h.threshold
      have ht : d.t ≤ d.count := ht
      have hroom : d.count ≠ d.build.cap := hroom
      have hlast : d.count ≠ d.build.cap - 1 := hlast
      omega
    have hgrown : DecMid (DecUnit.setWidth { d.deliver (d.str c) with
        prev := c, prevv := true, pfirst := firstByte (d.str c) } (d.w + 1)) :=
      { hmid with
        threshold := rfl
        widthMin := Nat.le_succ_of_le h.widthMin
        widthMax := lt_clog2 hlt
        prefixes := { h.prefixes with } }
    exact ⟨hgrown.holds hroom rfl hc rfl, h.memories, rfl⟩
  · exact ⟨hmid.holds hroom rfl hc rfl, h.memories, rfl⟩

/-! ### One code -/

/-- An existing code ends by delivering its string from a dictionary that may hold one entry more (R177). -/
theorem DecUnit.existing_eq_ok {d e : DecUnit} {c : Nat} (h : DecHolds d) (hm : d.memoriesWf = true)
    (hc : c < d.count ∧ c ≠ eosCode d.maxb) (he : d.existing c = .ok e) :
    ∃ v, DecMid v ∧ DecodeFrame d v ∧ c < v.count ∧ e = v.output c (v.str c) := by
  have hmid := h.mid hm
  obtain ⟨⟨s, x⟩, hs, he⟩ := bind_eq_ok.mp he
  have hframe := DecUnit.string_frame hs
  obtain ⟨rfl, hscratch⟩ := DecUnit.string_str hmid.prefixes
    (DecUnit.memoriesWf_iff.mp hm).2.2 hc.1 hc.2 hs
  have hx := hmid.scratch hframe hscratch
  obtain ⟨v, hv, he⟩ := bind_eq_ok.mp he
  obtain rfl := pure_eq_ok.mp he
  rw [ScratchFrame] at hframe
  have hstr : x.str c = d.str c := by rw [hframe]; rfl
  have hcx : c < x.count ∧ c ≠ eosCode x.maxb := by rw [hframe]; exact hc
  obtain ⟨hprevv, ha⟩ | ⟨-, rfl⟩ := DecUnit.appendPrev_eq_ok.mp hv
  · have hprev : x.prev < x.count ∧ x.prev ≠ eosCode x.maxb := by
      rw [hframe] at hprevv ⊢
      obtain ⟨hlt, hne, -⟩ := h.prev hprevv
      exact ⟨hlt, hne⟩
    obtain ⟨hvmid, hcount, hstrs⟩ := hx.append hprev ha
    refine ⟨v, hvmid, (ScratchFrame.decode hframe).trans (DecUnit.append_decode ha), ?_, ?_⟩
    · rw [hcount]; exact Nat.lt_succ_of_lt hcx.1
    · rw [hstrs c hcx.1 hcx.2, hstr]
  · exact ⟨v, hx, ScratchFrame.decode hframe, hcx.1, by rw [hstr]⟩

/-- The self-referential code ends by delivering its string from the dictionary that holds its entry (R178). -/
theorem DecUnit.selfRef_eq_ok {d e : DecUnit} (h : DecHolds d) (hm : d.memoriesWf = true)
    (hprevv : d.prevv = true) (hne : d.count ≠ eosCode d.maxb) (he : d.selfRef d.count = .ok e) :
    ∃ v, DecMid v ∧ DecodeFrame d v ∧ d.count < v.count ∧ e = v.output d.count (v.str d.count) := by
  obtain ⟨hlt, heos, -⟩ := h.prev hprevv
  obtain ⟨x, hx, he⟩ := bind_eq_ok.mp he
  obtain ⟨hxmid, hcount, -⟩ := (h.mid hm).append ⟨hlt, heos⟩ hx
  obtain ⟨-, -, hmaxb, -⟩ := DecUnit.append_code hx
  obtain ⟨⟨s, v⟩, hs, he⟩ := bind_eq_ok.mp he
  have hframe := DecUnit.string_frame hs
  have hcx : d.count < x.count := by rw [hcount]; exact d.count.lt_succ_self
  obtain ⟨rfl, hscratch⟩ := DecUnit.string_str hxmid.prefixes
    (DecUnit.memoriesWf_iff.mp hxmid.memories).2.2 hcx (hmaxb ▸ hne) hs
  obtain rfl := pure_eq_ok.mp he
  have hframe' := hframe
  rw [ScratchFrame] at hframe
  refine ⟨v, hxmid.scratch hframe' hscratch, (DecUnit.append_decode hx).trans hframe'.decode, ?_, ?_⟩
  · rw [hframe]; exact hcx
  · rw [hframe]; rfl

/-- A configured decoder between two codes of a byte: R46 but for the bound on `DEC.nacc` of a decoder that runs. -/
structure DecBetween (d : DecUnit) : Prop where
  holds : DecHolds d
  memories : d.memoriesWf = true
  prevFits : d.prev < 2 ^ maxWidth d.build.cap
  acc : AccOk d
  nacc : d.nacc ≤ maxWidth d.build.cap + 7
  errorLatched : d.st = .error → d.err = eCodeRange ∨ d.err = eSelfRefNoPrev

/-- The end of a code that is decoded, as `existing_eq_ok` and `selfRef_eq_ok` give it, keeps R46. -/
theorem DecBetween.output {d v : DecUnit} {c : Nat} (h : DecBetween d) (hv : DecMid v)
    (hframe : DecodeFrame d v) (hc : c < v.count ∧ c ≠ eosCode v.maxb) :
    DecBetween (v.output c (v.str c)) := by
  obtain ⟨hholds, hm, hprev⟩ := hv.output hc
  have hcap : c < v.build.cap := hc.1.trans_le hv.countLe
  have hbuild := (v.output_code c (v.str c)).1
  have hall := hframe.trans (v.output_decode c (v.str c))
  refine ⟨hholds, hm, ?_, ?_, ?_, ?_⟩
  · rw [hprev, hbuild]
    exact hcap.trans_le (le_two_pow_clog2 _)
  all_goals rw [DecodeFrame] at hall; rw [hall]
  · exact h.acc
  · exact h.nacc
  · exact h.errorLatched

/-- Every code keeps R46: a malformed one latches one of the two errors, `EOS` drops the buffered bits (R176). -/
theorem DecBetween.decodeIndex {d e : DecUnit} {c : Nat} (h : DecBetween d)
    (he : d.decodeIndex c = .ok e) : DecBetween e := by
  obtain ⟨-, e'⟩ | ⟨heos, hc, e'⟩ | ⟨heos, rfl, hprevv, e'⟩ | ⟨-, -, -, e'⟩ :=
    d.decodeIndex_cases c <;> rw [e'] at he
  · cases he
    exact ⟨{ h.holds with }, h.memories, h.prevFits, Nat.one_pos, Nat.zero_le _,
      fun hst => by cases hst⟩
  · obtain ⟨v, hv, hframe, hcv, rfl⟩ := DecUnit.existing_eq_ok h.holds h.memories ⟨hc, heos⟩ he
    refine h.output hv hframe ⟨hcv, ?_⟩
    rw [DecodeFrame] at hframe
    rw [hframe]
    exact heos
  · obtain ⟨v, hv, hframe, hcv, rfl⟩ := DecUnit.selfRef_eq_ok h.holds h.memories hprevv heos he
    refine h.output hv hframe ⟨hcv, ?_⟩
    rw [DecodeFrame] at hframe
    rw [hframe]
    exact heos
  · cases he
    refine ⟨{ h.holds with }, h.memories, h.prevFits, h.acc, h.nacc, fun _ => ?_⟩
    rw [DecUnit.err_malformed]
    split
    · exact .inl rfl
    · exact .inr rfl

/-! ### The code loop -/

theorem DecUnit.codeReady_iff {d : DecUnit} : d.codeReady = true ↔ d.st = .run ∧ d.w ≤ d.nacc := by
  simp [DecUnit.codeReady]

/-- Taking a code's bits leaves the accumulator with the bits above them (R182). -/
theorem DecBetween.dropCode {d : DecUnit} (h : DecBetween d) (hw : d.w ≤ d.nacc) :
    DecBetween d.dropCode := by
  have hacc : d.acc < 2 ^ d.nacc := h.acc
  refine ⟨{ h.holds with }, h.memories, h.prevFits, ?_, (Nat.sub_le _ _).trans h.nacc,
    h.errorLatched⟩
  rw [AccOk, DecUnit.acc_dropCode, DecUnit.nacc_dropCode, Nat.shiftRight_eq_div_pow,
    Nat.div_lt_iff_lt_mul (Nat.two_pow_pos _), ← Nat.pow_add, Nat.sub_add_cancel hw]
  exact hacc

/-- The code loop keeps R46 and ends where no further code can be taken (R182). -/
theorem DecUnit.codeLoop_between : ∀ {k : Nat} {d d' : DecUnit}, DecBetween d →
    d.codeLoop k = .ok d' → DecBetween d' ∧ d'.codeReady = false
  | 0, d, d', h, hl => by
    rw [DecUnit.codeLoop] at hl
    split at hl
    · cases hl
    · rename_i hready
      cases hl
      exact ⟨h, by simpa using hready⟩
  | k + 1, d, d', h, hl => by
    rw [DecUnit.codeLoop] at hl
    split at hl
    · rename_i hready
      obtain ⟨e, he, hl⟩ := bind_eq_ok.mp hl
      exact DecUnit.codeLoop_between
        ((h.dropCode (DecUnit.codeReady_iff.mp hready).2).decodeIndex he) hl
    · rename_i hready
      cases hl
      exact ⟨h, by simpa using hready⟩

/-- A byte of the stream stands above the bits already in the accumulator (R182). -/
theorem DecBetween.pushByte {d : DecUnit} (h : DecBetween d) (hn : d.nacc < d.w) (x : Byte) :
    DecBetween (d.pushByte x) := by
  refine ⟨{ h.holds with }, h.memories, h.prevFits, ?_, ?_, h.errorLatched⟩
  · have hx : x.toNat <<< d.nacc < 2 ^ (d.nacc + 8) := by
      rw [Nat.shiftLeft_eq, Nat.add_comm, Nat.pow_add]
      exact Nat.mul_lt_mul_of_pos_right x.isLt (Nat.two_pow_pos _)
    have hacc : d.acc < 2 ^ (d.nacc + 8) :=
      Nat.lt_of_lt_of_le h.acc (Nat.pow_le_pow_right (by decide) (Nat.le_add_right _ _))
    exact Nat.or_lt_two_pow hacc hx
  · have := h.holds.widthMax
    rw [DecUnit.nacc_pushByte, DecUnit.build_pushByte]
    omega

/-! ### The decoder's commands -/

theorem DecUnit.Inv.between {d : DecUnit} (h : d.Inv) (hcfg : d.cfg = true) : DecBetween d := by
  obtain ⟨hholds, hacc, hnacc⟩ := h.configured hcfg
  exact ⟨hholds, h.memories, h.prevFits, hacc, hnacc, h.errorLatched hcfg⟩

/-- A decoder between two codes that can take no further code is a decoder between two commands (R46). -/
theorem DecBetween.inv {d : DecUnit} (h : DecBetween d) (hb : d.build.wf = true)
    (hidle : d.codeReady = false) : d.Inv where
  build := hb
  memories := h.memories
  prevFits := h.prevFits
  configured _ := ⟨h.holds, h.acc, h.nacc⟩
  running _ hst := Nat.lt_of_not_le fun hw => by
    rw [DecUnit.codeReady_iff.mpr ⟨hst, hw⟩] at hidle
    cases hidle
  errorLatched _ := h.errorLatched

theorem DecUnit.Inv.respond {d : DecUnit} (h : d.Inv) (r : Response) : (d.respond r).Inv where
  build := h.build
  memories := h.memories
  prevFits := h.prevFits
  configured hcfg := by
    obtain ⟨hholds, hacc, hnacc⟩ := h.configured hcfg
    exact ⟨{ hholds with }, hacc, hnacc⟩
  running := h.running
  errorLatched := h.errorLatched

theorem DecUnit.Inv.raise {d : DecUnit} (h : d.Inv) (e : StatusCode) (i : InfoWord) :
    (d.raise e i).Inv := h.respond ⟨e, i⟩

/-- The decoder after the first steps of an INIT that fits, before its response (R181). -/
def DecUnit.started (d : DecUnit) (m : Byte) : DecUnit :=
  { ({ d with
      maxb := m, acc := 0, nacc := 0, st := .run, err := 0#8, info := 0#32 }).epochReset with
    cfg := true }

/-- The two cases of `DEC.INIT` (R181). -/
theorem DecUnit.init_cases (d : DecUnit) (m : Byte) :
    (m.toNat + 3 ≤ d.build.cap ∧ d.init m = (d.started m).respond (success sOk)) ∨
    (d.build.cap < m.toNat + 3 ∧
      d.init m = ({ d with cfg := false }).raise eConfig (zext32 m.toNat)) := by
  unfold DecUnit.init
  split
  · rename_i h
    exact .inl ⟨configValid_iff.mp h, rfl⟩
  · rename_i h
    exact .inr ⟨Nat.lt_of_not_le (mt configValid_iff.mpr h), rfl⟩

theorem DecUnit.started_inv {d : DecUnit} {m : Byte} (h : d.Inv)
    (hfits : m.toNat + 3 ≤ d.build.cap) : (d.started m).Inv where
  build := h.build
  memories := h.memories
  prevFits := h.prevFits
  configured _ := by
    have hholds := DecUnit.epochReset_holds (d := { d with
      maxb := m, acc := 0, nacc := 0, st := .run, err := 0#8, info := 0#32 }) hfits
    exact ⟨{ hholds with }, Nat.one_pos, Nat.zero_le _⟩
  running _ _ := startWidth_pos m
  errorLatched _ hst := by cases hst

theorem DecUnit.init_inv {d : DecUnit} (h : d.Inv) (m : Byte) : (d.init m).Inv := by
  obtain ⟨hfits, e⟩ | ⟨-, e⟩ := d.init_cases m <;> rw [e]
  · exact (DecUnit.started_inv h hfits).respond _
  · exact DecUnit.Inv.raise (d := { d with cfg := false })
      ⟨h.build, h.memories, h.prevFits, nofun, nofun, nofun⟩ _ _

theorem DecUnit.byte_inv {d d' : DecUnit} {x : Byte} (h : d.Inv) (hb : d.byte x = .ok d') :
    d'.Inv := by
  unfold DecUnit.byte at hb
  split at hb
  · cases hb; exact h.raise _ _
  · rename_i hcfg
    have hcfg : d.cfg = true := by simpa using hcfg
    cases hst : d.st with
    | done => rw [hst] at hb; cases hb; exact h.respond _
    | error => rw [hst] at hb; cases hb; exact h.raise _ _
    | run =>
      rw [hst] at hb
      obtain ⟨e, he, hb⟩ := bind_eq_ok.mp hb
      obtain rfl := pure_eq_ok.mp hb
      obtain ⟨hbetween, hidle⟩ :=
        DecUnit.codeLoop_between ((h.between hcfg).pushByte (h.running hcfg hst) x) he
      have hbuild : e.build = d.build := (DecUnit.codeLoop_code _ he).1
      exact (hbetween.inv (hbuild ▸ h.build) hidle).respond _

/-- Every command of the decoder keeps its invariant (R46). -/
theorem decResult_inv {i : Instr} {s : State} {d : DecUnit} (h : s.dec.Inv)
    (hi : decResult i s = .ok d) : d.Inv := by
  cases i with
  | encInit m => cases hi; exact h
  | encByte b => cases hi; exact h
  | encByteRemap k => cases hi; exact h
  | encFinal => cases hi; exact h
  | decInit m => cases hi; exact DecUnit.init_inv h m
  | decByte x => exact DecUnit.byte_inv h hi

end Sys2Proof.Machine
end

section
/-! PROOF. Every step keeps the invariant (10_state.md R45, R46). -/

namespace Sys2Proof.Machine

theorem State.Inv.withEnc {s : State} (h : s.Inv) {u : EncUnit} (hu : u.Inv) : (s.withEnc u).Inv :=
  ⟨hu, h.dec, h.remap⟩

theorem State.Inv.withDec {s : State} (h : s.Inv) {d : DecUnit} (hd : d.Inv) : (s.withDec d).Inv :=
  ⟨h.enc, hd, h.remap⟩

theorem State.Inv.exec {s t : State} {i : Instr} (h : s.Inv) (he : exec i s = .next t) : t.Inv := by
  cases hi : i.port with
  | enc =>
    rw [exec_enc hi] at he
    obtain ⟨u, hu, rfl⟩ := State.onEnc_eq_next.mp he
    exact h.withEnc (encResult_inv h.enc hu)
  | dec =>
    rw [exec_dec hi] at he
    obtain ⟨d, hd, rfl⟩ := State.onDec_eq_next.mp he
    exact h.withDec (decResult_inv h.dec hd)

theorem State.Inv.raiseIllegal {s : State} (h : s.Inv) (p : Port) (w : CmdWord) :
    (s.raiseIllegal p w).Inv := by
  cases p with
  | enc => exact h.withEnc (h.enc.raise _ _)
  | dec => exact h.withDec (h.dec.raise _ _)

theorem State.Inv.resetUnit {s : State} (h : s.Inv) (p : Port) : (s.resetUnit p).Inv := by
  cases p with
  | enc => exact h.withEnc (EncUnit.reset_inv h.enc.build _ _)
  | dec => exact h.withDec (DecUnit.reset_inv h.dec.build _ _)

theorem State.Inv.writeRemap {s : State} (h : s.Inv) (i v : Byte) : (s.writeRemap i v).Inv :=
  ⟨h.enc, h.dec, Memory.wf_write _ _ _ _ h.remap⟩

/-- The invariant does not speak of the host's pending events. -/
theorem State.Inv.setHost {s : State} (h : s.Inv) (rest : List HostEvent) :
    ({ s with host := rest }).Inv := ⟨h.enc, h.dec, h.remap⟩

/-- Settles O39: whatever the host does next, the step is one of five, and each keeps the invariant. -/
theorem stepKeepsTheInvariant : Obligations.StepKeepsTheInvariant := by
  intro s t h hstep
  obtain ⟨-, e⟩ | ⟨rest, i, v, -, e⟩ | ⟨rest, p, -, e⟩ | ⟨rest, p, w, r, -, -, e⟩ |
    ⟨rest, p, w, i, -, -, e⟩ := step_cases s <;> rw [e] at hstep
  · cases hstep; exact h
  · cases hstep; exact (h.setHost rest).writeRemap i v
  · cases hstep; exact (h.setHost rest).resetUnit p
  · cases hstep; exact (h.setHost rest).raiseIllegal p w
  · exact (h.setHost rest).exec hstep

end Sys2Proof.Machine
end

section
/-! PROOF. The encoder's computations end without a fault (20_memory.md R62, 30_encoding.md R95): in a state of the invariant
they access no memory out of range, and their searches end. -/

namespace Sys2Proof.Machine

/-- The computation ends without a fault. -/
def Answers {α : Type} (x : Except Fault α) : Prop := ∃ a, x = .ok a

theorem Answers.ok {α : Type} (a : α) : Answers (.ok a) := ⟨a, rfl⟩

/-- A computation in two parts answers if the first does and the second does from its result. -/
theorem Answers.bind {α β : Type} {x : Except Fault α} {f : α → Except Fault β} (hx : Answers x)
    (hf : ∀ a, x = .ok a → Answers (f a)) : Answers (x >>= f) := by
  obtain ⟨a, rfl⟩ := hx
  exact hf a rfl

/-! ### The bit packer -/

theorem EncUnit.commitByte_answers {u : EncUnit} (h : u.pos < u.build.stageBytes) :
    Answers u.commitByte := ⟨_, EncUnit.commitByte_eq_ok.mpr ⟨h, rfl⟩⟩

/-- The buffer has room for the byte that a bit may complete (R141). -/
theorem EncUnit.emitBit_answers {u : EncUnit} (hu : PackerOk u) (bit : Bool) :
    Answers (u.emitBit bit) := by
  by_cases hoff : u.off = 7
  · obtain ⟨v, hv⟩ := EncUnit.commitByte_answers (u := u.addBit bit) hu.cursor.pos
    exact ⟨_, EncUnit.emitBit_eq_ok.mpr (.inr ⟨hoff, v, hv, rfl⟩)⟩
  · exact ⟨_, EncUnit.emitBit_eq_ok.mpr (.inl ⟨hoff, rfl⟩)⟩

theorem EncUnit.emitBits_answers {u : EncUnit} (hu : PackerOk u) (bits : List Bool) :
    Answers (u.emitBits bits) := by
  induction bits generalizing u with
  | nil => exact .ok u
  | cons bit bits ih =>
    exact (EncUnit.emitBit_answers hu bit).bind fun v hv => ih (EncUnit.emitBit_packerOk hu hv)

theorem EncUnit.emit_answers {u : EncUnit} (hu : PackerOk u) (v w : Nat) : Answers (u.emit v w) :=
  EncUnit.emitBits_answers hu _

/-! ### LIST storage -/

theorem DictHolds.created_lt_cap {u : EncUnit} {es : Entries} {k : Nat} (h : DictHolds u es)
    (hk : k < es.length) : emptyCount u.maxb + k < u.build.cap :=
  (h.created hk).1.trans_le h.countLe

/-- A walk down the child list that held the first `k` entries ends within `k` steps: each sibling was created earlier
(R95, R119). -/
theorem EncUnit.listWalk_answers {u : EncUnit} {es : Entries} {p : Nat} {b : Byte}
    (hd : DictHolds u es) (hl : ListHolds u es) {n k : Nat} (hkn : k ≤ n) (hk : k ≤ es.length) :
    Answers (u.listWalk b n (lastChild u.maxb es p k)) := by
  induction n generalizing k with
  | zero =>
    obtain rfl := Nat.le_zero.mp hkn
    exact .ok _
  | succ n ih =>
    cases hc : lastChild u.maxb es p k with
    | none => exact .ok _
    | some c =>
      obtain ⟨j, hj, rfl, hjp, -⟩ := lastChild_some hc
      have hjlen : j < es.length := hj.trans_le hk
      have hcap := hd.created_lt_cap hjlen
      refine Answers.bind ⟨_, EncUnit.readBytev_eq_ok.mpr ⟨hcap, rfl⟩⟩ fun y _ => ?_
      split
      · exact .ok _
      · refine Answers.bind ⟨_, EncUnit.readSib_eq_ok.mpr ⟨hcap, rfl⟩⟩ fun e he => ?_
        obtain ⟨-, rfl⟩ := EncUnit.readSib_eq_ok.mp he
        rw [hl.sib j hjlen, hjp]
        exact ih (by omega) hjlen.le

theorem EncUnit.listLookup_answers {u : EncUnit} {es : Entries} {p : Nat} (hd : DictHolds u es)
    (hl : ListHolds u es) (hp : p < u.count) (heos : p ≠ eosCode u.maxb) (b : Byte) :
    Answers (u.listLookup p b) := by
  have hcount := hd.count
  have hcap := hd.countLe
  refine Answers.bind ⟨_, EncUnit.readFirst_eq_ok.mpr ⟨hp.trans_le hcap, rfl⟩⟩ fun e he => ?_
  obtain ⟨-, rfl⟩ := EncUnit.readFirst_eq_ok.mp he
  rw [hl.first p (hcount ▸ hp) heos]
  exact EncUnit.listWalk_answers hd hl (by omega) le_rfl

theorem EncUnit.listInsert_answers {u : EncUnit} {p : Nat} (hp : p < u.build.cap)
    (hroom : u.count < u.build.cap) (b : Byte) : Answers (u.listInsert p b) :=
  ⟨_, bind_eq_ok.mpr ⟨_, EncUnit.writeBytev_eq_ok.mpr ⟨hroom, rfl⟩,
    bind_eq_ok.mpr ⟨_, EncUnit.writeFirst_eq_ok.mpr ⟨hroom, rfl⟩,
    bind_eq_ok.mpr ⟨_, EncUnit.readFirst_eq_ok.mpr ⟨hp, rfl⟩,
    bind_eq_ok.mpr ⟨_, EncUnit.writeSib_eq_ok.mpr ⟨hroom, rfl⟩,
    bind_eq_ok.mpr ⟨_, EncUnit.writeFirst_eq_ok.mpr ⟨hp, rfl⟩, rfl⟩⟩⟩⟩⟩⟩

/-! ### TRIE storage -/

theorem slotIndex_lt {c n : Nat} (h : c < n) (b : Bool) : slotIndex c b < 2 * n := by
  have := Bool.toNat_le b
  simp only [slotIndex]
  omega

theorem EncUnit.readSlot_ok {u : EncUnit} {slot : Slot} (h : slot.code < u.build.cap) :
    u.readSlot slot = .ok (u.slotContent slot) := by
  cases slot <;> exact memRead_ok ⟨Nat.zero_le _, slotIndex_lt h _⟩

/-- A search in a trie whose codes are in range ends, if the path does not run out of bits at a code with another byte
(R95, R123). -/
theorem EncUnit.trieWalk_answers {u : EncUnit} {t : Trie} {slot : Slot} {b : Byte}
    {bits : List Bool} (ht : u.slotHolds slot t) (hslot : slot.code < u.build.cap)
    (hpath : ∀ c ∈ t.path bits, c < u.build.cap)
    (hend : ∀ c, (t.path bits)[bits.length]? = some c → Memory.read unlistedByte u.bytev c = b) :
    Answers (u.trieWalk b bits slot) := by
  induction t generalizing slot bits with
  | empty =>
    have hnone : u.slotContent slot = none := ht
    cases bits <;> rw [EncUnit.trieWalk, EncUnit.readSlot_ok hslot, hnone] <;> exact .ok _
  | node c z o ihz iho =>
    obtain ⟨hsome, hz, ho⟩ := ht
    have hc := hpath c (Trie.mem_path_node ..)
    have hbyte := EncUnit.readBytev_eq_ok.mpr ⟨hc, rfl⟩
    cases bits with
    | nil =>
      simp only [EncUnit.trieWalk, EncUnit.readSlot_ok hslot, hsome, hbyte, bind, Except.bind]
      rw [if_pos (hend c rfl)]
      exact .ok _
    | cons bit bits =>
      simp only [EncUnit.trieWalk, EncUnit.readSlot_ok hslot, hsome, hbyte, bind, Except.bind]
      split
      · exact .ok _
      · rw [Trie.path_cons] at hpath hend
        have hpath := (List.forall_mem_cons.mp hpath).2
        cases bit with
        | false => exact ihz hz hc hpath hend
        | true => exact iho ho hc hpath hend

/-- `TrieLookup` ends: a path that uses up the bits of the byte ends at the entry with that byte (R122, R123). -/
theorem EncUnit.trieLookup_answers {u : EncUnit} {es : Entries} {p : Nat} (hd : DictHolds u es)
    (ht : TrieHolds u es) (hp : p < u.count) (heos : p ≠ eosCode u.maxb) (b : Byte) :
    Answers (u.trieLookup p b) := by
  refine EncUnit.trieWalk_answers (ht p (hd.count ▸ hp) heos _) (hp.trans_le hd.countLe)
    (fun c hc => ?_) fun c hc => ?_
  · obtain ⟨i, hi⟩ := List.mem_iff_getElem?.mp hc
    obtain ⟨j, hj, rfl, -⟩ := get_path_trieOf hi
    exact hd.created_lt_cap hj
  · obtain ⟨j, hj, rfl, ⟨-, hbit⟩, hbits⟩ := get_path_trieOf hc
    rw [List.take_length, List.take_of_length_le (by simp)] at hbits
    rw [hd.bytev j hj]
    exact byte_eq_of_branchBits hbit hbits

/-- A write of a slot in range answers, and so does what follows if it does at every unit of the same capacity. -/
theorem EncUnit.writeSlot_bind_answers {slot : Slot} {e : Option Nat} {n : Nat}
    {f : EncUnit → Except Fault EncUnit} (hslot : slot.code < n)
    (hf : ∀ v : EncUnit, v.build.cap = n → Answers (f v)) (u : EncUnit) (hu : u.build.cap = n) :
    Answers (u.writeSlot slot e >>= f) := by
  refine Answers.bind ?_ fun v hv => hf v (by rw [(EncUnit.writeSlot_frame hv).stream.1, hu])
  cases slot with
  | root c b =>
    exact ⟨_, EncUnit.writeSlot_root_eq_ok.mpr ⟨hu ▸ slotIndex_lt hslot b, rfl⟩⟩
  | nxt c b =>
    exact ⟨_, EncUnit.writeSlot_nxt_eq_ok.mpr ⟨hu ▸ slotIndex_lt hslot b, rfl⟩⟩

theorem EncUnit.trieInsert_answers {u : EncUnit} {slot : Slot} (hroom : u.count < u.build.cap)
    (hslot : slot.code < u.build.cap) (b : Byte) : Answers (u.trieInsert b slot) := by
  refine Answers.bind ⟨_, EncUnit.writeBytev_eq_ok.mpr ⟨hroom, rfl⟩⟩ fun v hv => ?_
  obtain ⟨-, rfl⟩ := EncUnit.writeBytev_eq_ok.mp hv
  exact EncUnit.writeSlot_bind_answers hroom (EncUnit.writeSlot_bind_answers hroom
    (EncUnit.writeSlot_bind_answers hroom (EncUnit.writeSlot_bind_answers hroom
      (EncUnit.writeSlot_bind_answers hslot fun _ _ => .ok _)))) _ rfl

/-! ### `ENC.BYTE` -/

/-- `DictAdd` answers by either strategy, for a prefix that is a code other than `EOS`, with room for an entry (R112). -/
theorem EncUnit.dictAdd_answers {u : EncUnit} {es : Entries} {p : Nat} (hd : DictHolds u es)
    (hroom : u.count < u.build.cap) (hp : p < u.count) (heos : p ≠ eosCode u.maxb) (b : Byte) :
    Answers (u.dictAdd (some p) b) := by
  cases hs : u.build.strategy with
  | list =>
    simp only [EncUnit.dictAdd, hs]
    refine (EncUnit.listLookup_answers hd (hd.list hs) hp heos b).bind fun r _ => ?_
    cases r with
    | found c => exact .ok _
    | notFound =>
      exact (EncUnit.listInsert_answers (hp.trans hroom) hroom b).bind fun _ _ => .ok _
  | trie =>
    simp only [EncUnit.dictAdd, hs]
    refine (EncUnit.trieLookup_answers hd (hd.trie hs) hp heos b).bind fun r hr => ?_
    cases r with
    | found c => exact .ok _
    | notFound slot =>
      obtain ⟨-, hole⟩ := EncUnit.trieLookup_means hd (hd.trie hs) hp heos hr
      have hslot := code_lt_of_mem_slots hp hd.count.ge (Trie.hole_mem_slots hole)
      exact (EncUnit.trieInsert_answers hroom (hslot.trans hroom) b).bind fun _ _ => .ok _

/-- The bit packer is no part of the dictionary. -/
theorem DictFrame.packerOk {u u' : EncUnit} (h : DictFrame u u') (hu : PackerOk u) :
    PackerOk u' := by
  rw [DictFrame] at h
  rw [h]
  exact ⟨⟨hu.cursor.off, hu.cursor.cur, hu.cursor.pos⟩, hu.stage⟩

theorem EncUnit.afterInsert_answers {u : EncUnit} (hu : PackerOk u) (b : Byte) :
    Answers (u.afterInsert b) := by
  unfold EncUnit.afterInsert
  split
  · exact (EncUnit.emit_answers hu _ _).bind fun _ _ => .ok _
  · split
    · exact .ok _
    · exact .ok _

/-- `DictAdd` on the match register answers, whether or not it holds a match. -/
theorem EncUnit.dictAdd_matchCode_answers {u : EncUnit} {es : Entries} (h : EncHolds u es)
    (b : Byte) : Answers (u.dictAdd u.matchCode b) := by
  unfold EncUnit.matchCode
  split
  · rename_i hv
    obtain ⟨hidx, heos⟩ := h.matched hv
    exact EncUnit.dictAdd_answers h.dict h.room hidx heos b
  · exact .ok _

theorem EncUnit.take_answers {u : EncUnit} {es : Entries} (h : EncHolds u es)
    (hm : u.memoriesWf = true) (b : Byte) : Answers (u.take b) := by
  refine (EncUnit.dictAdd_matchCode_answers h b).bind fun ⟨r, v⟩ hadd => ?_
  obtain ⟨-, c, rfl⟩ | ⟨rfl, hframe, -⟩ := EncUnit.dictAdd_frame hadd
  · exact .ok _
  · have hv := hframe.packerOk (.of_cursor h.cursor hm)
    refine (EncUnit.emit_answers hv _ _).bind fun x hx => ?_
    have hx := EncUnit.emit_packerOk hv hx
    have hx' : PackerOk { x with idx := b.toNat } :=
      ⟨⟨hx.cursor.off, hx.cursor.cur, hx.cursor.pos⟩, hx.stage⟩
    exact (EncUnit.afterInsert_answers hx' b).bind fun _ _ => .ok _

theorem EncUnit.checkedTake_answers {u : EncUnit} (h : u.Inv) (b : Byte) (rangeInfo : InfoWord) :
    Answers (u.checkedTake b rangeInfo) := by
  unfold EncUnit.checkedTake
  split
  · exact .ok _
  · rename_i hcfg
    obtain ⟨es, hes⟩ := h.configured (by simpa using hcfg)
    split
    · exact .ok _
    · exact EncUnit.take_answers hes h.memories b

/-! ### `ENC.FINAL` -/

theorem EncUnit.emitPending_answers {u : EncUnit} (hu : PackerOk u) : Answers u.emitPending := by
  unfold EncUnit.emitPending
  split
  · exact (EncUnit.emit_answers hu _ _).bind fun _ _ => .ok _
  · exact .ok _

theorem EncUnit.padByte_answers {u : EncUnit} (hu : PackerOk u) : Answers u.padByte := by
  unfold EncUnit.padByte
  split
  · exact EncUnit.commitByte_answers hu.cursor.pos
  · exact .ok _

theorem EncUnit.final_answers {u : EncUnit} (h : u.Inv) : Answers u.final := by
  unfold EncUnit.final
  split
  · exact .ok _
  · rename_i hcfg
    obtain ⟨es, hes⟩ := h.configured (by simpa using hcfg)
    have hu := PackerOk.of_cursor hes.cursor h.memories
    refine (EncUnit.emitPending_answers hu).bind fun v hv => ?_
    have hv := (EncUnit.emitPending_step hu h.memories hv).packer
    refine (EncUnit.emit_answers hv _ _).bind fun x hx => ?_
    have hx := EncUnit.emit_packerOk hv hx
    exact (EncUnit.padByte_answers hx).bind fun _ _ => .ok _

/-- Every command of the encoder answers. -/
theorem encResult_answers {s : State} (h : s.enc.Inv) (i : Instr) : Answers (encResult i s) := by
  cases i with
  | encInit m => exact .ok _
  | encByte b => exact EncUnit.checkedTake_answers h b _
  | encByteRemap d => exact EncUnit.checkedTake_answers h _ _
  | encFinal => exact EncUnit.final_answers h
  | decInit m => exact .ok _
  | decByte x => exact .ok _

end Sys2Proof.Machine
end

section
/-! PROOF. The decoder's computations end without a fault (20_memory.md R62, 30_encoding.md R95): in a state of the invariant
they access no memory out of range, a string fits the scratch buffer, and every code takes bits. -/

namespace Sys2Proof.Machine

/-! ### String reconstruction -/

/-- The walk of `String` ends within the bytes left in the scratch buffer: each turn comes to a lower code, and no code is
further above the literals than there are bytes left (R95, R174). -/
theorem DecUnit.walk_answers {k : Nat} {d : DecUnit} {n x : Nat} (hp : PrefixesOk d)
    (hcount : d.count ≤ d.build.cap) (hx : x < d.count) (heos : x ≠ eosCode d.maxb)
    (hn : n + k ≤ d.build.cap - literalCount d.maxb) (hk : 0 < k)
    (hxk : x < k + literalCount d.maxb) : Answers (d.walk k n x) := by
  induction k generalizing d n x with
  | zero => cases hk
  | succ k ih =>
    have hroom : n < d.build.cap - literalCount d.maxb := by omega
    rw [DecUnit.walk]
    split
    · rename_i hlit
      have hcreated := emptyCount_le hlit heos
      have hrange := And.intro hcreated (hx.trans_le hcount)
      have hlow := hp.lower x hcreated hx
      have habove : literalCount d.maxb < x := hcreated
      refine Answers.bind ⟨_, memRead_ok hrange⟩ fun y _ => ?_
      refine Answers.bind ⟨_, DecUnit.writeScratch_eq_ok.mpr ⟨hroom, rfl⟩⟩ fun e he => ?_
      obtain ⟨-, rfl⟩ := DecUnit.writeScratch_eq_ok.mp he
      refine Answers.bind ⟨_, memRead_ok hrange⟩ fun x' hx' => ?_
      obtain rfl := DecUnit.readPrefix_eq_ok hx'
      have hx' : Memory.read unlistedCode d.pfx x < k + literalCount d.maxb := by omega
      exact ih ⟨hp.lower, hp.notEos⟩ hcount (hlow.trans hx) (hp.notEos x hcreated hx)
        (show n + 1 + k ≤ d.build.cap - literalCount d.maxb by omega) (by omega) hx'
    · exact Answers.bind ⟨_, DecUnit.writeScratch_eq_ok.mpr ⟨hroom, rfl⟩⟩ fun _ _ => .ok _

theorem DecUnit.string_answers {d : DecUnit} {c : Nat} (h : DecMid d)
    (hc : c < d.count ∧ c ≠ eosCode d.maxb) : Answers (d.string c) := by
  have hfits := h.fits
  have hcap := h.countLe
  have hlit : literalCount d.maxb < d.build.cap := by
    simp only [literalCount]
    omega
  exact (DecUnit.walk_answers h.prefixes hcap hc.1 hc.2 (by omega) (by omega)
    (by omega)).bind fun _ _ => .ok _

/-! ### One code -/

theorem DecUnit.append_answers {d : DecUnit} (hmin : emptyCount d.maxb ≤ d.count)
    (hroom : d.count < d.build.cap) (p : Nat) (y : Byte) : Answers (d.append p y) :=
  ⟨_, DecUnit.append_eq_ok.mpr ⟨⟨hmin, hroom⟩, rfl⟩⟩

theorem DecUnit.appendPrev_answers {d : DecUnit} (hmin : emptyCount d.maxb ≤ d.count)
    (hroom : d.count < d.build.cap) (y : Byte) : Answers (d.appendPrev y) := by
  unfold DecUnit.appendPrev
  split
  · exact DecUnit.append_answers hmin hroom _ _
  · exact .ok _

theorem DecUnit.existing_answers {d : DecUnit} {c : Nat} (h : DecHolds d)
    (hm : d.memoriesWf = true) (hc : c < d.count ∧ c ≠ eosCode d.maxb) :
    Answers (d.existing c) := by
  refine (DecUnit.string_answers (h.mid hm) hc).bind fun ⟨s, v⟩ hs => ?_
  have hframe := DecUnit.string_frame hs
  rw [ScratchFrame] at hframe
  refine (DecUnit.appendPrev_answers ?_ ?_ _).bind fun _ _ => .ok _ <;> rw [hframe]
  · exact h.countMin
  · exact h.room

theorem DecUnit.selfRef_answers {d : DecUnit} (h : DecHolds d) (hm : d.memoriesWf = true)
    (hprevv : d.prevv = true) (hne : d.count ≠ eosCode d.maxb) : Answers (d.selfRef d.count) := by
  obtain ⟨hlt, heos, -⟩ := h.prev hprevv
  refine (DecUnit.append_answers h.countMin h.room _ _).bind fun v hv => ?_
  obtain ⟨hmid, hcount, -⟩ := (h.mid hm).append ⟨hlt, heos⟩ hv
  obtain ⟨-, -, hmaxb, -⟩ := DecUnit.append_code hv
  have hc : d.count < v.count ∧ d.count ≠ eosCode v.maxb :=
    ⟨hcount ▸ d.count.lt_succ_self, hmaxb ▸ hne⟩
  exact (DecUnit.string_answers hmid hc).bind fun _ _ => .ok _

/-- Every code answers: what cannot be decoded is an error of the stream and no fault (R176, R179). -/
theorem DecBetween.decodeIndex_answers {d : DecUnit} (h : DecBetween d) (c : Nat) :
    Answers (d.decodeIndex c) := by
  obtain ⟨-, e⟩ | ⟨heos, hc, e⟩ | ⟨heos, rfl, hprevv, e⟩ | ⟨-, -, -, e⟩ :=
    d.decodeIndex_cases c <;> rw [e]
  · exact .ok _
  · exact DecUnit.existing_answers h.holds h.memories ⟨hc, heos⟩
  · exact DecUnit.selfRef_answers h.holds h.memories hprevv heos
  · exact .ok _

theorem DecodeFrame.nacc {d d' : DecUnit} (h : DecodeFrame d d') : d'.nacc = d.nacc := by
  rw [DecodeFrame] at h
  rw [h]

/-- A code adds no bits to the accumulator (R176 to R179). -/
theorem DecBetween.decodeIndex_nacc_le {d e : DecUnit} {c : Nat} (h : DecBetween d)
    (he : d.decodeIndex c = .ok e) : e.nacc ≤ d.nacc := by
  obtain ⟨-, e'⟩ | ⟨heos, hc, e'⟩ | ⟨heos, rfl, hprevv, e'⟩ | ⟨-, -, -, e'⟩ :=
    d.decodeIndex_cases c <;> rw [e'] at he
  · cases he
    exact Nat.zero_le _
  · obtain ⟨v, -, hframe, -, rfl⟩ := DecUnit.existing_eq_ok h.holds h.memories ⟨hc, heos⟩ he
    exact (hframe.trans (v.output_decode _ _)).nacc.le
  · obtain ⟨v, -, hframe, -, rfl⟩ := DecUnit.selfRef_eq_ok h.holds h.memories hprevv heos he
    exact (hframe.trans (v.output_decode _ _)).nacc.le
  · cases he
    exact le_rfl

/-! ### The code loop -/

/-- The code loop ends within as many turns as bits are held: each turn takes at least one (R95, R182). -/
theorem DecUnit.codeLoop_answers {k : Nat} {d : DecUnit} (h : DecBetween d) (hk : d.nacc ≤ k) :
    Answers (d.codeLoop k) := by
  induction k generalizing d with
  | zero =>
    have hw : 0 < d.w := (startWidth_pos d.maxb).trans h.holds.widthMin
    rw [DecUnit.codeLoop, if_neg fun hready => by
      have := (DecUnit.codeReady_iff.mp hready).2
      omega]
    exact .ok d
  | succ k ih =>
    rw [DecUnit.codeLoop]
    split
    · rename_i hready
      have hwn := (DecUnit.codeReady_iff.mp hready).2
      have hw : 0 < d.w := (startWidth_pos d.maxb).trans h.holds.widthMin
      have hdrop := h.dropCode hwn
      refine (hdrop.decodeIndex_answers _).bind fun e he => ih (hdrop.decodeIndex he) ?_
      have hle := hdrop.decodeIndex_nacc_le he
      rw [DecUnit.nacc_dropCode] at hle
      omega
    · exact .ok d

theorem DecUnit.byte_answers {d : DecUnit} (h : d.Inv) (x : Byte) : Answers (d.byte x) := by
  unfold DecUnit.byte
  split
  · exact .ok _
  · rename_i hcfg
    have hcfg : d.cfg = true := by simpa using hcfg
    split
    · exact .ok _
    · exact .ok _
    · rename_i hrun
      have hpush := (h.between hcfg).pushByte (h.running hcfg hrun) x
      exact (DecUnit.codeLoop_answers hpush le_rfl).bind fun _ _ => .ok _

/-- Every command of the decoder answers. -/
theorem decResult_answers {s : State} (h : s.dec.Inv) (i : Instr) : Answers (decResult i s) := by
  cases i with
  | encInit m => exact .ok _
  | encByte b => exact .ok _
  | encByteRemap d => exact .ok _
  | encFinal => exact .ok _
  | decInit m => exact .ok _
  | decByte x => exact DecUnit.byte_answers h x

end Sys2Proof.Machine
end

section
/-! PROOF. No step from a state of the invariant stops (20_memory.md R62, 30_encoding.md R95). -/

namespace Sys2Proof.Machine

theorem exec_next {s : State} (h : s.Inv) (i : Instr) : ∃ t, exec i s = .next t := by
  cases hi : i.port with
  | enc =>
    obtain ⟨u, hu⟩ := encResult_answers h.enc i
    exact ⟨_, (exec_enc hi s).trans (State.onEnc_eq_next.mpr ⟨u, hu, rfl⟩)⟩
  | dec =>
    obtain ⟨d, hd⟩ := decResult_answers h.dec i
    exact ⟨_, (exec_dec hi s).trans (State.onDec_eq_next.mpr ⟨d, hd, rfl⟩)⟩

/-- Settles O40: only a legal command computes anything that could stop, and every command answers. -/
theorem stepNeverStops : Obligations.StepNeverStops := by
  intro s h
  obtain ⟨-, e⟩ | ⟨rest, i, v, -, e⟩ | ⟨rest, p, -, e⟩ | ⟨rest, p, w, r, -, -, e⟩ |
    ⟨rest, p, w, i, -, -, e⟩ := step_cases s <;> rw [e]
  · exact ⟨_, rfl⟩
  · exact ⟨_, rfl⟩
  · exact ⟨_, rfl⟩
  · exact ⟨_, rfl⟩
  · exact exec_next (h.setHost rest) i

end Sys2Proof.Machine
end

section
/-! PROOF. Command words (30_encoding.md R81 to R84): the fields of a word and the word of its fields, the command a word
decodes to, and which words are illegal. -/

namespace Sys2Proof

/-! ### The fields of a word -/

/-- The fields of a word as digits of its number (R81). -/
theorem toNat_fieldUnit (w : CmdWord) : (fieldUnit w).toNat = w.toNat / 32768 := by
  have hw := w.isLt
  rw [fieldUnit, BitVec.getLsbD, Nat.toNat_testBit]
  omega

theorem toNat_fieldOp (w : CmdWord) : (fieldOp w).toNat = w.toNat / 4096 % 8 := by
  rw [fieldOp, BitVec.extractLsb'_toNat, Nat.shiftRight_eq_div_pow]

theorem toNat_fieldRsvd (w : CmdWord) : (fieldRsvd w).toNat = w.toNat / 256 % 16 := by
  rw [fieldRsvd, BitVec.extractLsb'_toNat, Nat.shiftRight_eq_div_pow]

theorem toNat_fieldData (w : CmdWord) : (fieldData w).toNat = w.toNat % 256 := by
  rw [fieldData, BitVec.extractLsb'_toNat, Nat.shiftRight_zero]

/-- The number of a word assembled of its fields (R81). -/
theorem toNat_assembleWord (unit : Bool) (op : BitVec 3) (data : Byte) :
    (assembleWord unit op data).toNat = unit.toNat * 32768 + op.toNat * 4096 + data.toNat := by
  have happend : (assembleWord unit op data).toNat =
      (BitVec.ofBool unit ++ op ++ 0#4 ++ data).toNat := rfl
  rw [happend, BitVec.toNat_append, BitVec.toNat_append, BitVec.toNat_append, BitVec.toNat_ofBool,
    ← Nat.shiftLeft_add_eq_or_of_lt op.isLt, ← Nat.shiftLeft_add_eq_or_of_lt (0#4).isLt,
    ← Nat.shiftLeft_add_eq_or_of_lt data.isLt]
  simp only [Nat.shiftLeft_eq, BitVec.toNat_ofNat]
  omega

/-- A word is assembled of given fields exactly when it has them and its reserved bits are 0: the fields leave out no bit
and share none (R81). -/
theorem assembleWord_eq_iff {unit : Bool} {op : BitVec 3} {data : Byte} {w : CmdWord} :
    assembleWord unit op data = w ↔
      fieldUnit w = unit ∧ fieldRsvd w = 0#4 ∧ fieldOp w = op ∧ fieldData w = data := by
  have hunit := unit.toNat_le
  have hop := op.isLt
  have hdata := data.isLt
  have hw := w.isLt
  have hbool : ∀ a b : Bool, a = b ↔ a.toNat = b.toNat := by decide
  rw [hbool, ← BitVec.toNat_inj, ← BitVec.toNat_inj, ← BitVec.toNat_inj, ← BitVec.toNat_inj,
    toNat_assembleWord, toNat_fieldUnit, toNat_fieldOp, toNat_fieldRsvd, toNat_fieldData,
    BitVec.toNat_ofNat]
  omega

/-! ### The word of a command -/

/-- The `OP` of a command (R82). -/
def Instr.op : Instr → BitVec 3
  | .encInit _ => 0#3
  | .encByte _ => 1#3
  | .encByteRemap _ => 2#3
  | .encFinal => 3#3
  | .decInit _ => 0#3
  | .decByte _ => 1#3

/-- The `DATA` of a command: its operand, and 0 for `ENC.FINAL` (R82, R83). -/
def Instr.data : Instr → Byte
  | .encInit m => m
  | .encByte b => b
  | .encByteRemap d => d
  | .encFinal => 0#8
  | .decInit m => m
  | .decByte x => x

theorem encode_eq_assembleWord (i : Instr) :
    encode i = assembleWord (unitBit i.port) i.op i.data := by
  cases i <;> rfl

/-! ### The command of a word -/

/-- Every operation of the encoder has the port, the `OP` and the `DATA` it is decoded from (R82). -/
theorem decodeEnc_eq_ok {op : BitVec 3} {data : Byte} {i : Instr} :
    decodeEnc op data = .ok i ↔ i.port = .enc ∧ op = i.op ∧ data = i.data := by
  constructor
  · intro h
    unfold decodeEnc at h
    split at h
    case h_1 hop | h_2 hop | h_3 hop => cases h; exact ⟨rfl, BitVec.eq_of_toNat_eq hop, rfl⟩
    case h_4 hop =>
      split at h <;> cases h
      exact ⟨rfl, BitVec.eq_of_toNat_eq hop, ‹_›⟩
    case h_5 => cases h
  · rintro ⟨hport, rfl, rfl⟩
    cases i with
    | decInit m => cases hport
    | decByte x => cases hport
    | _ => rfl

theorem decodeDec_eq_ok {op : BitVec 3} {data : Byte} {i : Instr} :
    decodeDec op data = .ok i ↔ i.port = .dec ∧ op = i.op ∧ data = i.data := by
  constructor
  · intro h
    unfold decodeDec at h
    split at h
    case h_1 hop | h_2 hop => cases h; exact ⟨rfl, BitVec.eq_of_toNat_eq hop, rfl⟩
    case h_3 => cases h
  · rintro ⟨hport, rfl, rfl⟩
    cases i with
    | decInit m => rfl
    | decByte x => rfl
    | _ => cases hport

/-- The two checks of a word before its operation is looked up (first and second point of R84). -/
theorem decode_eq_ok {p : Port} {w : CmdWord} {i : Instr} :
    decode p w = .ok i ↔ fieldUnit w = unitBit p ∧ fieldRsvd w = 0#4 ∧
      i.port = p ∧ fieldOp w = i.op ∧ fieldData w = i.data := by
  unfold decode
  by_cases hunit : fieldUnit w = unitBit p
  · by_cases hrsvd : fieldRsvd w = 0#4
    · rw [if_neg (not_not.mpr hunit), if_neg (not_not.mpr hrsvd)]
      cases p
      · simp only [decodeEnc_eq_ok, hunit, hrsvd, true_and]
      · simp only [decodeDec_eq_ok, hunit, hrsvd, true_and]
    · simp [hunit, hrsvd]
  · simp [hunit]

/-- Settles O1: a word decodes to a command exactly when its fields are those of the command, and the word of a command is the
one word that has them. -/
theorem decodeAndEncodeAgree : Obligations.DecodeAndEncodeAgree := by
  intro p w i
  rw [decode_eq_ok, encode_eq_assembleWord, assembleWord_eq_iff]
  constructor
  · rintro ⟨hunit, hrsvd, rfl, hop, hdata⟩
    exact ⟨rfl, hunit, hrsvd, hop, hdata⟩
  · rintro ⟨rfl, hunit, hrsvd, hop, hdata⟩
    exact ⟨hunit, hrsvd, rfl, hop, hdata⟩

/-- Settles O2: each row evaluates to what the section lists. -/
theorem wordsOfTheSpecDecode : Obligations.WordsOfTheSpecDecode := by
  unfold Obligations.WordsOfTheSpecDecode
  decide

/-! ### Illegal words -/

/-- The points of R84, the third one port by port. -/
def IllegalAt (p : Port) (w : CmdWord) : Prop :=
  fieldUnit w ≠ (p == .dec) ∨ fieldRsvd w ≠ 0#4 ∨
    (p = .enc ∧ 4 ≤ (fieldOp w).toNat) ∨ (p = .dec ∧ 2 ≤ (fieldOp w).toNat) ∨
    (p = .enc ∧ fieldOp w = 3#3 ∧ fieldData w ≠ 0#8)

theorem beq_dec_eq_unitBit (p : Port) : (p == .dec) = unitBit p := by
  cases p <;> rfl

/-- The encoder has an operation for every `OP` up to 3, and 3 takes no `DATA` (R82). -/
theorem exists_decodeEnc_eq_ok {op : BitVec 3} {data : Byte} :
    (∃ i, decodeEnc op data = .ok i) ↔ ¬ 4 ≤ op.toNat ∧ ¬ (op = 3#3 ∧ data ≠ 0#8) := by
  simp only [decodeEnc_eq_ok]
  constructor
  · rintro ⟨i, hport, rfl, rfl⟩
    cases i with
    | decInit m => cases hport
    | decByte x => cases hport
    | encInit m => simp [Instr.op]
    | encByte b => simp [Instr.op]
    | encByteRemap d => simp [Instr.op]
    | encFinal => simp [Instr.op, Instr.data]
  · rintro ⟨hlisted, hfinal⟩
    have hop : op = 0#3 ∨ op = 1#3 ∨ op = 2#3 ∨ op = 3#3 := by bv_omega
    obtain rfl | rfl | rfl | rfl := hop
    · exact ⟨.encInit data, rfl, rfl, rfl⟩
    · exact ⟨.encByte data, rfl, rfl, rfl⟩
    · exact ⟨.encByteRemap data, rfl, rfl, rfl⟩
    · exact ⟨.encFinal, rfl, rfl, not_not.mp fun h => hfinal ⟨rfl, h⟩⟩

/-- The decoder has an operation for the values 0 and 1 of `OP` (R82). -/
theorem exists_decodeDec_eq_ok {op : BitVec 3} {data : Byte} :
    (∃ i, decodeDec op data = .ok i) ↔ ¬ 2 ≤ op.toNat := by
  simp only [decodeDec_eq_ok]
  constructor
  · rintro ⟨i, hport, rfl, rfl⟩
    cases i with
    | decInit m => simp [Instr.op]
    | decByte x => simp [Instr.op]
    | _ => cases hport
  · intro hlisted
    have hop : op = 0#3 ∨ op = 1#3 := by bv_omega
    obtain rfl | rfl := hop
    · exact ⟨.decInit data, rfl, rfl, rfl⟩
    · exact ⟨.decByte data, rfl, rfl, rfl⟩

/-- The words that decode to no command are those of R84. -/
theorem exists_decode_eq_ok {p : Port} {w : CmdWord} :
    (∃ i, decode p w = .ok i) ↔ ¬ IllegalAt p w := by
  have hchecks : (∃ i, decode p w = .ok i) ↔ fieldUnit w = unitBit p ∧ fieldRsvd w = 0#4 ∧
      ∃ i : Instr, i.port = p ∧ fieldOp w = i.op ∧ fieldData w = i.data := by
    simp only [decode_eq_ok, exists_and_left]
  rw [hchecks, IllegalAt, beq_dec_eq_unitBit]
  cases p with
  | enc =>
    simp only [← decodeEnc_eq_ok, exists_decodeEnc_eq_ok]
    simp
  | dec =>
    simp only [← decodeDec_eq_ok, exists_decodeDec_eq_ok]
    simp

theorem IllegalAt.decode_eq_error {p : Port} {w : CmdWord} (h : IllegalAt p w) :
    ∃ r, decode p w = .error r := by
  cases hd : decode p w with
  | error r => exact ⟨r, rfl⟩
  | ok i => exact absurd h (exists_decode_eq_ok.mp ⟨i, hd⟩)

end Sys2Proof
end

section
/-! PROOF. What the host's next event does (30_encoding.md R84, R91, R96): an illegal word is answered, the word of a command
runs it, and a write of the REMAP table changes one entry. -/

namespace Sys2Proof.Machine

/-- An illegal word is received as its response. -/
theorem State.receive_of_error {s : State} {p : Port} {w : CmdWord} {r : IllegalCommand}
    (h : decode p w = .error r) : s.receive p w = .settled (s.raiseIllegal p w) := by
  rw [State.receive, h]

/-- `INFO` of an illegal word is the word, extended with zeros (R214). -/
theorem illegalInfo_eq_setWidth (w : CmdWord) : illegalInfo w = w.setWidth 32 :=
  BitVec.ofNat_toNat 32 w

/-- Settles O3: the words of R84 are those that decode to nothing, and such a word is received as its response. -/
theorem illegalWordIsAnsweredAndChangesNothing :
    Obligations.IllegalWordIsAnsweredAndChangesNothing := by
  intro s p w rest hhost
  refine ⟨fun hillegal => ?_, exists_decode_eq_ok.mpr⟩
  obtain ⟨r, hr⟩ := IllegalAt.decode_eq_error hillegal
  rw [step, fetch_of_command hhost, State.receive_of_error hr, ← illegalInfo_eq_setWidth]
  cases p <;> rfl

/-! ### An issued word -/

/-- A 16-bit number is its own word of the opcode table's numbering. -/
@[simp] theorem tableWord_toNat (w : CmdWord) : tableWord 16 w.toNat = w := by
  rw [tableWord, Nat.mod_eq_of_lt w.isLt, BitVec.ofNat_toNat, BitVec.setWidth_eq]

/-- A command decodes from its own word at its own port. -/
theorem decode_encode (i : Instr) : decode i.port (encode i) = .ok i :=
  (decodeAndEncodeAgree i.port (encode i) i).mpr ⟨rfl, rfl⟩

/-- `UNIT` of a command's word names the command's port (R81). -/
theorem portOf_encode (i : Instr) : portOf (encode i) = i.port := by
  obtain ⟨hunit, -⟩ := decode_eq_ok.mp (decode_encode i)
  rw [portOf, hunit]
  cases i.port <;> rfl

/-- Settles O5: the word goes to the command's own port, where it decodes to the command. -/
theorem issuedWordRunsNext : Obligations.IssuedWordRunsNext := by
  intro s i
  constructor
  · rw [State.withFetchWord, tableWord_toNat, portOf_encode]
    exact stepRunsTheDecodedCommand _ i.port _ i s.host rfl (decode_encode i)
  · rw [decodeTableWord, if_pos (Nat.mod_lt _ (Nat.two_pow_pos 16)), tableWord_toNat, portOf_encode,
      decode_encode]

/-! ### The REMAP table -/

/-- With a change of the REMAP table pending, the core takes the change. -/
theorem fetch_of_remapWrite {s : State} {j v : Byte} {rest : List HostEvent}
    (h : s.host = .remapWrite j v :: rest) :
    fetch s = .settled (({ s with host := rest }).writeRemap j v) := by
  rw [fetch, h]
  rfl

/-- A table's entry after a change of one entry (R91). -/
theorem State.remapEntry_writeRemap {s : State} (h : Memory.wf unlistedByte s.remap = true)
    (j v k : Byte) : (s.writeRemap j v).remapEntry k = if k = j then v else s.remapEntry k := by
  simp only [State.remapEntry, State.remap_writeRemap, Memory.read_write _ _ _ _ _ h,
    BitVec.toNat_inj]

/-- Settles O7: the step is the write, and a write changes one entry of a memory. -/
theorem remapWriteChangesOneEntry : Obligations.RemapWriteChangesOneEntry := by
  intro s j v rest hhost hwf
  refine ⟨({ s with host := rest }).writeRemap j v, ?_, rfl,
    State.remapEntry_writeRemap (s := { s with host := rest }) hwf j v⟩
  rw [step, fetch_of_remapWrite hhost]

end Sys2Proof.Machine
end

section
/-! PROOF. The assembler (30_encoding.md R92): which lines assemble, and the number of the word they assemble to. -/

namespace Sys2Proof.Machine

/-- The lines that assemble: `ENC.FINAL` alone, and any other mnemonic with one operand up to 255 (R92). -/
theorem AsmLine.wf_iff {m : Mnemonic} {o : Option Nat} :
    AsmLine.wf ⟨m, o⟩ = true ↔
      (m = .encFinal ∧ o = none) ∨ (m ≠ .encFinal ∧ ∃ n ≤ 255, o = some n) := by
  cases m <;> cases o <;> simp [AsmLine.wf]

theorem assemble_eq_none {m : Mnemonic} {o : Option Nat} (h : ¬ AsmLine.wf ⟨m, o⟩ = true) :
    assemble ⟨m, o⟩ = none :=
  if_neg h

/-- The number of a word whose operand is in range (R81). -/
theorem assembleWord_ofNat (unit : Bool) (op : BitVec 3) {n : Nat} (hn : n ≤ 255) :
    assembleWord unit op (BitVec.ofNat 8 n) =
      BitVec.ofNat 16 (unit.toNat * 32768 + op.toNat * 4096 + n) := by
  have hunit := unit.toNat_le
  have hop := op.isLt
  apply BitVec.eq_of_toNat_eq
  rw [toNat_assembleWord, BitVec.toNat_ofNat, BitVec.toNat_ofNat]
  omega

/-- A mnemonic with an operand in range assembles to the word of its unit and `OP` with that operand (R82, R92). -/
theorem assemble_operand {m : Mnemonic} {n : Nat} (unit : Bool) (op : BitVec 3) (hm : m ≠ .encFinal)
    (hn : n ≤ 255)
    (hword : encode (m.instr (BitVec.ofNat 8 n)) = assembleWord unit op (BitVec.ofNat 8 n)) :
    assemble ⟨m, some n⟩ = some (BitVec.ofNat 16 (unit.toNat * 32768 + op.toNat * 4096 + n)) := by
  rw [← assembleWord_ofNat unit op hn, ← hword]
  exact if_pos (AsmLine.wf_iff.mpr (.inr ⟨hm, n, hn, rfl⟩))

/-- Settles O47: a line assembles exactly when it is well formed, and then to the word of its command, whose number is that
of the command's row and the operand. -/
theorem assemblerGivesTheWordOfTheTable : Obligations.AssemblerGivesTheWordOfTheTable := by
  refine ⟨fun n hn => ⟨?_, ?_, ?_, ?_, ?_⟩, rfl, fun n => ?_, fun m hm => ⟨?_, fun n hn => ?_⟩⟩
  · simpa using assemble_operand (m := .encInit) false 0#3 (by decide) hn rfl
  · exact assemble_operand false 1#3 (by decide) hn rfl
  · exact assemble_operand false 2#3 (by decide) hn rfl
  · exact assemble_operand true 0#3 (by decide) hn rfl
  · exact assemble_operand true 1#3 (by decide) hn rfl
  · exact assemble_eq_none (by simp [AsmLine.wf_iff])
  · exact assemble_eq_none (by simp [AsmLine.wf_iff, hm])
  · exact assemble_eq_none (by simp [AsmLine.wf_iff, hn])

end Sys2Proof.Machine
end

section
/-! PROOF. Every command that answers returns one response, at its own unit (30_encoding.md R85). -/

namespace Sys2Proof.Machine

/-! ### The encoder -/

theorem PackerFrame.resp {u u' : EncUnit} (h : PackerFrame u u') : u'.resp = u.resp := by
  unfold PackerFrame at h
  rw [h]

theorem DictFrame.resp {u u' : EncUnit} (h : DictFrame u u') : u'.resp = u.resp := by
  unfold DictFrame at h
  rw [h]

theorem EncUnit.dictAdd_resp {u u' : EncUnit} {p : Option Nat} {b : Byte} {r : DictResult}
    (h : u.dictAdd p b = .ok (r, u')) : u'.resp = u.resp := by
  obtain ⟨rfl, -⟩ | ⟨-, hframe, -⟩ := EncUnit.dictAdd_frame h
  · rfl
  · exact hframe.resp

theorem EncUnit.afterInsert_resp {u u' : EncUnit} {b : Byte} (h : u.afterInsert b = .ok u') :
    u'.resp = u.resp := by
  obtain ⟨-, v, hv, rfl⟩ | ⟨-, -, rfl⟩ | ⟨-, -, rfl⟩ := EncUnit.afterInsert_eq_ok h
  · exact v.resp_epochReset.trans (EncUnit.emit_frame hv).resp
  · rfl
  · rfl

/-- `ENC.BYTE` answers `S_OK` from its `DictAdd` on (R145). -/
theorem EncUnit.take_resp {u u' : EncUnit} {b : Byte} (h : u.take b = .ok u') :
    u'.resp = u.resp ++ [success sOk] := by
  obtain ⟨⟨r, v⟩, hadd, h⟩ := bind_eq_ok.mp h
  have hv := EncUnit.dictAdd_resp hadd
  cases r with
  | found c =>
    obtain rfl := pure_eq_ok.mp h
    exact congrArg (· ++ _) hv
  | notFound =>
    obtain ⟨x, hx, h⟩ := bind_eq_ok.mp h
    obtain ⟨y, hy, h⟩ := bind_eq_ok.mp h
    obtain rfl := pure_eq_ok.mp h
    have hyx : y.resp = x.resp := (EncUnit.afterInsert_resp hy :)
    exact congrArg (· ++ _) ((hyx.trans (EncUnit.emit_frame hx).resp).trans hv)

theorem EncUnit.checkedTake_resp {u u' : EncUnit} {b : Byte} {rangeInfo : InfoWord}
    (h : u.checkedTake b rangeInfo = .ok u') : ∃ r, u'.resp = u.resp ++ [r] := by
  unfold EncUnit.checkedTake at h
  split at h
  · cases h; exact ⟨_, rfl⟩
  · split at h
    · cases h; exact ⟨_, rfl⟩
    · exact ⟨_, EncUnit.take_resp h⟩

theorem EncUnit.init_resp (u : EncUnit) (m : Byte) : ∃ r, (u.init m).resp = u.resp ++ [r] := by
  obtain ⟨-, e⟩ | ⟨-, e⟩ := u.init_cases m <;> rw [e]
  · exact ⟨success sOk, by simp [EncUnit.started]⟩
  · exact ⟨_, rfl⟩

theorem EncUnit.emitPending_resp {u u' : EncUnit} (h : u.emitPending = .ok u') :
    u'.resp = u.resp := by
  unfold EncUnit.emitPending at h
  split at h
  · obtain ⟨v, hv, h⟩ := bind_eq_ok.mp h
    obtain rfl := pure_eq_ok.mp h
    unfold EncUnit.finalWidthStep
    split <;> exact (EncUnit.emit_frame hv).resp
  · cases h; rfl

theorem EncUnit.padByte_resp {u u' : EncUnit} (h : u.padByte = .ok u') : u'.resp = u.resp := by
  unfold EncUnit.padByte at h
  split at h
  · exact (EncUnit.commitByte_frame h).resp
  · cases h; rfl

theorem EncUnit.final_resp {u u' : EncUnit} (h : u.final = .ok u') :
    ∃ r, u'.resp = u.resp ++ [r] := by
  unfold EncUnit.final at h
  split at h
  · cases h; exact ⟨_, rfl⟩
  · obtain ⟨v, hv, h⟩ := bind_eq_ok.mp h
    obtain ⟨x, hx, h⟩ := bind_eq_ok.mp h
    obtain ⟨y, hy, h⟩ := bind_eq_ok.mp h
    obtain rfl := pure_eq_ok.mp h
    have hyu : y.resp = u.resp := ((EncUnit.padByte_resp hy).trans
      (EncUnit.emit_frame hx).resp).trans (EncUnit.emitPending_resp hv)
    refine ⟨success sOk, ?_⟩
    rw [EncUnit.resp_respond, EncUnit.resp_epochReset, (EncUnit.flushRest_frame y).resp, hyu]

theorem encResult_resp {i : Instr} {s : State} {u : EncUnit} (hi : i.port = .enc)
    (h : encResult i s = .ok u) : ∃ r, u.resp = s.enc.resp ++ [r] := by
  cases i with
  | encInit m => cases h; exact s.enc.init_resp m
  | encByte b => exact EncUnit.checkedTake_resp ((s.enc.byte_eq b).symm.trans h)
  | encByteRemap d => exact EncUnit.checkedTake_resp ((s.enc.byteRemap_eq d _).symm.trans h)
  | encFinal => exact EncUnit.final_resp h
  | decInit m => cases hi
  | decByte x => cases hi

/-! ### The decoder -/

theorem DecUnit.init_resp (d : DecUnit) (m : Byte) : ∃ r, (d.init m).resp = d.resp ++ [r] := by
  obtain ⟨-, e⟩ | ⟨-, e⟩ := d.init_cases m <;> rw [e]
  · exact ⟨_, rfl⟩
  · exact ⟨_, rfl⟩

/-- The status lines of `DEC.BYTE`, at the unit (R182, R183): `decStatusNow` of a core is this of its decoder. -/
def DecUnit.statusNow (d : DecUnit) : Response :=
  if d.cfg = false then ⟨eNotConfigured, 0#32⟩ else d.streamStatus

/-- `DEC.BYTE` answers what its status lines give for the state it leaves, in every case (R182). -/
theorem DecUnit.byte_resp {d d' : DecUnit} {x : Byte} (h : d.byte x = .ok d') :
    d'.resp = d.resp ++ [d'.statusNow] := by
  unfold DecUnit.byte at h
  split at h
  · rename_i hcfg
    cases h
    simp [DecUnit.statusNow, hcfg]
  · rename_i hcfg
    cases hst : d.st with
    | done =>
      rw [hst] at h
      cases h
      simp [DecUnit.statusNow, DecUnit.streamStatus, hcfg, hst]
    | error =>
      rw [hst] at h
      cases h
      simp [DecUnit.statusNow, DecUnit.streamStatus, hcfg, hst]
    | run =>
      rw [hst] at h
      obtain ⟨e, he, h⟩ := bind_eq_ok.mp h
      obtain rfl := pure_eq_ok.mp h
      obtain ⟨-, hecfg, -, heresp⟩ := DecUnit.codeLoop_code _ he
      have hcfg' : e.cfg ≠ false := fun hf => hcfg (hecfg.symm.trans hf)
      have hnow : (e.respond e.streamStatus).statusNow = e.streamStatus := if_neg hcfg'
      rw [hnow, DecUnit.resp_respond, heresp]
      rfl

theorem decResult_resp {i : Instr} {s : State} {d : DecUnit} (hi : i.port = .dec)
    (h : decResult i s = .ok d) : ∃ r, d.resp = s.dec.resp ++ [r] := by
  cases i with
  | decInit m => cases h; exact s.dec.init_resp m
  | decByte x => exact ⟨_, DecUnit.byte_resp h⟩
  | _ => cases hi

/-! ### The core -/

/-- The responses a unit has returned, oldest first. -/
def State.responses (s : State) : Port → List Response
  | .enc => s.enc.resp
  | .dec => s.dec.resp

/-- Every command that answers returns one response at its own unit (R85). -/
theorem exec_responses {i : Instr} {s t : State} (h : exec i s = .next t) :
    ∃ r, t.responses i.port = s.responses i.port ++ [r] := by
  cases hi : i.port with
  | enc =>
    rw [exec_enc hi] at h
    obtain ⟨u, hu, rfl⟩ := State.onEnc_eq_next.mp h
    exact encResult_resp hi hu
  | dec =>
    rw [exec_dec hi] at h
    obtain ⟨d, hd, rfl⟩ := State.onDec_eq_next.mp h
    exact decResult_resp hi hd

/-- The last response is the one a unit returned last. -/
theorem State.lastResponse_of_append {s : State} {p : Port} {l : List Response} {r : Response}
    (h : s.responses p = l ++ [r]) : s.lastResponse p = r := by
  have hlast : s.lastResponse p = (s.responses p).getLastD (success sOk) := by cases p <;> rfl
  rw [hlast, h, List.getLastD_concat]

end Sys2Proof.Machine
end

section
/-! PROOF. The pseudo-instructions (30_encoding.md R93, R94, R148, R183): what a list of commands returns, and where the host
stops issuing. -/

namespace Sys2Proof.Machine

/-! ### A list of commands -/

theorem execAll_cons_eq_next {i : Instr} {is : List Instr} {s t : State} :
    execAll (i :: is) s = .next t ↔ ∃ v, exec i s = .next v ∧ execAll is v = .next t := by
  cases h : exec i s <;> simp [execAll, h]

theorem execAll_nil_eq_next {s t : State} : execAll [] s = .next t ↔ s = t := by
  simp [execAll]

/-- Commands to one unit only add to its responses. -/
theorem execAll_responses {p : Port} {is : List Instr} {s t : State} (hp : ∀ i ∈ is, i.port = p)
    (h : execAll is s = .next t) : ∃ re, t.responses p = s.responses p ++ re := by
  induction is generalizing s with
  | nil =>
    obtain rfl := execAll_nil_eq_next.mp h
    exact ⟨[], (List.append_nil _).symm⟩
  | cons i is ih =>
    obtain ⟨hi, his⟩ := List.forall_mem_cons.mp hp
    obtain ⟨v, hv, h⟩ := execAll_cons_eq_next.mp h
    obtain ⟨r, hr⟩ := exec_responses hv
    obtain ⟨re, hre⟩ := ih his h
    rw [hi] at hr
    exact ⟨r :: re, by rw [hre, hr, List.append_assoc, List.singleton_append]⟩

/-! ### Where the host stops issuing -/

section
variable {goOn : StatusCode} {atEnd : State → Response}

theorem issueWhile_cons_go_on {i : Instr} {is : List Instr} {s v : State} {r : Response}
    (h : exec i s = .next v) (hr : v.responses i.port = s.responses i.port ++ [r])
    (hgo : r.status = goOn) :
    issueWhile goOn atEnd (i :: is) s = issueWhile goOn atEnd is v := by
  rw [issueWhile, h]
  exact if_pos ((State.lastResponse_of_append hr).symm ▸ hgo)

/-- A command with another status is the last one issued, and its response is the result (R93, R94). -/
theorem issueWhile_cons_stop {i : Instr} {is : List Instr} {s v : State} {r : Response}
    (h : exec i s = .next v) (hr : v.responses i.port = s.responses i.port ++ [r])
    (hstop : r.status ≠ goOn) : issueWhile goOn atEnd (i :: is) s = .next (v, r) := by
  have hlast := State.lastResponse_of_append hr
  rw [issueWhile, h]
  simp only [hlast, if_neg hstop]

/-- Commands that all answer `goOn` are all issued (R93, R94). -/
theorem issueWhile_append {p : Port} {is js : List Instr} {s t : State} {re : List Response}
    (hp : ∀ i ∈ is, i.port = p) (h : execAll is s = .next t)
    (hresp : t.responses p = s.responses p ++ re) (hgo : ∀ r ∈ re, r.status = goOn) :
    issueWhile goOn atEnd (is ++ js) s = issueWhile goOn atEnd js t := by
  induction is generalizing s re with
  | nil =>
    obtain rfl := execAll_nil_eq_next.mp h
    rfl
  | cons i is ih =>
    obtain ⟨hi, his⟩ := List.forall_mem_cons.mp hp
    obtain ⟨v, hv, h⟩ := execAll_cons_eq_next.mp h
    obtain ⟨r, hr⟩ := exec_responses hv
    obtain ⟨re', hre'⟩ := execAll_responses his h
    have hcons : re = r :: re' := by
      rw [hi] at hr
      rw [hresp, hr, List.append_assoc, List.singleton_append] at hre'
      exact List.append_cancel_left hre'
    subst hcons
    obtain ⟨hgor, hgore⟩ := List.forall_mem_cons.mp hgo
    rw [List.cons_append, issueWhile_cons_go_on hv hr hgor]
    exact ih his h hre' hgore

/-- A pseudo-instruction issues one command a byte, all of them when each answers `goOn`, and else up to the first that does
not, whose response is its result (R93, R94). -/
theorem issueWhile_map {p : Port} {f : Byte → Instr} (hf : ∀ b, (f b).port = p) {s t : State}
    {bs : List Byte} {re : List Response} (hgo : ∀ r ∈ re, r.status = goOn)
    (h : execAll (bs.map f) s = .next t) (hresp : t.responses p = s.responses p ++ re) :
    issueWhile goOn atEnd (bs.map f) s = .next (t, atEnd t) ∧
    ∀ (v : State) (cs : List Byte) (b : Byte) (r : Response), exec (f b) t = .next v →
      v.responses p = t.responses p ++ [r] → r.status ≠ goOn →
      issueWhile goOn atEnd ((bs ++ b :: cs).map f) s = .next (v, r) := by
  have hp : ∀ i ∈ bs.map f, i.port = p := List.forall_mem_map.mpr fun b _ => hf b
  constructor
  · have hall := issueWhile_append (atEnd := atEnd) (js := []) hp h hresp hgo
    rwa [List.append_nil] at hall
  · intro v cs b r hv hr hstop
    rw [List.map_append, List.map_cons, issueWhile_append hp h hresp hgo]
    exact issueWhile_cons_stop hv (by rwa [hf b]) hstop

end

/-- Settles O45: both pseudo-instructions issue a list of encoder commands while they answer `S_OK`. -/
theorem encBytesStopsAtTheFirstError : Obligations.EncBytesStopsAtTheFirstError := by
  intro s t v bs cs b re r _ hok
  have hgo : ∀ x ∈ re, x.status = sOk := fun x hx => by rw [hok x hx]; rfl
  exact ⟨fun hall hresp => (issueWhile_map (p := .enc) (fun _ => rfl) hgo hall hresp).imp_right
      fun hstop => hstop v cs b r,
    fun hall hresp => (issueWhile_map (p := .enc) (fun _ => rfl) hgo hall hresp).imp_right
      fun hstop => hstop v cs b r⟩

/-! ### DEC.BYTES -/

theorem exec_decByte_lastResponse {x : Byte} {s t : State} (h : exec (.decByte x) s = .next t) :
    t.lastResponse .dec = decStatusNow t := by
  obtain ⟨d, hd, rfl⟩ := State.onDec_eq_next.mp h
  exact State.lastResponse_of_append (p := .dec) (DecUnit.byte_resp hd)

/-- After a byte, the last response is what the status lines give (R183). -/
theorem execAll_decByte_lastResponse {xs : List Byte} {s t : State} (hne : xs ≠ [])
    (h : execAll (xs.map .decByte) s = .next t) : t.lastResponse .dec = decStatusNow t := by
  induction xs generalizing s with
  | nil => exact absurd rfl hne
  | cons x xs ih =>
    obtain ⟨v, hv, h⟩ := execAll_cons_eq_next.mp h
    cases xs with
    | nil =>
      obtain rfl := execAll_nil_eq_next.mp h
      exact exec_decByte_lastResponse hv
    | cons y ys => exact ih (List.cons_ne_nil y ys) h

/-- A unit that has just returned a list of responses returned one of them last. -/
theorem State.lastResponse_mem {s : State} {p : Port} {l re : List Response} (hne : re ≠ [])
    (h : s.responses p = l ++ re) : s.lastResponse p ∈ re := by
  rw [← List.dropLast_concat_getLast hne, ← List.append_assoc] at h
  rw [State.lastResponse_of_append h]
  exact List.getLast_mem hne

/-- Settles O46: `DEC.BYTES` issues decoder commands while they answer `S_MORE`, and after one the status lines give its own
response. -/
theorem decBytesStopsAtTheFirstStatusButMore : Obligations.DecBytesStopsAtTheFirstStatusButMore := by
  constructor
  · intro s
    have hnone : decBytes [] s = .next (s, decStatusNow s) := rfl
    rw [hnone, decStatusNow, DecUnit.streamStatus]
    cases s.dec.st <;> rfl
  · intro s t bs re hlen hmore hall hresp
    have hgo : ∀ x ∈ re, x.status = sMore := fun x hx => by rw [hmore x hx]; rfl
    obtain ⟨hend, hstop⟩ := issueWhile_map (p := .dec) (atEnd := decStatusNow) (fun _ => rfl) hgo
      hall hresp
    refine ⟨fun hne => ?_, hstop⟩
    have hre : re ≠ [] := fun h => hne (List.eq_nil_of_length_eq_zero (by rw [← hlen, h]; rfl))
    have hlast : decStatusNow t = ⟨0x00#8, 0#32⟩ := by
      rw [← execAll_decByte_lastResponse hne hall]
      exact hmore _ (State.lastResponse_mem (p := .dec) hre hresp)
    rw [← hlast]
    exact hend

end Sys2Proof.Machine
end

section
/-! PROOF. `DictAdd` is the lookup and insert of the abstract map (40_dictionary.md R112). -/

namespace Sys2Proof.Machine

/-- The entries decide what a search answers: no pair is created twice (R115). -/
theorem SearchMeans.unique {m : Byte} {es : Entries} {p : Nat} {b : Byte} {r r' : DictResult}
    (h : SearchMeans m es p b r) (hes : EntriesOk m es) (h' : SearchMeans m es p b r') : r = r' := by
  cases r with
  | notFound =>
    cases r' with
    | notFound => rfl
    | found c' =>
      obtain ⟨k, hk, -, he⟩ := h'
      exact absurd (Entries.mem_iff.mpr ⟨k, hk, he⟩) h
  | found c =>
    obtain ⟨k, hk, rfl, he⟩ := h
    cases r' with
    | notFound => exact absurd (Entries.mem_iff.mpr ⟨k, hk, he⟩) h'
    | found c' =>
      obtain ⟨k', hk', rfl, he'⟩ := h'
      rw [hes.index_unique hk hk' (he.trans he'.symm)]

theorem entryCode_eq_some {m : Byte} {es : Entries} {p c : Nat} {b : Byte}
    (h : entryCode m es p b = some c) : SearchMeans m es p b (.found c) := by
  obtain ⟨k, hfind, rfl⟩ := Option.map_eq_some_iff.mp h
  obtain ⟨hk, he, -⟩ := List.findIdx?_eq_some_iff_getElem.mp hfind
  exact ⟨k, hk, rfl, (List.getD_eq_getElem _ _ hk).trans (eq_of_beq he)⟩

theorem entryCode_eq_none {m : Byte} {es : Entries} {p : Nat} {b : Byte}
    (h : entryCode m es p b = none) : SearchMeans m es p b .notFound := fun hmem => by
  have hnone := List.findIdx?_eq_none_iff.mp (Option.map_eq_none_iff.mp h) _ hmem
  simp at hnone

/-- The search of `DictAdd` answers what the entries say, by either strategy, whether or not there is room (R112, R119,
R123). -/
theorem EncUnit.dictFind_eq_ok {u : EncUnit} {es : Entries} {p : Nat} {b : Byte} {r : DictResult}
    (hd : DictHolds u es) (hp : p < u.count) (heos : p ≠ eosCode u.maxb)
    (hr : SearchMeans u.maxb es p b r) : u.dictFind p b = .ok r := by
  cases hs : u.build.strategy with
  | list =>
    obtain ⟨a, ha⟩ := EncUnit.listLookup_answers hd (hd.list hs) hp heos b
    have hmeans := EncUnit.listLookup_means hd (hd.list hs) hp heos ha
    simp only [EncUnit.dictFind, hs, ha, hmeans.unique hd.entries hr]
  | trie =>
    obtain ⟨a, ha⟩ := EncUnit.trieLookup_answers hd (hd.trie hs) hp heos b
    have hmeans := EncUnit.trieLookup_means hd (hd.trie hs) hp heos ha
    simp only [EncUnit.dictFind, hs, ha]
    cases a with
    | found c =>
      have hmeans : SearchMeans u.maxb es p b (.found c) := hmeans
      exact congrArg _ (hmeans.unique hd.entries hr)
    | notFound slot => exact congrArg _ (hmeans.1.unique hd.entries hr)

/-- What the search finds, `DictAdd` finds, and it changes nothing then (R112). -/
theorem EncUnit.dictAdd_of_found {u : EncUnit} {p c : Nat} {b : Byte}
    (h : u.dictFind p b = .ok (.found c)) : u.dictAdd (some p) b = .ok (.found c, u) := by
  cases hs : u.build.strategy with
  | list =>
    simp only [EncUnit.dictFind, hs] at h
    simp only [EncUnit.dictAdd, hs, h]
    rfl
  | trie =>
    simp only [EncUnit.dictFind, hs] at h
    obtain ⟨a, ha, h⟩ := bind_eq_ok.mp h
    simp only [EncUnit.dictAdd, hs, ha]
    cases a with
    | found c' => cases h; rfl
    | notFound slot => cases h

/-- A pair that is new is inserted under the code `count`, while there is room (R112, R116). -/
theorem EncUnit.dictAdd_of_new {u : EncUnit} {es : Entries} {p : Nat} {b : Byte}
    (hd : DictHolds u es) (hm : u.memoriesWf = true) (hroom : u.count < u.build.cap)
    (hp : p < u.count) (heos : p ≠ eosCode u.maxb) (hb : b ≤ u.maxb) (hnew : (p, b) ∉ es) :
    ∃ v, u.dictAdd (some p) b = .ok (.notFound, v) ∧ DictHolds v (es ++ [(p, b)]) ∧
      DictFrame u v ∧ v.count = u.count + 1 := by
  obtain ⟨⟨r, v⟩, hadd⟩ := EncUnit.dictAdd_answers hd hroom hp heos b
  obtain ⟨hmeans, hv⟩ := EncUnit.dictAdd_means hd hm hroom hp heos hb hadd
  obtain rfl : r = .notFound := hmeans.unique hd.entries hnew
  obtain ⟨-, c, hc⟩ | ⟨-, hframe, hcount⟩ := EncUnit.dictAdd_frame hadd
  · cases hc
  · exact ⟨v, hadd, hv.2, hframe, hcount⟩

/-- Settles O15: the search answers what the entries say, and an insertion adds the entry. -/
theorem dictAddFollowsTheAbstractMap : Obligations.DictAddFollowsTheAbstractMap := by
  intro u es p b hd hm hp heos hb
  refine ⟨u.dictAdd_none b, fun c hc => ?_, fun hnone hroom => ?_⟩
  · exact EncUnit.dictAdd_of_found (EncUnit.dictFind_eq_ok hd hp heos (entryCode_eq_some hc))
  · obtain ⟨v, hadd, hv, hframe, hcount⟩ :=
      EncUnit.dictAdd_of_new hd hm hroom hp heos hb (entryCode_eq_none hnone)
    refine ⟨v, hadd, hv, ?_⟩
    rw [← hcount]
    exact hframe

end Sys2Proof.Machine
end

section
/-! PROOF. The strings of an epoch's codes are distinct (40_dictionary.md R111, R115). -/

namespace Sys2Proof.Machine

/-- `str(c)` over the entries of an epoch, following at most the given number of prefixes (R111). -/
def Entries.strWithin (m : Byte) (es : Entries) (n c : Nat) : List Byte :=
  strFrom m (fun x => (es.getD (x - emptyCount m) (0, 0#8)).1)
    (fun x => (es.getD (x - emptyCount m) (0, 0#8)).2) n c

/-- `str(c)` over the entries of an epoch (R111). -/
def Entries.str (m : Byte) (es : Entries) (c : Nat) : List Byte := es.strWithin m (c + 1) c

/-- The code is one of the epoch other than `EOS` (R110). -/
def CodeOf (m : Byte) (es : Entries) (c : Nat) : Prop :=
  c < emptyCount m + es.length ∧ c ≠ eosCode m

/-- A code of the epoch other than `EOS` is a literal or a created one (R8, R110). -/
theorem CodeOf.cases {m : Byte} {es : Entries} {c : Nat} (h : CodeOf m es c) :
    c < literalCount m ∨ ∃ k < es.length, c = emptyCount m + k := by
  obtain ⟨hc, heos⟩ := h
  by_cases hlit : c < literalCount m
  · exact .inl hlit
  · have hcreated := emptyCount_le (Nat.le_of_not_lt hlit) heos
    exact .inr ⟨c - emptyCount m, by omega, by omega⟩

/-- The prefix of a created code is a code of the epoch too (R110). -/
theorem EntriesOk.codeOf_prefix {m : Byte} {es : Entries} (h : EntriesOk m es) {k : Nat}
    (hk : k < es.length) : CodeOf m es (es.getD k (0, 0#8)).1 :=
  ⟨(h.prefixLower k hk).trans (Nat.add_lt_add_left hk _), h.prefixNotEos k hk⟩

theorem Entries.strWithin_literal {m : Byte} {es : Entries} {c : Nat} (n : Nat)
    (h : c < literalCount m) : es.strWithin m (n + 1) c = [BitVec.ofNat 8 c] := if_pos h

theorem Entries.strWithin_created {m : Byte} {es : Entries} (n k : Nat) :
    es.strWithin m (n + 1) (emptyCount m + k) =
      es.strWithin m n (es.getD k (0, 0#8)).1 ++ [(es.getD k (0, 0#8)).2] := by
  have hlit : ¬ emptyCount m + k < literalCount m := by
    simp only [emptyCount, literalCount]
    omega
  rw [Entries.strWithin, strFrom, if_neg hlit, Nat.add_sub_cancel_left]
  rfl

/-- With more steps than the code counts, the string is the same: every prefix is lower than its code (R111). -/
theorem EntriesOk.strWithin_eq_str {m : Byte} {es : Entries} (h : EntriesOk m es) (c : Nat) :
    CodeOf m es c → ∀ n, c < n → es.strWithin m n c = es.str m c := by
  induction c using Nat.strong_induction_on with
  | _ c ih =>
    intro hc n hn
    obtain ⟨n, rfl⟩ := Nat.exists_eq_succ_of_ne_zero (Nat.ne_zero_of_lt hn)
    obtain hlit | ⟨k, hk, rfl⟩ := hc.cases
    · rw [Entries.str, Entries.strWithin_literal _ hlit, Entries.strWithin_literal _ hlit]
    · have hlow := h.prefixLower k hk
      have ih := ih _ hlow (h.codeOf_prefix hk)
      rw [Entries.str, Entries.strWithin_created, Entries.strWithin_created, ih n (by omega),
        ih _ hlow]

/-- The string of a literal (R111). -/
theorem Entries.str_literal {m : Byte} {es : Entries} {c : Nat} (h : c < literalCount m) :
    es.str m c = [BitVec.ofNat 8 c] := Entries.strWithin_literal c h

/-- The string of a created code is its prefix's string and its own byte (R111). -/
theorem EntriesOk.str_created {m : Byte} {es : Entries} (h : EntriesOk m es) {k : Nat}
    (hk : k < es.length) : es.str m (emptyCount m + k) =
      es.str m (es.getD k (0, 0#8)).1 ++ [(es.getD k (0, 0#8)).2] := by
  rw [Entries.str, Entries.strWithin_created,
    h.strWithin_eq_str _ (h.codeOf_prefix hk) _ (h.prefixLower k hk)]

/-- No string is empty (R111). -/
theorem EntriesOk.str_ne_nil {m : Byte} {es : Entries} (h : EntriesOk m es) {c : Nat}
    (hc : CodeOf m es c) : es.str m c ≠ [] := by
  obtain hlit | ⟨k, hk, rfl⟩ := hc.cases
  · simp [Entries.str_literal hlit]
  · simp [h.str_created hk]

/-- The string of a literal has one byte, that of a created code more (R111). -/
theorem EntriesOk.str_literal_ne_created {m : Byte} {es : Entries} (h : EntriesOk m es) {c k : Nat}
    (hc : c < literalCount m) (hk : k < es.length) : es.str m c ≠ es.str m (emptyCount m + k) := by
  have hpos := List.length_pos_iff.mpr (h.str_ne_nil (h.codeOf_prefix hk))
  rw [Entries.str_literal hc, h.str_created hk]
  intro e
  have hlen := congrArg List.length e
  simp only [List.length_append, List.length_singleton] at hlen
  omega

/-- A code is determined by its string: a literal by its byte, and a created code by its prefix and its byte, since no pair is
created twice (R115). -/
theorem EntriesOk.str_injective {m : Byte} {es : Entries} (h : EntriesOk m es) (c : Nat) :
    CodeOf m es c → ∀ c', CodeOf m es c' → es.str m c = es.str m c' → c = c' := by
  induction c using Nat.strong_induction_on with
  | _ c ih =>
    intro hc c' hc' e
    obtain hlit | ⟨k, hk, rfl⟩ := hc.cases <;> obtain hlit' | ⟨k', hk', rfl⟩ := hc'.cases
    · rw [Entries.str_literal hlit, Entries.str_literal hlit', List.singleton_inj] at e
      have hbyte := congrArg BitVec.toNat e
      have hm := m.isLt
      simp only [literalCount, BitVec.toNat_ofNat] at hlit hlit' hbyte
      omega
    · exact absurd e (h.str_literal_ne_created hlit hk')
    · exact absurd e.symm (h.str_literal_ne_created hlit' hk)
    · rw [h.str_created hk, h.str_created hk'] at e
      obtain ⟨hstr, hbyte⟩ := List.append_inj' e rfl
      have hpfx := ih _ (h.prefixLower k hk) (h.codeOf_prefix hk) _ (h.codeOf_prefix hk') hstr
      rw [h.index_unique hk hk' (Prod.ext hpfx (List.singleton_inj.mp hbyte))]

/-- Settles O16: a code of the epoch other than `EOS` is determined by its string. -/
theorem distinctCodesDenoteDistinctStrings : Obligations.DistinctCodesDenoteDistinctStrings :=
  fun _ _ c c' h hc hc' heos heos' hne e => hne (h.str_injective c ⟨hc, heos⟩ c' ⟨hc', heos'⟩ e)

end Sys2Proof.Machine
end

section
/-! PROOF. Encoders that differ in STRATEGY run alike outside the dictionary (41_encoder.md R140, R143, R144, R147, R151): every
operation but `DictAdd` takes encoders that agree but for the dictionary's storage to such encoders. -/

namespace Sys2Proof.Machine

/-- The unit with the strategy and the dictionary storage of another (R117). -/
def EncUnit.withDictOf (u d : EncUnit) : EncUnit :=
  { u with
    build := ⟨u.build.cap, u.build.stageBytes, d.build.strategy⟩
    bytev := d.bytev, first := d.first, sib := d.sib, root := d.root, nxt := d.nxt }

/-- Two encoders that differ at most in STRATEGY and in the dictionary storage that goes with it (R127). -/
def Alike (u v : EncUnit) : Prop := ∃ d, v = u.withDictOf d

theorem Alike.ite {c c' : Prop} [Decidable c] [Decidable c'] {u v u' v' : EncUnit} (hc : c' ↔ c)
    (h : Alike u v) (h' : Alike u' v') : Alike (if c then u else u') (if c' then v else v') := by
  simp only [hc]
  split
  · exact h
  · exact h'

/-- Where the operation answers at two encoders alike, its results are alike. -/
def KeepsAlike (f : EncUnit → Except Fault EncUnit) : Prop :=
  ∀ u v u' v', Alike u v → f u = .ok u' → f v = .ok v' → Alike u' v'

theorem KeepsAlike.ok {f : EncUnit → EncUnit} (hf : ∀ u v, Alike u v → Alike (f u) (f v)) :
    KeepsAlike fun u => .ok (f u) := by
  intro u v u' v' h hu hv
  cases hu
  cases hv
  exact hf u v h

theorem KeepsAlike.bind {f g : EncUnit → Except Fault EncUnit} (hf : KeepsAlike f)
    (hg : KeepsAlike g) : KeepsAlike fun u => f u >>= g := by
  intro u v u' v' h hu hv
  obtain ⟨x, hx, hu⟩ := bind_eq_ok.mp hu
  obtain ⟨y, hy, hv⟩ := bind_eq_ok.mp hv
  exact hg _ _ _ _ (hf _ _ _ _ h hx hy) hu hv

theorem KeepsAlike.ite {c : EncUnit → Prop} [DecidablePred c]
    {f g : EncUnit → Except Fault EncUnit} (hc : ∀ u d, c (u.withDictOf d) ↔ c u)
    (hf : KeepsAlike f) (hg : KeepsAlike g) : KeepsAlike fun u => if c u then f u else g u := by
  rintro u _ u' v' ⟨d, rfl⟩ hu hv
  simp only [hc] at hu hv
  split at hu
  · exact hf _ _ _ _ ⟨d, rfl⟩ hu (by rwa [if_pos ‹_›] at hv)
  · exact hg _ _ _ _ ⟨d, rfl⟩ hu (by rwa [if_neg ‹_›] at hv)

/-! ### The bit packer -/

theorem EncUnit.commitByte_keepsAlike : KeepsAlike EncUnit.commitByte := by
  rintro u _ u' v' ⟨d, rfl⟩ hu hv
  obtain ⟨-, rfl⟩ := EncUnit.commitByte_eq_ok.mp hu
  obtain ⟨-, rfl⟩ := EncUnit.commitByte_eq_ok.mp hv
  exact ⟨d, rfl⟩

theorem EncUnit.flushFull_alike (u v : EncUnit) : Alike u v → Alike u.flushFull v.flushFull := by
  rintro ⟨d, rfl⟩
  exact Alike.ite Iff.rfl ⟨d, rfl⟩ ⟨d, rfl⟩

theorem EncUnit.emitBit_keepsAlike (bit : Bool) : KeepsAlike (EncUnit.emitBit · bit) := by
  have hadd : KeepsAlike fun u => .ok (u.addBit bit) := .ok fun _ _ ⟨d, h⟩ => ⟨d, h ▸ rfl⟩
  have hfull := hadd.bind (EncUnit.commitByte_keepsAlike.bind (.ok EncUnit.flushFull_alike))
  exact hfull.ite (c := fun u => u.off + 1 = 8) (fun _ _ => Iff.rfl) hadd

theorem EncUnit.emitBits_keepsAlike : ∀ bits : List Bool, KeepsAlike (EncUnit.emitBits · bits)
  | [] => .ok fun _ _ => id
  | bit :: bits => (EncUnit.emitBit_keepsAlike bit).bind (EncUnit.emitBits_keepsAlike bits)

/-- `EMIT` of a code, at a width, that both encoders have. -/
theorem EncUnit.emit_keepsAlike {c w : EncUnit → Nat} (hc : ∀ u d, c (u.withDictOf d) = c u)
    (hw : ∀ u d, w (u.withDictOf d) = w u) : KeepsAlike fun u => u.emit (c u) (w u) := by
  rintro u _ u' v' ⟨d, rfl⟩ hu hv
  simp only [hc, hw] at hv
  exact EncUnit.emitBits_keepsAlike _ _ _ _ _ ⟨d, rfl⟩ hu hv

/-! ### The start of an epoch -/

theorem EncUnit.epochReset_alike (u v : EncUnit) : Alike u v → Alike u.epochReset v.epochReset := by
  rintro ⟨d, rfl⟩
  refine ⟨(u.withDictOf d).epochReset, ?_⟩
  unfold EncUnit.epochReset EncUnit.dictReset
  split <;> split <;> rfl

theorem EncUnit.respond_alike (r : Response) (u v : EncUnit) :
    Alike u v → Alike (u.respond r) (v.respond r) := by
  rintro ⟨d, rfl⟩
  exact ⟨d, rfl⟩

theorem EncUnit.started_alike (m : Byte) (u v : EncUnit) :
    Alike u v → Alike (u.started m) (v.started m) := by
  rintro ⟨d, rfl⟩
  obtain ⟨e, he⟩ := EncUnit.epochReset_alike { u with maxb := m, cur := 0#8, off := 0, pos := 0 } _
    ⟨d, rfl⟩
  exact ⟨e, congrArg (fun x : EncUnit => { x with cfg := true }) he⟩

theorem EncUnit.init_alike (m : Byte) (u v : EncUnit) : Alike u v → Alike (u.init m) (v.init m) := by
  rintro ⟨d, rfl⟩
  exact Alike.ite Iff.rfl (respond_alike _ _ _ (started_alike m u _ ⟨d, rfl⟩)) ⟨d, rfl⟩

/-! ### `ENC.FINAL` -/

theorem EncUnit.finalWidthStep_alike (u v : EncUnit) :
    Alike u v → Alike u.finalWidthStep v.finalWidthStep := by
  rintro ⟨d, rfl⟩
  exact Alike.ite Iff.rfl ⟨d, rfl⟩ ⟨d, rfl⟩

theorem EncUnit.emitPending_keepsAlike : KeepsAlike EncUnit.emitPending := by
  have hemit : KeepsAlike fun u => u.emit u.idx u.w :=
    EncUnit.emit_keepsAlike (fun _ _ => rfl) fun _ _ => rfl
  exact (hemit.bind (.ok EncUnit.finalWidthStep_alike)).ite (c := fun u => u.idxv = true)
    (fun _ _ => Iff.rfl) (.ok fun _ _ => id)

theorem EncUnit.padByte_keepsAlike : KeepsAlike EncUnit.padByte :=
  EncUnit.commitByte_keepsAlike.ite (c := fun u => 0 < u.off) (fun _ _ => Iff.rfl)
    (.ok fun _ _ => id)

theorem EncUnit.flushRest_alike (u v : EncUnit) : Alike u v → Alike u.flushRest v.flushRest := by
  rintro ⟨d, rfl⟩
  exact Alike.ite Iff.rfl ⟨d, rfl⟩ ⟨d, rfl⟩

/-- `ENC.FINAL` is alike at encoders that differ in STRATEGY, configured or not (R147). -/
theorem EncUnit.final_keepsAlike : KeepsAlike EncUnit.final := by
  have hrefuse : KeepsAlike fun u => .ok (u.raise eNotConfigured 0#32) := .ok (respond_alike _)
  have heos : KeepsAlike fun u => u.emit (eosCode u.maxb) u.w :=
    EncUnit.emit_keepsAlike (c := (eosCode ·.maxb)) (fun _ _ => rfl) fun _ _ => rfl
  have hlast : KeepsAlike fun u => .ok (u.flushRest.epochReset.respond (success sOk)) :=
    .ok fun u v h => respond_alike _ _ _ (epochReset_alike _ _ (flushRest_alike u v h))
  exact hrefuse.ite (c := fun u => u.cfg = false) (fun _ _ => Iff.rfl)
    (EncUnit.emitPending_keepsAlike.bind (heos.bind (EncUnit.padByte_keepsAlike.bind hlast)))

end Sys2Proof.Machine
end

section
/-! PROOF. Two cores that differ only in STRATEGY stay so under every step (40_dictionary.md R127, 41_encoder.md R151): their
dictionaries hold the same entries, so `DictAdd` answers the same at both. -/

namespace Sys2Proof.Machine

/-- Two encoders alike whose dictionaries hold the same entries (R127). -/
structure Twins (u v : EncUnit) : Prop where
  alike : Alike u v
  entries : ∃ es, DictHolds u es ∧ DictHolds v es

/-- What leaves both dictionaries alone leaves the same entries in them. -/
theorem Twins.congr {u v u' v' : EncUnit} (h : Twins u v) (ha : Alike u' v') (hu : SameDict u u')
    (hv : SameDict v v') : Twins u' v' :=
  ⟨ha, h.entries.imp fun _ ⟨hdu, hdv⟩ => ⟨hdu.congr hu, hdv.congr hv⟩⟩

/-- A change of both units that ignores the dictionary. -/
theorem Twins.map {u v : EncUnit} {f : EncUnit → EncUnit}
    (hf : ∀ u v, Alike u v → Alike (f u) (f v)) (hd : ∀ u, SameDict u (f u)) (h : Twins u v) :
    Twins (f u) (f v) := h.congr (hf u v h.alike) (hd u) (hd v)

theorem Twins.respond {u v : EncUnit} (h : Twins u v) (r : Response) :
    Twins (u.respond r) (v.respond r) :=
  h.map (EncUnit.respond_alike r) fun _ => ⟨rfl, rfl, rfl, rfl, rfl, rfl, rfl, rfl⟩

theorem Twins.setMatch {u v : EncUnit} (h : Twins u v) (c : Nat) :
    Twins { u with idx := c, idxv := true } { v with idx := c, idxv := true } :=
  h.map (f := fun u => { u with idx := c, idxv := true }) (fun _ _ ⟨d, e⟩ => ⟨d, e ▸ rfl⟩)
    fun _ => ⟨rfl, rfl, rfl, rfl, rfl, rfl, rfl, rfl⟩

theorem Twins.setIdx {u v : EncUnit} (h : Twins u v) (c : Nat) :
    Twins { u with idx := c } { v with idx := c } :=
  h.map (f := fun u => { u with idx := c }) (fun _ _ ⟨d, e⟩ => ⟨d, e ▸ rfl⟩)
    fun _ => ⟨rfl, rfl, rfl, rfl, rfl, rfl, rfl, rfl⟩

/-! ### `ENC.BYTE` -/

/-- Insertions change nothing but the dictionary, so they keep the units alike if they keep the counts equal (R112). -/
theorem Alike.dictFrame {u v u' v' : EncUnit} (h : Alike u v) (hu : DictFrame u u')
    (hv : DictFrame v v') (hcount : v'.count = u'.count) : Alike u' v' := by
  obtain ⟨d, rfl⟩ := h
  refine ⟨v', ?_⟩
  rw [DictFrame] at hu hv
  rw [hu, hv, hcount]
  rfl

/-- Two encoders alike between two commands, configured, with the same entries (R45, R127). -/
structure EncTwins (u v : EncUnit) (es : Entries) : Prop where
  alike : Alike u v
  left : EncHolds u es
  right : EncHolds v es
  leftMemories : u.memoriesWf = true
  rightMemories : v.memoriesWf = true

theorem EncTwins.twins {u v : EncUnit} {es : Entries} (h : EncTwins u v es) : Twins u v :=
  ⟨h.alike, es, h.left.dict, h.right.dict⟩

/-- The entries decide what `DictAdd` answers and which entry it creates, whatever the strategies are (R112, R121, R125). -/
theorem EncTwins.dictAdd {u v x y : EncUnit} {es : Entries} {p : Nat} {b : Byte}
    {r r' : DictResult} (h : EncTwins u v es) (hp : p < u.count) (heos : p ≠ eosCode u.maxb)
    (hb : b ≤ u.maxb) (hx : u.dictAdd (some p) b = .ok (r, x))
    (hy : v.dictAdd (some p) b = .ok (r', y)) : r = r' ∧ Twins x y := by
  have htwins := h.twins
  obtain ⟨⟨d, rfl⟩, hu, hv, hum, hvm⟩ := h
  obtain ⟨hr, hxm⟩ := EncUnit.dictAdd_means hu.dict hum hu.room hp heos hb hx
  obtain ⟨hr', hym⟩ := EncUnit.dictAdd_means hv.dict hvm hv.room hp heos hb hy
  obtain rfl := hr.unique hu.dict.entries hr'
  refine ⟨rfl, ?_⟩
  cases r with
  | found c =>
    obtain rfl : x = u := hxm
    obtain rfl : y = x.withDictOf d := hym
    exact htwins
  | notFound =>
    obtain ⟨-, hframe, hcount⟩ := (EncUnit.dictAdd_frame hx).resolve_left (by simp)
    obtain ⟨-, hframe', hcount'⟩ := (EncUnit.dictAdd_frame hy).resolve_left (by simp)
    exact ⟨htwins.alike.dictFrame hframe hframe' (hcount'.trans hcount.symm), _, hxm.2, hym.2⟩

/-- The same with the match register as the prefix, whether or not it holds a match (R145). -/
theorem EncTwins.dictAdd_matchCode {u v x y : EncUnit} {es : Entries} {b : Byte}
    {r r' : DictResult} (h : EncTwins u v es) (hb : b ≤ u.maxb)
    (hx : u.dictAdd u.matchCode b = .ok (r, x)) (hy : v.dictAdd v.matchCode b = .ok (r', y)) :
    r = r' ∧ Twins x y := by
  have hcode : v.matchCode = u.matchCode := by
    obtain ⟨d, rfl⟩ := h.alike
    rfl
  rw [hcode] at hy
  cases hidxv : u.idxv with
  | false =>
    have hnone : u.matchCode = none := if_neg (by simp [hidxv])
    rw [hnone] at hx hy
    cases hx
    cases hy
    exact ⟨rfl, h.twins⟩
  | true =>
    have hsome : u.matchCode = some u.idx := if_pos hidxv
    rw [hsome] at hx hy
    obtain ⟨hidx, heos⟩ := h.left.matched hidxv
    exact h.dictAdd hidx heos hb hx hy

theorem Twins.emit {u v u' v' : EncUnit} {c w : EncUnit → Nat}
    (hc : ∀ u d, c (u.withDictOf d) = c u) (hw : ∀ u d, w (u.withDictOf d) = w u) (h : Twins u v)
    (hu : u.emit (c u) (w u) = .ok u') (hv : v.emit (c v) (w v) = .ok v') : Twins u' v' :=
  h.congr (EncUnit.emit_keepsAlike hc hw u v u' v' h.alike hu hv) (EncUnit.emit_frame hu).sameDict
    (EncUnit.emit_frame hv).sameDict

theorem EncUnit.afterInsert_keepsAlike (b : Byte) : KeepsAlike (EncUnit.afterInsert · b) := by
  have hemit : KeepsAlike fun u => u.emit b.toNat u.w :=
    EncUnit.emit_keepsAlike (c := fun _ => b.toNat) (fun _ _ => rfl) fun _ _ => rfl
  have hgrow : KeepsAlike fun u => .ok (u.setWidth (u.w + 1)) :=
    .ok fun _ _ ⟨d, h⟩ => ⟨d, h ▸ rfl⟩
  exact (hemit.bind (.ok EncUnit.epochReset_alike)).ite (c := fun u => u.isFull = true)
    (fun _ _ => Iff.rfl)
    (hgrow.ite (c := fun u => u.t ≤ u.count) (fun _ _ => Iff.rfl) (.ok fun _ _ => id))

/-- The entries after the steps 3c and 3d of R145: none where the dictionary was full, the same ones otherwise. -/
theorem EncUnit.afterInsert_dictHolds {u u' : EncUnit} {es : Entries} {b : Byte}
    (h : DictHolds u es) (ha : u.afterInsert b = .ok u') :
    DictHolds u' (if u.count = u.build.cap then [] else es) := by
  obtain ⟨hfull, v, hv, rfl⟩ | ⟨hroom, -, rfl⟩ | ⟨hroom, -, rfl⟩ := EncUnit.afterInsert_eq_ok ha
  · obtain ⟨hbuild, -, hmaxb⟩ := (EncUnit.emit_frame hv).stream
    rw [if_pos hfull]
    exact (EncUnit.dictReset_holds (by rw [hmaxb, hbuild]; exact h.fits)).congr
      v.epochReset_sameDict
  · rw [if_neg hroom]
    exact h.congr ⟨rfl, rfl, rfl, rfl, rfl, rfl, rfl, rfl⟩
  · rw [if_neg hroom]
    exact h

theorem Twins.afterInsert {u v u' v' : EncUnit} {b : Byte} (h : Twins u v)
    (hu : u.afterInsert b = .ok u') (hv : v.afterInsert b = .ok v') : Twins u' v' := by
  refine ⟨EncUnit.afterInsert_keepsAlike b u v u' v' h.alike hu hv, ?_⟩
  obtain ⟨⟨d, rfl⟩, es, hdu, hdv⟩ := h
  exact ⟨_, EncUnit.afterInsert_dictHolds hdu hu,
    EncUnit.afterInsert_dictHolds (u := u.withDictOf d) hdv hv⟩

/-- `ENC.BYTE` from its `DictAdd` on, at encoders that differ in STRATEGY (R127, R145). -/
theorem EncTwins.take {u v u' v' : EncUnit} {es : Entries} {b : Byte} (h : EncTwins u v es)
    (hb : b ≤ u.maxb) (hu : u.take b = .ok u') (hv : v.take b = .ok v') : Twins u' v' := by
  obtain ⟨⟨r, x⟩, hx, hu⟩ := bind_eq_ok.mp hu
  obtain ⟨⟨r', y⟩, hy, hv⟩ := bind_eq_ok.mp hv
  obtain ⟨rfl, hxy⟩ := h.dictAdd_matchCode hb hx hy
  cases r with
  | found c =>
    obtain rfl := pure_eq_ok.mp hu
    obtain rfl := pure_eq_ok.mp hv
    exact (hxy.setMatch c).respond _
  | notFound =>
    obtain ⟨x1, hx1, hu⟩ := bind_eq_ok.mp hu
    obtain ⟨y1, hy1, hv⟩ := bind_eq_ok.mp hv
    obtain ⟨x2, hx2, hu⟩ := bind_eq_ok.mp hu
    obtain ⟨y2, hy2, hv⟩ := bind_eq_ok.mp hv
    obtain rfl := pure_eq_ok.mp hu
    obtain rfl := pure_eq_ok.mp hv
    have hemitted := hxy.emit (c := (·.idx)) (w := (·.w)) (fun _ _ => rfl) (fun _ _ => rfl) hx1 hy1
    exact ((hemitted.setIdx b.toNat).afterInsert hx2 hy2).respond _

/-! ### The encoder's commands -/

/-- What R45 says beyond the dictionary does not speak of its entries. -/
theorem EncHolds.withEntries {u : EncUnit} {es es' : Entries} (h : EncHolds u es)
    (hd : DictHolds u es') : EncHolds u es' where
  dict := hd
  room := h.room
  threshold := h.threshold
  growth := h.growth.imp_right fun ⟨hes, ht⟩ => by
    have hlen := h.dict.count.symm.trans hd.count
    rw [hes, Nat.add_left_cancel_iff] at hlen
    exact ⟨List.length_eq_zero_iff.mp hlen.symm, ht⟩
  widthMin := h.widthMin
  widthMax := h.widthMax
  matched := h.matched
  cursor := h.cursor

theorem SameButStrategy.alike {u v : EncUnit} (h : SameButStrategy u v) : Alike u v := by
  refine ⟨v, ?_⟩
  rw [EncUnit.withDictOf, h.cap, h.stageBytes, h.cfg, h.maxb, h.count, h.idx, h.idxv, h.w, h.t,
    h.cur, h.off, h.pos, h.stage, h.out, h.resp]

/-- Two encoders alike that meet their invariant differ in STRATEGY only, if they hold the same entries while configured. -/
theorem Alike.sameButStrategy {u v : EncUnit} (h : Alike u v) (hu : u.Inv) (hv : v.Inv)
    (hentries : u.cfg = true → ∃ es, DictHolds u es ∧ DictHolds v es) : SameButStrategy u v := by
  obtain ⟨d, rfl⟩ := h
  refine ⟨rfl, rfl, rfl, rfl, rfl, rfl, rfl, rfl, rfl, rfl, rfl, rfl, rfl, rfl, rfl, fun hcfg => ?_⟩
  obtain ⟨es, hdu, hdv⟩ := hentries hcfg
  obtain ⟨_, heu⟩ := hu.configured hcfg
  obtain ⟨_, hev⟩ := hv.configured hcfg
  exact ⟨es, heu.withEntries hdu, hev.withEntries hdv⟩

/-- The same where both encoders are at the start of an epoch. -/
theorem Alike.sameButStrategy_of_empty {u v : EncUnit} (h : Alike u v) (hu : u.Inv) (hv : v.Inv)
    (heu : u.cfg = true → DictHolds u []) (hev : v.cfg = true → DictHolds v []) :
    SameButStrategy u v := by
  have hcfg : v.cfg = u.cfg := by
    obtain ⟨d, rfl⟩ := h
    rfl
  exact h.sameButStrategy hu hv fun hc => ⟨[], heu hc, hev (hcfg.trans hc)⟩

/-- An INIT that configures the encoder leaves it at the start of an epoch (R144). -/
theorem EncUnit.init_dictHolds {u : EncUnit} (h : u.Inv) (m : Byte) (hcfg : (u.init m).cfg = true) :
    DictHolds (u.init m) [] := by
  obtain ⟨hfits, e⟩ | ⟨-, e⟩ := u.init_cases m <;> rw [e] at hcfg ⊢
  · exact ((EncUnit.started_holds h.build hfits).respond _).dict
  · cases hcfg

/-- `ENC.FINAL` leaves a configured encoder at the start of an epoch (R147). -/
theorem EncUnit.final_dictHolds {u u' : EncUnit} (h : u.Inv) (hf : u.final = .ok u')
    (hcfg' : u'.cfg = true) : DictHolds u' [] := by
  cases hcfg : u.cfg with
  | false =>
    rw [EncUnit.final, if_pos hcfg] at hf
    cases hf
    exact absurd (hcfg.symm.trans hcfg') (by decide)
  | true =>
    obtain ⟨es, hes⟩ := h.configured hcfg
    obtain ⟨v, hv, rfl⟩ := EncUnit.final_step (.of_cursor hes.cursor h.memories) h.memories hcfg hf
    obtain ⟨hbuild, -, hmaxb⟩ := hv.stream
    exact ((EncUnit.epochReset_holds (u := v) (by rw [hmaxb, hbuild]; exact hes.dict.fits)
      hv.packer.cursor).respond _).dict

theorem SameButStrategy.respond {u v : EncUnit} (h : SameButStrategy u v) (r : Response) :
    SameButStrategy (u.respond r) (v.respond r) :=
  { h with
    resp := congrArg (· ++ [r]) h.resp
    entries := fun hcfg => (h.entries hcfg).imp fun _ ⟨hu, hv⟩ => ⟨hu.respond r, hv.respond r⟩ }

theorem SameButStrategy.raise {u v : EncUnit} (h : SameButStrategy u v) (e : StatusCode)
    (i : InfoWord) : SameButStrategy (u.raise e i) (v.raise e i) := h.respond ⟨e, i⟩

theorem SameButStrategy.checkedTake {u v u' v' : EncUnit} {b : Byte} {rangeInfo : InfoWord}
    (h : SameButStrategy u v) (hu : u.Inv) (hv : v.Inv)
    (htu : u.checkedTake b rangeInfo = .ok u') (htv : v.checkedTake b rangeInfo = .ok v') :
    SameButStrategy u' v' := by
  have hu' := EncUnit.checkedTake_inv hu htu
  have hv' := EncUnit.checkedTake_inv hv htv
  rw [EncUnit.checkedTake] at htu
  rw [EncUnit.checkedTake, ← h.cfg, ← h.maxb] at htv
  split at htu
  · rw [if_pos ‹_›] at htv
    cases htu
    cases htv
    exact h.raise _ _
  · rename_i hcfg
    rw [if_neg hcfg] at htv
    split at htu
    · rw [if_pos ‹_›] at htv
      cases htu
      cases htv
      exact h.raise _ _
    · rename_i hrange
      rw [if_neg hrange] at htv
      obtain ⟨es, heu, hev⟩ := h.entries (by simpa using hcfg)
      obtain ⟨halike, hentries⟩ := EncTwins.take ⟨h.alike, heu, hev, hu.memories, hv.memories⟩
        (BitVec.not_lt.mp hrange) htu htv
      exact halike.sameButStrategy hu' hv' fun _ => hentries

/-- Every command of the encoder, at two cores with the same REMAP table (R127, R151). -/
theorem SameButStrategy.encResult {i : Instr} {s t : State} {u v : EncUnit}
    (h : SameButStrategy s.enc t.enc) (hremap : t.remap = s.remap) (hs : s.enc.Inv) (ht : t.enc.Inv)
    (hu : encResult i s = .ok u) (hv : encResult i t = .ok v) : SameButStrategy u v := by
  cases i with
  | encInit m =>
    cases hu
    cases hv
    exact (EncUnit.init_alike m _ _ h.alike).sameButStrategy_of_empty (EncUnit.init_inv hs m)
      (EncUnit.init_inv ht m) (EncUnit.init_dictHolds hs m) (EncUnit.init_dictHolds ht m)
  | encByte b => exact h.checkedTake hs ht ((s.enc.byte_eq b).symm.trans hu) hv
  | encByteRemap d =>
    have hentry : t.remapEntry d = s.remapEntry d := congrArg (Memory.read unlistedByte · _) hremap
    rw [Machine.encResult, hentry] at hv
    exact h.checkedTake hs ht ((s.enc.byteRemap_eq d _).symm.trans hu) hv
  | encFinal =>
    exact (EncUnit.final_keepsAlike _ _ _ _ h.alike hu hv).sameButStrategy_of_empty
      (EncUnit.final_inv hs hu) (EncUnit.final_inv ht hv) (EncUnit.final_dictHolds hs hu)
      (EncUnit.final_dictHolds ht hv)
  | decInit m => cases hu; cases hv; exact h
  | decByte x => cases hu; cases hv; exact h

/-! ### The core -/

/-- Two cores that meet the invariant and differ only in the encoder's STRATEGY and dictionary storage. -/
structure CoreTwins (s t : State) : Prop where
  left : s.Inv
  right : t.Inv
  enc : SameButStrategy s.enc t.enc
  dec : t.dec = s.dec
  remap : t.remap = s.remap
  host : t.host = s.host

theorem CoreTwins.exec {s t : State} (h : CoreTwins s t) (i : Instr) :
    ∃ s' t', exec i s = .next s' ∧ exec i t = .next t' ∧ CoreTwins s' t' := by
  cases hi : i.port with
  | enc =>
    obtain ⟨u, hu⟩ := encResult_answers h.left.enc i
    obtain ⟨v, hv⟩ := encResult_answers h.right.enc i
    refine ⟨_, _, (exec_enc hi s).trans (State.onEnc_eq_next.mpr ⟨u, hu, rfl⟩),
      (exec_enc hi t).trans (State.onEnc_eq_next.mpr ⟨v, hv, rfl⟩), ?_⟩
    exact ⟨h.left.withEnc (encResult_inv h.left.enc hu),
      h.right.withEnc (encResult_inv h.right.enc hv),
      h.enc.encResult h.remap h.left.enc h.right.enc hu hv, h.dec, h.remap, h.host⟩
  | dec =>
    obtain ⟨d, hd⟩ := decResult_answers h.left.dec i
    have hd' : decResult i t = .ok d := by
      rw [← hd]
      cases i <;> simp only [decResult, h.dec]
    refine ⟨_, _, (exec_dec hi s).trans (State.onDec_eq_next.mpr ⟨d, hd, rfl⟩),
      (exec_dec hi t).trans (State.onDec_eq_next.mpr ⟨d, hd', rfl⟩), ?_⟩
    exact ⟨h.left.withDec (decResult_inv h.left.dec hd),
      h.right.withDec (decResult_inv h.right.dec hd'), h.enc, rfl, h.remap, h.host⟩

theorem CoreTwins.raiseIllegal {s t : State} (h : CoreTwins s t) (p : Port) (w : CmdWord) :
    CoreTwins (s.raiseIllegal p w) (t.raiseIllegal p w) := by
  have hs := h.left.raiseIllegal p w
  have ht := h.right.raiseIllegal p w
  cases p with
  | enc => exact ⟨hs, ht, h.enc.raise _ _, h.dec, h.remap, h.host⟩
  | dec => exact ⟨hs, ht, h.enc, congrArg (DecUnit.raise · _ _) h.dec, h.remap, h.host⟩

/-- A pulse on a reset input; an encoder's build keeps its capacity and buffer, and nothing else of it is left (R230). -/
theorem CoreTwins.resetUnit {s t : State} (h : CoreTwins s t) (p : Port) :
    CoreTwins (s.resetUnit p) (t.resetUnit p) := by
  have hs := h.left.resetUnit p
  have ht := h.right.resetUnit p
  cases p with
  | enc =>
    obtain ⟨d, hd⟩ := h.enc.alike
    have halike : Alike s.enc.hardReset t.enc.hardReset := ⟨t.enc.hardReset, by rw [hd]; rfl⟩
    have henc := halike.sameButStrategy hs.enc ht.enc fun hcfg => by cases hcfg
    exact ⟨hs, ht, henc, h.dec, h.remap, h.host⟩
  | dec => exact ⟨hs, ht, h.enc, congrArg DecUnit.hardReset h.dec, h.remap, h.host⟩

theorem CoreTwins.writeRemap {s t : State} (h : CoreTwins s t) (i v : Byte) :
    CoreTwins (s.writeRemap i v) (t.writeRemap i v) :=
  ⟨h.left.writeRemap i v, h.right.writeRemap i v, h.enc, h.dec,
    congrArg (Memory.write unlistedByte · _ _) h.remap, h.host⟩

/-- One event of the host comes to the same at both cores: a state reached, or a command to run. -/
theorem CoreTwins.takeEvent {s t : State} (h : CoreTwins s t) (e : HostEvent) :
    (∃ s' t', s.takeEvent e = .settled s' ∧ t.takeEvent e = .settled t' ∧ CoreTwins s' t') ∨
    (∃ i, s.takeEvent e = .run i s ∧ t.takeEvent e = .run i t) := by
  cases e with
  | command p w =>
    cases hd : decode p w with
    | error r =>
      exact .inl ⟨_, _, State.receive_of_error hd, State.receive_of_error hd, h.raiseIllegal p w⟩
    | ok i => exact .inr ⟨i, State.receive_of_decode hd, State.receive_of_decode hd⟩
  | remapWrite i v => exact .inl ⟨_, _, rfl, rfl, h.writeRemap i v⟩
  | resetPulse p => exact .inl ⟨_, _, rfl, rfl, h.resetUnit p⟩

theorem CoreTwins.step {s t : State} (h : CoreTwins s t) :
    ∃ s' t', step s = .next s' ∧ step t = .next t' ∧ CoreTwins s' t' := by
  cases hs : s.host with
  | nil =>
    have ht := h.host.trans hs
    exact ⟨s, t, by rw [Machine.step, fetch, hs], by rw [Machine.step, fetch, ht], h⟩
  | cons e rest =>
    have ht := h.host.trans hs
    have hrest : CoreTwins { s with host := rest } { t with host := rest } :=
      ⟨h.left.setHost rest, h.right.setHost rest, h.enc, h.dec, h.remap, rfl⟩
    simp only [Machine.step, fetch, hs, ht]
    obtain ⟨s', t', es, et, h'⟩ | ⟨i, es, et⟩ := hrest.takeEvent e
    · exact ⟨s', t', by rw [es], by rw [et], h'⟩
    · rw [es, et]
      exact hrest.exec i

/-- Settles O42: the two cores take the same event, and the encoders answer and deliver alike because the entries of the epoch
decide every search. -/
theorem strategyHasNoEffect : Obligations.StrategyHasNoEffect := by
  intro s t hs ht henc hdec hremap hhost
  obtain ⟨s', t', es, et, h⟩ := CoreTwins.step ⟨hs, ht, henc, hdec, hremap, hhost⟩
  exact ⟨s', t', es, et, h.left, h.right, h.enc, h.dec, h.remap, h.host⟩

end Sys2Proof.Machine
end

section
/-! PROOF. Streams of bits (30_encoding.md R64, R66, R86): the bits of a sequence of bytes, and the bytes of a sequence of
bits. -/

namespace Sys2Proof.Machine

@[simp] theorem streamBits_nil : streamBits [] = [] := rfl

@[simp] theorem streamBits_append (xs ys : List Byte) :
    streamBits (xs ++ ys) = streamBits xs ++ streamBits ys := List.flatMap_append

theorem streamBits_cons (b : Byte) (bs : List Byte) :
    streamBits (b :: bs) = (List.range 8).map b.getLsbD ++ streamBits bs := rfl

@[simp] theorem streamBits_singleton (b : Byte) :
    streamBits [b] = (List.range 8).map b.getLsbD := List.append_nil _

@[simp] theorem length_streamBits (bytes : List Byte) :
    (streamBits bytes).length = 8 * bytes.length := by
  induction bytes with
  | nil => rfl
  | cons b bs ih =>
    rw [streamBits_cons, List.length_append, ih, List.length_map, List.length_range,
      List.length_cons]
    omega

/-- Stream bit `8 k + j` is bit `j` of stream byte `k` (R64). -/
theorem getD_streamBits {j : Nat} (hj : j < 8) : ∀ (bytes : List Byte) (k : Nat),
    (streamBits bytes).getD (8 * k + j) false = (bytes.getD k 0#8).getLsbD j
  | [], k => by simp
  | b :: bs, 0 => by
    rw [streamBits_cons, List.getD_append _ _ _ _ (by simpa using hj)]
    simp [hj]
  | b :: bs, k + 1 => by
    rw [streamBits_cons, List.getD_append_right _ _ _ _ (by simp; omega), List.getD_cons_succ,
      ← getD_streamBits hj bs k]
    congr 1
    simp only [List.length_map, List.length_range]
    omega

/-- A bit put into a byte at a position shows at that position only. -/
theorem getLsbD_or_bit (c : Byte) (bit : Bool) (n : Nat) {i : Nat} (hi : i < 8) :
    (c ||| BitVec.ofNat 8 (bit.toNat <<< n)).getLsbD i =
      (c.getLsbD i || (decide (i = n) && bit)) := by
  rw [BitVec.getLsbD_or, BitVec.getLsbD_ofNat, Nat.testBit_shiftLeft, Nat.testBit_bool_toNat,
    decide_eq_true hi, Bool.true_and]
  obtain h | rfl | h := Nat.lt_trichotomy i n
  · simp [Nat.not_le_of_lt h, h.ne]
  · simp
  · simp [h.le, h.ne', Nat.sub_ne_zero_of_lt h]

/-- The bits collected into a byte one after the other are its bits (R64). -/
theorem getLsbD_foldl_bits (f : Nat → Bool) {i : Nat} (hi : i < 8) : ∀ n : Nat,
    ((List.range n).foldl (fun acc j => acc ||| BitVec.ofNat 8 ((f j).toNat <<< j)) 0#8).getLsbD i =
      (decide (i < n) && f i)
  | 0 => by simp
  | n + 1 => by
    rw [List.range_succ, List.foldl_append, List.foldl_cons, List.foldl_nil, getLsbD_or_bit _ _ _ hi,
      getLsbD_foldl_bits f hi n]
    obtain h | rfl | h := Nat.lt_trichotomy i n
    · simp [h, h.ne, Nat.lt_succ_of_lt h]
    · simp
    · simp [Nat.not_lt_of_lt h, h.ne', Nat.not_lt.mpr h]

theorem getLsbD_streamByte (bits : List Bool) (k : Nat) {i : Nat} (hi : i < 8) :
    (streamByte bits k).getLsbD i = bits.getD (8 * k + i) false := by
  rw [streamByte, getLsbD_foldl_bits (fun j => bits.getD (8 * k + j) false) hi]
  simp [hi]

/-- Bits with fewer than eight zero bits after them, up to whole bytes, are packed into these bytes (R64, R66). -/
theorem eq_packBits {bytes : List Byte} {bits : List Bool} {pad : Nat} (hpad : pad ≤ 7)
    (h : streamBits bytes = bits ++ List.replicate pad false) : bytes = packBits bits := by
  have hlen := congrArg List.length h
  rw [length_streamBits, List.length_append, List.length_replicate] at hlen
  refine List.ext_getElem (by simp only [packBits, List.length_map, List.length_range]; omega)
    fun k hk _ => ?_
  simp only [packBits, List.getElem_map, List.getElem_range]
  refine BitVec.eq_of_getLsbD_eq fun i hi => ?_
  rw [getLsbD_streamByte _ _ hi, ← List.getD_eq_getElem _ 0#8 hk, ← getD_streamBits hi, h]
  by_cases hin : 8 * k + i < bits.length
  · exact List.getD_append _ _ _ _ hin
  · rw [List.getD_append_right _ _ _ _ (Nat.le_of_not_lt hin),
      List.getD_eq_default _ _ (Nat.le_of_not_lt hin)]
    rw [List.getD_eq_getElem?_getD, List.getElem?_replicate]
    split <;> rfl

@[simp] theorem length_codeBits (v w : Nat) : (codeBits v w).length = w := by simp [codeBits]

@[simp] theorem codesBits_nil : codesBits [] = [] := rfl

@[simp] theorem codesBits_cons (c : Nat × Nat) (cs : List (Nat × Nat)) :
    codesBits (c :: cs) = codeBits c.1 c.2 ++ codesBits cs := rfl

@[simp] theorem codesBits_append (cs ds : List (Nat × Nat)) :
    codesBits (cs ++ ds) = codesBits cs ++ codesBits ds := List.flatMap_append

end Sys2Proof.Machine
end

section
/-! PROOF. The bit packer (41_encoder.md R140, R141): what `EMIT` appends to the stream, what it delivers, where its cursor ends
and which bytes of the staging buffer it stores to. -/

namespace Sys2Proof.Machine

/-! ### The bits that wait in the bit packer -/

theorem EncUnit.emittedBits_def (u : EncUnit) : u.emittedBits =
    streamBits u.out.flatten ++ (streamBits (Memory.prefixBytes u.stage u.pos) ++
      (List.range u.off).map u.cur.getLsbD) := rfl

/-- The bits below `off` of a byte with nothing from there on, and zeros, are all its bits. -/
theorem map_getLsbD_range_eight {c : Byte} {off : Nat} (hoff : off ≤ 8) (hc : c.toNat < 2 ^ off) :
    (List.range 8).map c.getLsbD =
      (List.range off).map c.getLsbD ++ List.replicate (8 - off) false := by
  have hrange : List.range 8 = List.range off ++ (List.range (8 - off)).map (off + ·) := by
    rw [← List.range_add, Nat.add_sub_cancel' hoff]
  rw [hrange, List.map_append, List.map_map, List.append_cancel_left_eq, List.eq_replicate_iff]
  refine ⟨by simp, List.forall_mem_map.mpr fun i _ => ?_⟩
  rw [Function.comp_apply, ← BitVec.testBit_toNat]
  exact Nat.testBit_lt_two_pow (hc.trans_le (Nat.pow_le_pow_right (by decide) (Nat.le_add_right _ _)))

/-- A bit added to the byte being filled is the next bit of the stream (R140). -/
theorem EncUnit.emittedBits_addBit {u : EncUnit} (hoff : u.off ≤ 7) (hcur : u.cur.toNat < 2 ^ u.off)
    (bit : Bool) : (u.addBit bit).emittedBits = u.emittedBits ++ [bit] := by
  have hlow : (List.range u.off).map (u.addBit bit).cur.getLsbD =
      (List.range u.off).map u.cur.getLsbD := by
    refine List.map_congr_left fun i hi => ?_
    have hi := List.mem_range.mp hi
    simp [EncUnit.addBit, getLsbD_or_bit _ _ _ (show i < 8 by omega), hi.ne]
  have htop : (u.addBit bit).cur.getLsbD u.off = bit := by
    rw [EncUnit.addBit, getLsbD_or_bit _ _ _ (show u.off < 8 by omega), ← BitVec.testBit_toNat,
      Nat.testBit_lt_two_pow hcur]
    simp
  rw [emittedBits_def, emittedBits_def, ← hlow]
  change _ ++ (_ ++ (List.range (u.off + 1)).map _) = _
  rw [List.range_succ, List.map_append, List.map_singleton, htop]
  simp [EncUnit.addBit]

/-- Committing the byte being filled appends zero bits up to a whole byte to the stream (R140, R147). -/
theorem EncUnit.emittedBits_commitByte {u v : EncUnit} (h : u.commitByte = .ok v) (hoff : u.off ≤ 8)
    (hcur : u.cur.toNat < 2 ^ u.off) (hs : Memory.wf unlistedByte u.stage = true) :
    v.emittedBits = u.emittedBits ++ List.replicate (8 - u.off) false := by
  obtain ⟨-, rfl⟩ := EncUnit.commitByte_eq_ok.mp h
  simp only [emittedBits_def, Memory.prefixBytes_write hs, streamBits_append, streamBits_singleton,
    map_getLsbD_range_eight hoff hcur, List.range_zero, List.map_nil, List.append_nil,
    List.append_assoc]

/-- A delivery of all that the staging buffer holds changes no bit of the stream (R141). -/
theorem EncUnit.emittedBits_deliver (u : EncUnit) :
    ({ u.deliver (Memory.prefixBytes u.stage u.pos) with pos := 0 }).emittedBits = u.emittedBits := by
  simp only [emittedBits_def, out_deliver, stage_deliver, off_deliver, cur_deliver,
    List.flatten_append, List.flatten_singleton, streamBits_append, List.append_assoc]
  rfl

theorem EncUnit.emittedBits_flushFull (u : EncUnit) : u.flushFull.emittedBits = u.emittedBits := by
  unfold EncUnit.flushFull
  split
  · rename_i h
    rw [← h, emittedBits_deliver]
  · rfl

theorem EncUnit.emittedBits_flushRest (u : EncUnit) : u.flushRest.emittedBits = u.emittedBits := by
  unfold EncUnit.flushRest
  split
  · exact u.emittedBits_deliver
  · rfl

/-! ### What emitting bits does -/

/-- From one unit to a later one, the bit packer has appended the bits to the stream: by deliveries of exactly `B`
bytes, with its cursor as far on as there are bits, and with stores only to the bytes it completed, from `ENC.pos` on
(R140, R141). Nothing is said of what is not the bit packer's. -/
structure Emits (u u' : EncUnit) (bits : List Bool) : Prop where
  build : u'.build = u.build
  packer : PackerOk u'
  stream : u'.emittedBits = u.emittedBits ++ bits
  out : ∃ ds, u'.out = u.out ++ ds ∧ ∀ d ∈ ds, d.length = u.build.stageBytes
  off : u'.off = (u.off + bits.length) % 8
  pos : u'.pos = (u.pos + (u.off + bits.length) / 8) % u.build.stageBytes
  stage : ∀ a, (∀ k < (u.off + bits.length) / 8, a ≠ (u.pos + k) % u.build.stageBytes) →
    Memory.read unlistedByte u'.stage a = Memory.read unlistedByte u.stage a

/-- The two units have the same build, the same bit packer and the same deliveries (R28, R29). -/
structure SamePacker (u u' : EncUnit) : Prop where
  build : u'.build = u.build
  cur : u'.cur = u.cur
  off : u'.off = u.off
  pos : u'.pos = u.pos
  stage : u'.stage = u.stage
  out : u'.out = u.out

/-- What leaves the bit packer alone emits nothing. -/
theorem SamePacker.emits {u u' : EncUnit} (h : SamePacker u u') (hu : PackerOk u) : Emits u u' [] := by
  obtain ⟨hbuild, hcur, hoff, hpos, hstage, hout⟩ := h
  obtain ⟨⟨hoff7, hcurlt, hposlt⟩, hwf⟩ := hu
  have hbytes : (u.off + 0) / 8 = 0 := by omega
  refine ⟨hbuild, ⟨⟨?_, ?_, ?_⟩, ?_⟩, ?_, ⟨[], ?_, by simp⟩, ?_, ?_, ?_⟩
  · rwa [hoff]
  · rwa [hcur, hoff]
  · rwa [hpos, hbuild]
  · rwa [hstage]
  · rw [EncUnit.emittedBits_def, EncUnit.emittedBits_def, hout, hstage, hpos, hoff, hcur,
      List.append_nil]
  · rw [hout, List.append_nil]
  · rw [hoff, List.length_nil]; omega
  · rw [hpos, List.length_nil, hbytes, Nat.add_zero, Nat.mod_eq_of_lt hposlt]
  · exact fun a _ => by rw [hstage]

theorem Emits.refl {u : EncUnit} (hu : PackerOk u) : Emits u u [] :=
  SamePacker.emits ⟨rfl, rfl, rfl, rfl, rfl, rfl⟩ hu

theorem Emits.trans {u v x : EncUnit} {bits bits' : List Bool} (h : Emits u v bits)
    (h' : Emits v x bits') : Emits u x (bits ++ bits') := by
  obtain ⟨ds, hds, hdslen⟩ := h.out
  obtain ⟨ds', hds', hdslen'⟩ := h'.out
  have hbytes : (u.off + (bits ++ bits').length) / 8 =
      (u.off + bits.length) / 8 + (v.off + bits'.length) / 8 := by
    rw [List.length_append, h.off]; omega
  refine ⟨h'.build.trans h.build, h'.packer, ?_, ⟨ds ++ ds', ?_, ?_⟩, ?_, ?_, fun a ha => ?_⟩
  · rw [h'.stream, h.stream, List.append_assoc]
  · rw [hds', hds, List.append_assoc]
  · rw [h.build] at hdslen'
    exact fun d hd => (List.mem_append.mp hd).elim (hdslen d) (hdslen' d)
  · rw [h'.off, h.off, List.length_append]; omega
  · rw [h'.pos, h.pos, h.build, Nat.mod_add_mod, Nat.add_assoc, hbytes]
  · rw [hbytes] at ha
    rw [h'.stage a fun k hk => ?_, h.stage a fun k hk => ha k (by omega)]
    rw [h.build, h.pos, Nat.mod_add_mod, Nat.add_assoc]
    exact ha _ (by omega)

/-- What is done to other parts of the unit afterwards emits nothing more. -/
theorem Emits.then_same {u v x : EncUnit} {bits : List Bool} (h : Emits u v bits)
    (hs : SamePacker v x) : Emits u x bits := by
  simpa using h.trans (hs.emits h.packer)

/-- What is done to other parts of the unit beforehand emits nothing more. -/
theorem Emits.after_same {u v x : EncUnit} {bits : List Bool} (hs : SamePacker u v)
    (hu : PackerOk u) (h : Emits v x bits) : Emits u x bits := (hs.emits hu).trans h

theorem DictFrame.samePacker {u u' : EncUnit} (h : DictFrame u u') : SamePacker u u' := by
  rw [DictFrame] at h
  rw [h]
  exact ⟨rfl, rfl, rfl, rfl, rfl, rfl⟩

theorem EncUnit.epochReset_samePacker (u : EncUnit) : SamePacker u u.epochReset := by
  constructor <;> simp

theorem EncUnit.respond_samePacker (u : EncUnit) (r : Response) : SamePacker u (u.respond r) :=
  ⟨rfl, rfl, rfl, rfl, rfl, rfl⟩

theorem EncUnit.setWidth_samePacker (u : EncUnit) (n : Nat) : SamePacker u (u.setWidth n) :=
  ⟨rfl, rfl, rfl, rfl, rfl, rfl⟩

/-- What committing a byte does besides the stream: the next byte is begun, and one byte of the buffer stored. -/
structure Commits (u v : EncUnit) : Prop where
  build : v.build = u.build
  off : v.off = 0
  pos : v.pos = u.pos + 1
  out : v.out = u.out
  stage : ∀ a, a ≠ u.pos → Memory.read unlistedByte v.stage a = Memory.read unlistedByte u.stage a

theorem EncUnit.commitByte_commits {u v : EncUnit} (h : u.commitByte = .ok v) : Commits u v := by
  obtain ⟨-, rfl⟩ := EncUnit.commitByte_eq_ok.mp h
  exact ⟨rfl, rfl, rfl, rfl, fun a ha => Memory.read_write_ne _ _ _ ha⟩

@[simp] theorem EncUnit.off_flushFull (u : EncUnit) : u.flushFull.off = u.off := by
  unfold EncUnit.flushFull; split <;> rfl

@[simp] theorem EncUnit.stage_flushFull (u : EncUnit) : u.flushFull.stage = u.stage := by
  unfold EncUnit.flushFull; split <;> rfl

/-- After a full buffer is delivered, the cursor stands at its start; otherwise it stays (R141). -/
theorem EncUnit.pos_flushFull {u : EncUnit} (h : u.pos ≤ u.build.stageBytes) :
    u.flushFull.pos = u.pos % u.build.stageBytes := by
  unfold EncUnit.flushFull
  split
  · rename_i hfull
    rw [hfull, Nat.mod_self]
  · rename_i hfull
    exact (Nat.mod_eq_of_lt (Nat.lt_of_le_of_ne h hfull)).symm

theorem EncUnit.out_flushFull (u : EncUnit) :
    ∃ ds, u.flushFull.out = u.out ++ ds ∧ ∀ d ∈ ds, d.length = u.build.stageBytes := by
  unfold EncUnit.flushFull
  split
  · exact ⟨_, rfl, by simp⟩
  · exact ⟨[], by simp, by simp⟩

theorem EncUnit.emitBit_emits {u u' : EncUnit} {bit : Bool} (hu : PackerOk u)
    (h : u.emitBit bit = .ok u') : Emits u u' [bit] := by
  have hpacker := EncUnit.emitBit_packerOk hu h
  have hbuild := (EncUnit.emitBit_frame h).stream.1
  obtain ⟨⟨hoff7, hcur, hpos⟩, hwf⟩ := hu
  obtain ⟨hoff, rfl⟩ | ⟨hoff, v, hv, rfl⟩ := EncUnit.emitBit_eq_ok.mp h
  · have hlen : u.off + [bit].length < 8 := by simp only [List.length_singleton]; omega
    refine ⟨hbuild, hpacker, EncUnit.emittedBits_addBit hoff7 hcur bit, ⟨[], ?_, by simp⟩, ?_, ?_,
      fun a _ => rfl⟩
    · exact (List.append_nil _).symm
    · exact (Nat.mod_eq_of_lt hlen).symm
    · rw [Nat.div_eq_of_lt hlen, Nat.add_zero, Nat.mod_eq_of_lt hpos]
      rfl
  · have hadd : (u.addBit bit).off = 8 := congrArg (· + 1) hoff
    have hstream := EncUnit.emittedBits_commitByte hv hadd.le (by rw [hadd]; exact BitVec.isLt _) hwf
    obtain ⟨hvbuild, hvoff, hvpos, hvout, hvstage⟩ := EncUnit.commitByte_commits hv
    have hvbuild : v.build = u.build := hvbuild
    have hvpos : v.pos = u.pos + 1 := hvpos
    have hbytes : (u.off + [bit].length) / 8 = 1 := by rw [hoff, List.length_singleton]
    obtain ⟨ds, hds, hlen⟩ := v.out_flushFull
    rw [hvout] at hds
    rw [hvbuild] at hlen
    refine ⟨hbuild, hpacker, ?_, ⟨ds, hds, hlen⟩, ?_, ?_, fun a ha => ?_⟩
    · rw [EncUnit.emittedBits_flushFull, hstream, EncUnit.emittedBits_addBit hoff7 hcur, hadd]
      simp
    · rw [off_flushFull, hvoff, hoff, List.length_singleton]
    · rw [EncUnit.pos_flushFull (by rw [hvpos, hvbuild]; exact hpos), hvpos, hvbuild, hbytes]
    · have hne := ha 0 (by rw [hbytes]; decide)
      rw [Nat.add_zero, Nat.mod_eq_of_lt hpos] at hne
      rw [stage_flushFull, hvstage a hne]
      rfl

theorem EncUnit.emitBits_emits {u u' : EncUnit} {bits : List Bool} (hu : PackerOk u)
    (h : u.emitBits bits = .ok u') : Emits u u' bits := by
  induction bits generalizing u with
  | nil => cases h; exact .refl hu
  | cons bit bits ih =>
    obtain ⟨v, hv, h⟩ := bind_eq_ok.mp h
    have hbit := EncUnit.emitBit_emits hu hv
    exact hbit.trans (ih hbit.packer h)

theorem EncUnit.emit_emits {u u' : EncUnit} {v w : Nat} (hu : PackerOk u)
    (h : u.emit v w = .ok u') : Emits u u' (codeBits v w) := EncUnit.emitBits_emits hu h

/-- Settles O17: each bit of the code is appended by one turn of the loop. -/
theorem emitAppendsTheCodesBits : Obligations.EmitAppendsTheCodesBits := by
  intro u v w hc hm
  have hu := PackerOk.of_cursor hc hm
  obtain ⟨x, hx⟩ := EncUnit.emit_answers hu v w
  have hemits := EncUnit.emit_emits hu hx
  obtain ⟨ds, hds, hlen⟩ := hemits.out
  have hstage := hemits.stage
  rw [length_codeBits] at hstage
  exact ⟨x, ds, hx, hemits.packer.cursor, (EncUnit.emit_step hu hm hx).memories, hemits.stream, hds,
    hlen, hstage, EncUnit.emit_frame hx⟩

end Sys2Proof.Machine
end

section
/-! PROOF. The start of an epoch and `ENC.INIT` (41_encoder.md R143, R144): the registers, and the links of the literals. -/

namespace Sys2Proof.Machine

/-- An epoch reset writes the dictionary's count and links, `ENC.idxv` and the width, and nothing else (R143). -/
theorem EncUnit.epochReset_frame (u : EncUnit) : u.epochReset = { u with
    count := emptyCount u.maxb, idxv := false
    w := startWidth u.maxb, t := 2 ^ startWidth u.maxb
    first := u.epochReset.first, root := u.epochReset.root } := by
  unfold EncUnit.epochReset EncUnit.dictReset
  split <;> rfl

/-- An epoch reset clears the child lists of the literals, under LIST only (R121). -/
theorem EncUnit.read_first_epochReset {u : EncUnit} {a : Nat}
    (h : u.build.strategy = .trie ∨ u.maxb.toNat < a) :
    Memory.read unlistedLink u.epochReset.first a = Memory.read unlistedLink u.first a := by
  change Memory.read unlistedLink u.dictReset.first a = _
  cases hs : u.build.strategy with
  | list =>
    have ha : ¬ a < literalCount u.maxb := by
      have := h.resolve_left (by simp [hs])
      simp only [literalCount]
      omega
    rw [EncUnit.first_dictReset hs, Memory.read_clearBelow, if_neg ha]
  | trie => rw [EncUnit.dictReset, hs]

/-- An epoch reset clears the `ROOT` slots of the literals, under TRIE only (R125). -/
theorem EncUnit.read_root_epochReset {u : EncUnit} {c : Nat} {bit : Bool}
    (h : u.build.strategy = .list ∨ u.maxb.toNat < c) :
    Memory.read unlistedLink u.epochReset.root (slotIndex c bit) =
      Memory.read unlistedLink u.root (slotIndex c bit) := by
  change Memory.read unlistedLink u.dictReset.root _ = _
  cases hs : u.build.strategy with
  | list => rw [EncUnit.dictReset, hs]
  | trie =>
    have hc : ¬ slotIndex c bit < 2 * literalCount u.maxb := by
      have := h.resolve_left (by simp [hs])
      simp only [slotIndex, literalCount]
      omega
    rw [EncUnit.root_dictReset hs, Memory.read_clearBelow, if_neg hc]

/-- In a dictionary with no entry, a search from a literal finds nothing (R112). -/
theorem DictHolds.dictFind_literal {u : EncUnit} (h : DictHolds u []) {p : Nat}
    (hp : p ≤ u.maxb.toNat) (b : Byte) : u.dictFind p b = .ok .notFound := by
  have hcount := h.count
  refine EncUnit.dictFind_eq_ok h (r := .notFound) ?_ ?_ List.not_mem_nil
  · simp only [emptyCount, List.length_nil] at hcount
    omega
  · simp only [eosCode]
    omega

/-! ### `ENC.INIT` -/

@[simp] theorem EncUnit.build_started (u : EncUnit) (m : Byte) : (u.started m).build = u.build := by
  simp [EncUnit.started]
@[simp] theorem EncUnit.maxb_started (u : EncUnit) (m : Byte) : (u.started m).maxb = m := by
  simp [EncUnit.started]
@[simp] theorem EncUnit.off_started (u : EncUnit) (m : Byte) : (u.started m).off = 0 := by
  simp [EncUnit.started]
@[simp] theorem EncUnit.pos_started (u : EncUnit) (m : Byte) : (u.started m).pos = 0 := by
  simp [EncUnit.started]
@[simp] theorem EncUnit.out_started (u : EncUnit) (m : Byte) : (u.started m).out = u.out := by
  simp [EncUnit.started]
@[simp] theorem EncUnit.resp_started (u : EncUnit) (m : Byte) : (u.started m).resp = u.resp := by
  simp [EncUnit.started]

/-- An INIT that fits starts a stream and answers `S_OK` (R144). -/
theorem exec_encInit_of_fits {s : State} {m : Byte} (h : m.toNat + 3 ≤ s.enc.build.cap) :
    exec (.encInit m) s = .next (s.withEnc ((s.enc.started m).respond (success sOk))) := by
  obtain ⟨-, e⟩ | ⟨hnot, -⟩ := s.enc.init_cases m
  · rw [← e]
    rfl
  · exact absurd h (Nat.not_le_of_lt hnot)

/-- Settles O13: INIT drops the cursor, then starts an epoch. -/
theorem encInitStartsANewStream : Obligations.EncInitStartsANewStream := by
  intro s m hfits
  have hdict : DictHolds ((s.enc.started m).respond (success sOk)) [] :=
    (EncUnit.dictReset_holds (u := { s.enc with maxb := m, cur := 0#8, off := 0, pos := 0 })
      hfits).congr ⟨rfl, rfl, rfl, rfl, rfl, rfl, rfl, rfl⟩
  refine ⟨(s.enc.started m).respond (success sOk), exec_encInit_of_fits hfits, ?_,
    fun p b hp => hdict.dictFind_literal (by simpa using hp) b,
    fun c hc => EncUnit.read_first_epochReset hc, fun c b hc => EncUnit.read_root_epochReset hc,
    fun hwf => (EncUnit.started_holds hwf hfits).respond _⟩
  rw [EncUnit.started, EncUnit.epochReset_frame]
  rfl

end Sys2Proof.Machine
end

section
/-! PROOF. `ENC.BYTE` and `ENC.BYTE.REMAP` (41_encoder.md R145, R146): what a byte in range does, case by case. -/

namespace Sys2Proof.Machine

/-! ### The two commands that take a byte -/

/-- Both commands on a configured encoder are `ENC.BYTE` from its `DictAdd` on, with the byte they take (R145, R146). -/
theorem State.takes.exec_eq {s : State} {i : Instr} {b : Byte} (h : s.takes i b)
    (hcfg : s.enc.cfg = true) (hb : b ≤ s.enc.maxb) : exec i s = s.onEnc (s.enc.take b) := by
  have hchecks (info : InfoWord) : s.enc.checkedTake b info = s.enc.take b := by
    rw [EncUnit.checkedTake, if_neg (by simp [hcfg]), if_neg (BitVec.not_lt.mpr hb)]
  obtain rfl | ⟨d, rfl, rfl⟩ := h
  · exact congrArg s.onEnc (hchecks _)
  · exact congrArg s.onEnc (hchecks _)

/-- The index and the byte of a range error stand side by side in its INFO (R146). -/
theorem remapInfo_eq (d b : Byte) : remapInfo d b = BitVec.ofNat 32 (d.toNat * 256 + b.toNat) := by
  have hb : b.toNat < 2 ^ 8 := b.isLt
  rw [remapInfo, zext32, ← Nat.shiftLeft_add_eq_or_of_lt hb, Nat.shiftLeft_eq]

/-- Settles O19: the command makes its two checks, and `ENC.BYTE` of a byte in range passes its own. -/
theorem remapEncodesTheTablesByte : Obligations.RemapEncodesTheTablesByte := by
  intro s d
  change s.onEnc (s.enc.checkedTake (s.remapEntry d) (remapInfo d (s.remapEntry d))) = _
  rw [EncUnit.checkedTake, remapInfo_eq]
  by_cases hcfg : s.enc.cfg = false
  · rw [if_pos hcfg, if_pos hcfg]
    rfl
  · rw [if_neg hcfg, if_neg hcfg]
    by_cases hrange : s.enc.maxb < s.remapEntry d
    · rw [if_pos hrange, if_pos (BitVec.lt_def.mp hrange)]
      rfl
    · rw [if_neg hrange, if_neg (mt BitVec.lt_def.mpr hrange)]
      exact (State.takes.exec_eq (.inl rfl) (by simpa using hcfg) (BitVec.not_lt.mp hrange)).symm

/-! ### A byte that continues the match -/

/-- Where `DictAdd` finds a code, the code becomes the match, and that is all (R145, step 2). -/
theorem EncUnit.take_of_found {u : EncUnit} {b : Byte} {c : Nat}
    (h : u.dictAdd u.matchCode b = .ok (.found c, u)) :
    u.take b = .ok (({ u with idx := c, idxv := true }).respond (success sOk)) := by
  rw [EncUnit.take, h]
  rfl

theorem EncUnit.matchCode_of_none {u : EncUnit} (h : u.idxv = false) : u.matchCode = none :=
  if_neg (by simp [h])

theorem EncUnit.matchCode_of_some {u : EncUnit} (h : u.idxv = true) : u.matchCode = some u.idx :=
  if_pos h

/-- With no match, the byte is the new match (R145). -/
theorem EncUnit.take_of_noMatch {u : EncUnit} (h : u.idxv = false) (b : Byte) :
    u.take b = .ok (({ u with idx := b.toNat, idxv := true }).respond (success sOk)) :=
  EncUnit.take_of_found (by rw [EncUnit.matchCode_of_none h, EncUnit.dictAdd_none])

/-- An entry for the match and the byte is the new match (R145). -/
theorem EncUnit.take_of_entry {u : EncUnit} {es : Entries} {b : Byte} {c : Nat} (h : EncHolds u es)
    (hv : u.idxv = true) (hc : entryCode u.maxb es u.idx b = some c) :
    u.take b = .ok (({ u with idx := c, idxv := true }).respond (success sOk)) := by
  obtain ⟨hidx, heos⟩ := h.matched hv
  refine EncUnit.take_of_found ?_
  rw [EncUnit.matchCode_of_some hv]
  exact EncUnit.dictAdd_of_found (EncUnit.dictFind_eq_ok h.dict hidx heos (entryCode_eq_some hc))

/-- Settles O20: with no match, `DictAdd` finds the literal. -/
theorem firstByteOfAnEpochBecomesTheMatch : Obligations.FirstByteOfAnEpochBecomesTheMatch := by
  intro s i b htakes hcfg hb hv
  rw [htakes.exec_eq hcfg hb, EncUnit.take_of_noMatch hv]
  rfl

/-- Settles O21: `DictAdd` finds the entry. -/
theorem byteExtendingTheMatchEmitsNothing : Obligations.ByteExtendingTheMatchEmitsNothing := by
  intro s es i b c htakes hcfg h hb hv hc
  rw [htakes.exec_eq hcfg hb, EncUnit.take_of_entry h hv hc]
  rfl

/-! ### A byte that ends the match -/

/-- The encoder `y` is `u` after the steps 3a and 3b of R145: the entry of the match and the byte is created, the match emitted,
and the byte the new match. -/
structure EntryEmitted (u y : EncUnit) (es : Entries) (b : Byte) : Prop where
  inserted : ∃ v, u.dictAdd (some u.idx) b = .ok (.notFound, v) ∧ SameDict v y
  mid : EncMid y (es ++ [(u.idx, b)])
  emits : Emits u y (codeBits u.idx u.w)
  frame : y = { u with
    count := u.count + 1, idx := b.toNat
    bytev := y.bytev, first := y.first, sib := y.sib, root := y.root, nxt := y.nxt
    cur := y.cur, off := y.off, pos := y.pos, stage := y.stage, out := y.out }

/-- Step 3d of R145: one bit more of width, when the count has reached the threshold. -/
def EncUnit.grown (u : EncUnit) : EncUnit := if u.t ≤ u.count then u.setWidth (u.w + 1) else u

theorem EncUnit.afterInsert_of_room {u : EncUnit} (h : u.count ≠ u.build.cap) (b : Byte) :
    u.afterInsert b = .ok u.grown := by
  rw [EncUnit.afterInsert, EncUnit.grown, if_neg (by simpa [EncUnit.isFull] using h)]
  split <;> rfl

theorem EncUnit.afterInsert_of_full {u x : EncUnit} {b : Byte} (h : u.count = u.build.cap)
    (hx : u.emit b.toNat u.w = .ok x) : u.afterInsert b = .ok x.epochReset := by
  rw [EncUnit.afterInsert, if_pos (by simpa [EncUnit.isFull] using h), hx]
  rfl

/-- Setting the match register changes nothing else that a configured encoder keeps in the middle of `ENC.BYTE`. -/
theorem EncMid.setIdx {u : EncUnit} {es : Entries} (h : EncMid u es) (c : Nat) :
    EncMid { u with idx := c } es where
  dict := h.dict.congr ⟨rfl, rfl, rfl, rfl, rfl, rfl, rfl, rfl⟩
  threshold := h.threshold
  widthMin := h.widthMin
  widthMax := h.widthMax
  cursor := ⟨h.cursor.off, h.cursor.cur, h.cursor.pos⟩
  memories := h.memories

/-- A byte that ends the match goes through the steps 3a and 3b, and then to the steps 3c and 3d (R145). -/
theorem EncUnit.take_of_new {u : EncUnit} {es : Entries} {b : Byte} (h : EncHolds u es)
    (hm : u.memoriesWf = true) (hb : b ≤ u.maxb) (hv : u.idxv = true)
    (hnew : entryCode u.maxb es u.idx b = none) :
    ∃ y, EntryEmitted u y es b ∧
      u.take b = y.afterInsert b >>= fun z => pure (z.respond (success sOk)) := by
  obtain ⟨hidx, heos⟩ := h.matched hv
  have hnew := entryCode_eq_none hnew
  obtain ⟨v, hadd, -, hframe, hcount⟩ := EncUnit.dictAdd_of_new h.dict hm h.room hidx heos hb hnew
  obtain ⟨-, hvm, hvd⟩ := EncUnit.dictAdd_means h.dict hm h.room hidx heos hb hadd
  have hu := PackerOk.of_cursor h.cursor hm
  have hvmid := (h.mid hm).insert hframe hvd hvm
  obtain ⟨x, hx⟩ := EncUnit.emit_answers (hframe.packerOk hu) u.idx u.w
  have hemits := EncUnit.emit_emits (hframe.packerOk hu) hx
  have hxframe := EncUnit.emit_frame hx
  refine ⟨{ x with idx := b.toNat }, ⟨⟨v, hadd, ?_⟩, (hvmid.emit hx).setIdx _, ?_, ?_⟩, ?_⟩
  · exact { hxframe.sameDict with }
  · exact (hemits.after_same hframe.samePacker hu).then_same ⟨rfl, rfl, rfl, rfl, rfl, rfl⟩
  · rw [PackerFrame] at hxframe
    rw [DictFrame, hcount] at hframe
    rw [hxframe, hframe]
  · have hvidx : v.idx = u.idx ∧ v.w = u.w := by
      rw [DictFrame] at hframe
      rw [hframe]
      exact ⟨rfl, rfl⟩
    rw [EncUnit.take, EncUnit.matchCode_of_some hv, hadd]
    change (v.emit v.idx v.w >>= _) = _
    rw [hvidx.1, hvidx.2, hx]
    rfl

section
variable {u y : EncUnit} {es : Entries} {b : Byte}

theorem EntryEmitted.registers (h : EntryEmitted u y es b) : y.build = u.build ∧ y.maxb = u.maxb ∧
    y.count = u.count + 1 ∧ y.idx = b.toNat ∧ y.w = u.w ∧ y.t = u.t := by
  rw [h.frame]
  exact ⟨rfl, rfl, rfl, rfl, rfl, rfl⟩

/-- What the steps 3c and 3d of R145 lead to is an encoder between two commands: with the new entry, or with none after a full
step. -/
theorem EntryEmitted.afterInsert_holds {z : EncUnit} (h : EntryEmitted u y es b) (hu : EncHolds u es)
    (hb : b ≤ u.maxb) (hz : y.afterInsert b = .ok z) :
    EncHolds z (if u.count + 1 = u.build.cap then [] else es ++ [(u.idx, b)]) := by
  obtain ⟨hbuild, hmaxb, hcount, hidx, -, ht⟩ := h.registers
  have hlit := h.mid.dict.literal (b := b) (hmaxb ▸ hb)
  obtain ⟨-, -, -, es', hes'⟩ := EncUnit.afterInsert_holds h.mid
    (by rw [hcount, ht]; exact hu.count_succ_lt) (by rw [hidx]; exact hlit) hz
  have hdict := EncUnit.afterInsert_dictHolds h.mid.dict hz
  rw [hcount, hbuild] at hdict
  exact hes'.withEntries hdict

/-- A byte that ends the match and does not fill the dictionary (R145, steps 3a, 3b and 3d). -/
theorem EncUnit.take_of_new_room (h : EncHolds u es) (hm : u.memoriesWf = true) (hb : b ≤ u.maxb)
    (hv : u.idxv = true) (hnew : entryCode u.maxb es u.idx b = none)
    (hroom : u.count + 1 ≠ u.build.cap) :
    ∃ y, EntryEmitted u y es b ∧ u.take b = .ok (y.grown.respond (success sOk)) ∧
      EncHolds (y.grown.respond (success sOk)) (es ++ [(u.idx, b)]) := by
  obtain ⟨y, hy, htake⟩ := EncUnit.take_of_new h hm hb hv hnew
  obtain ⟨hbuild, -, hcount, -⟩ := hy.registers
  have hafter := EncUnit.afterInsert_of_room (u := y) (by rw [hcount, hbuild]; exact hroom) b
  have hholds := hy.afterInsert_holds h hb hafter
  rw [if_neg hroom] at hholds
  exact ⟨y, hy, by rw [htake, hafter]; rfl, hholds.respond _⟩

/-- A byte that ends the match and fills the dictionary (R145, steps 3a, 3b and 3c). -/
theorem EncUnit.take_of_new_full (h : EncHolds u es) (hm : u.memoriesWf = true) (hb : b ≤ u.maxb)
    (hv : u.idxv = true) (hnew : entryCode u.maxb es u.idx b = none)
    (hfull : u.count + 1 = u.build.cap) :
    ∃ y x, EntryEmitted u y es b ∧ y.emit b.toNat u.w = .ok x ∧
      u.take b = .ok (x.epochReset.respond (success sOk)) ∧
      EncHolds (x.epochReset.respond (success sOk)) [] := by
  obtain ⟨y, hy, htake⟩ := EncUnit.take_of_new h hm hb hv hnew
  obtain ⟨hbuild, -, hcount, -, hw, -⟩ := hy.registers
  obtain ⟨x, hx⟩ := EncUnit.emit_answers hy.emits.packer b.toNat u.w
  have hafter := EncUnit.afterInsert_of_full (u := y) (b := b) (by rw [hcount, hbuild]; exact hfull)
    (by rw [hw]; exact hx)
  have hholds := hy.afterInsert_holds h hb hafter
  rw [if_pos hfull] at hholds
  exact ⟨y, x, hy, hx, by rw [htake, hafter]; rfl, hholds.respond _⟩

theorem EncUnit.grown_samePacker (u : EncUnit) : SamePacker u u.grown := by
  unfold EncUnit.grown
  split
  · exact u.setWidth_samePacker _
  · exact ⟨rfl, rfl, rfl, rfl, rfl, rfl⟩

theorem EntryEmitted.grown_emits (h : EntryEmitted u y es b) :
    Emits u (y.grown.respond (success sOk)) (codeBits u.idx u.w) :=
  (h.emits.then_same y.grown_samePacker).then_same (y.grown.respond_samePacker _)

theorem EntryEmitted.full_emits {x : EncUnit} (h : EntryEmitted u y es b)
    (hx : y.emit b.toNat u.w = .ok x) : Emits u (x.epochReset.respond (success sOk))
      (codeBits u.idx u.w ++ codeBits b.toNat u.w) :=
  ((h.emits.trans (EncUnit.emit_emits h.emits.packer hx)).then_same
    x.epochReset_samePacker).then_same (x.epochReset.respond_samePacker _)

end

/-- Settles O22: the width grows by the threshold `2^w`. -/
theorem byteEndingTheMatchEmitsItsCode : Obligations.ByteEndingTheMatchEmitsItsCode := by
  intro s es i b htakes hcfg h hm hb hv hnew hroom
  obtain ⟨y, hy, htake, hholds⟩ := EncUnit.take_of_new_room h hm hb hv hnew hroom.ne
  refine ⟨_, ?_, hholds, hy.grown_emits.stream, ?_⟩
  · rw [htakes.exec_eq hcfg hb, htake]
    rfl
  · obtain ⟨-, -, hcount, -, -, ht⟩ := hy.registers
    rw [EncUnit.grown, ht, hcount, h.threshold]
    split
    · rw [hy.frame]
      rfl
    · rw [hy.frame, h.threshold]
      rfl

/-- Settles O23: after both codes the epoch is reset, with the cursor where the second one left it. -/
theorem byteFillingTheDictionaryFlushesAndResets :
    Obligations.ByteFillingTheDictionaryFlushesAndResets := by
  intro s es i b htakes hcfg h hm hb hv hnew hfull
  obtain ⟨y, x, hy, hx, htake, hholds⟩ := EncUnit.take_of_new_full h hm hb hv hnew hfull
  refine ⟨_, ?_, hholds, ?_, ?_⟩
  · rw [htakes.exec_eq hcfg hb, htake]
    rfl
  · rw [(hy.full_emits hx).stream, List.append_assoc]
  · have hframe := EncUnit.emit_frame hx
    rw [PackerFrame] at hframe
    rw [EncUnit.epochReset_frame, hframe, hy.frame]
    rfl

end Sys2Proof.Machine
end

section
/-! PROOF. The encoder's memories after a byte that ends the match (40_dictionary.md R120, R124): which entries an insertion
writes. -/

namespace Sys2Proof.Machine

/-- A slot's write changes no memory but those of the slots (R124). -/
theorem EncUnit.writeSlot_links {u u' : EncUnit} {slot : Slot} {e : Option Nat}
    (h : u.writeSlot slot e = .ok u') : u'.first = u.first ∧ u'.sib = u.sib := by
  cases slot with
  | root c b => obtain ⟨-, rfl⟩ := EncUnit.writeSlot_root_eq_ok.mp h; exact ⟨rfl, rfl⟩
  | nxt c b => obtain ⟨-, rfl⟩ := EncUnit.writeSlot_nxt_eq_ok.mp h; exact ⟨rfl, rfl⟩

/-- An insertion into TRIE storage writes no link of LIST storage (R124). -/
theorem EncUnit.trieInsert_links {u u' : EncUnit} {b : Byte} {slot : Slot}
    (h : u.trieInsert b slot = .ok u') : u'.first = u.first ∧ u'.sib = u.sib := by
  obtain ⟨u0, h0, h⟩ := bind_eq_ok.mp h
  obtain ⟨u1, h1, h⟩ := bind_eq_ok.mp h
  obtain ⟨u2, h2, h⟩ := bind_eq_ok.mp h
  obtain ⟨u3, h3, h⟩ := bind_eq_ok.mp h
  obtain ⟨u4, h4, h⟩ := bind_eq_ok.mp h
  obtain ⟨u5, h5, h⟩ := bind_eq_ok.mp h
  obtain rfl := pure_eq_ok.mp h
  obtain ⟨-, rfl⟩ := EncUnit.writeBytev_eq_ok.mp h0
  obtain ⟨f1, s1⟩ := EncUnit.writeSlot_links h1
  obtain ⟨f2, s2⟩ := EncUnit.writeSlot_links h2
  obtain ⟨f3, s3⟩ := EncUnit.writeSlot_links h3
  obtain ⟨f4, s4⟩ := EncUnit.writeSlot_links h4
  obtain ⟨f5, s5⟩ := EncUnit.writeSlot_links h5
  exact ⟨by rw [f5, f4, f3, f2, f1], by rw [s5, s4, s3, s2, s1]⟩

/-- After an insertion of `(p, b)` every entry of the dictionary's storage reads as before, but for the byte and the links of the
new code and the one link that leads to it: the head of the child list of `p`, or the slot where the lookup stopped (R120,
R124). -/
structure InsertStores (u v : EncUnit) (p : Nat) (b : Byte) : Prop where
  bytev : ∀ a, a ≠ u.count → Memory.read unlistedByte v.bytev a = Memory.read unlistedByte u.bytev a
  sib : ∀ a, u.build.strategy = .trie ∨ a ≠ u.count →
    Memory.read unlistedLink v.sib a = Memory.read unlistedLink u.sib a
  first : ∀ a, u.build.strategy = .trie ∨ (a ≠ u.count ∧ a ≠ p) →
    Memory.read unlistedLink v.first a = Memory.read unlistedLink u.first a
  slots : ∀ s : Slot, u.build.strategy = .list ∨
      (s.code ≠ u.count ∧ u.trieLookup p b ≠ .ok (.notFound s)) → v.slotContent s = u.slotContent s

theorem EncUnit.listInsert_stores {u v : EncUnit} {p : Nat} {b : Byte}
    (hs : u.build.strategy = .list) (h : u.listInsert p b = .ok v) : InsertStores u v p b := by
  have hlist {q : Prop} (h : u.build.strategy = .trie ∨ q) : q := h.resolve_left (by simp [hs])
  rw [EncUnit.listInsert_eq_ok h]
  refine ⟨fun a ha => Memory.read_write_ne _ _ _ ha,
    fun a ha => Memory.read_write_ne _ _ _ (hlist ha), fun a ha => ?_, fun s _ => by cases s <;> rfl⟩
  obtain ⟨hcount, hp⟩ := hlist ha
  exact (Memory.read_write_ne _ _ _ hp).trans (Memory.read_write_ne _ _ _ hcount)

theorem EncUnit.trieInsert_stores {u v : EncUnit} {p : Nat} {b : Byte} {slot : Slot}
    (hs : u.build.strategy = .trie) (hm : u.memoriesWf = true)
    (hlookup : u.trieLookup p b = .ok (.notFound slot)) (h : u.trieInsert b slot = .ok v) :
    InsertStores u v p b := by
  obtain ⟨hbytev, -, hcontent⟩ := EncUnit.trieInsert_inserted h hm
  obtain ⟨hfirst, hsib⟩ := EncUnit.trieInsert_links h
  refine ⟨fun a ha => ?_, fun a _ => by rw [hsib], fun a _ => by rw [hfirst], fun s hstop => ?_⟩
  · rw [hbytev]
    exact Memory.read_write_ne _ _ _ ha
  · obtain ⟨hcode, hstop⟩ := hstop.resolve_left (by simp [hs])
    have hne : s ≠ slot := by
      rintro rfl
      exact hstop hlookup
    rw [hcontent, if_neg hne, if_neg hcode]

/-- `DictAdd` writes the new code's entry and links and the one link that leads to it (R120, R124). -/
theorem EncUnit.dictAdd_stores {u v : EncUnit} {p : Nat} {b : Byte} (hm : u.memoriesWf = true)
    (h : u.dictAdd (some p) b = .ok (.notFound, v)) : InsertStores u v p b := by
  cases hs : u.build.strategy with
  | list =>
    simp only [EncUnit.dictAdd, hs] at h
    obtain ⟨a, -, h⟩ := bind_eq_ok.mp h
    cases a with
    | found c => cases h
    | notFound =>
      obtain ⟨v, hi, h⟩ := bind_eq_ok.mp h
      cases h
      exact EncUnit.listInsert_stores hs hi
  | trie =>
    simp only [EncUnit.dictAdd, hs] at h
    obtain ⟨a, ha, h⟩ := bind_eq_ok.mp h
    cases a with
    | found c => cases h
    | notFound slot =>
      obtain ⟨v, hi, h⟩ := bind_eq_ok.mp h
      cases h
      exact EncUnit.trieInsert_stores hs hm ha hi

theorem InsertStores.congr {u v y : EncUnit} {p : Nat} {b : Byte} (h : InsertStores u v p b)
    (hd : SameDict v y) : InsertStores u y p b := by
  refine ⟨?_, ?_, ?_, fun s hs => ?_⟩
  · rw [hd.bytev]; exact h.bytev
  · rw [hd.sib]; exact h.sib
  · rw [hd.first]; exact h.first
  · have hcontent : y.slotContent s = v.slotContent s := by
      cases s <;> simp only [EncUnit.slotContent, hd.root, hd.nxt]
    rw [hcontent]
    exact h.slots s hs

theorem EntryEmitted.stores {u y : EncUnit} {es : Entries} {b : Byte} (h : EntryEmitted u y es b)
    (hm : u.memoriesWf = true) : InsertStores u y u.idx b := by
  obtain ⟨v, hadd, hv⟩ := h.inserted
  exact (EncUnit.dictAdd_stores hm hadd).congr hv

theorem EncUnit.grown_sameDict (u : EncUnit) : SameDict u u.grown := by
  unfold EncUnit.grown
  split <;> exact ⟨rfl, rfl, rfl, rfl, rfl, rfl, rfl, rfl⟩

/-- A search that finds nothing has no entry to find (R112). -/
theorem EncHolds.entryCode_eq_none {u : EncUnit} {es : Entries} {b : Byte} (h : EncHolds u es)
    (hv : u.idxv = true) (hfind : u.dictFind u.idx b = .ok .notFound) :
    entryCode u.maxb es u.idx b = none := by
  obtain ⟨hidx, heos⟩ := h.matched hv
  cases hc : entryCode u.maxb es u.idx b with
  | none => rfl
  | some c =>
    rw [EncUnit.dictFind_eq_ok h.dict hidx heos (entryCode_eq_some hc)] at hfind
    cases hfind

/-- Settles O24: an insertion's stores, the bytes that the emitted codes complete and, on a full step, the links that the epoch
reset clears. -/
theorem byteEndingTheMatchStoresOnlyItsEntry : Obligations.ByteEndingTheMatchStoresOnlyItsEntry := by
  intro s t es i b htakes hcfg h hm hb hv hfind hexec
  have hnew := h.entryCode_eq_none hv hfind
  rw [htakes.exec_eq hcfg hb] at hexec
  obtain ⟨z, hz, rfl⟩ := State.onEnc_eq_next.mp hexec
  by_cases hfull : s.enc.count + 1 = s.enc.build.cap
  · obtain ⟨y, x, hy, hx, htake, -⟩ := EncUnit.take_of_new_full h hm hb hv hnew hfull
    obtain rfl := Except.ok.inj (htake.symm.trans hz)
    have hd := (EncUnit.emit_frame hx).sameDict
    have hstores := (hy.stores hm).congr hd
    obtain ⟨hbuild, hmaxb, -⟩ := hy.registers
    have hbuild := hd.build.trans hbuild
    have hmaxb := hd.maxb.trans hmaxb
    have hstage := (hy.full_emits hx).stage
    rw [List.length_append, length_codeBits, length_codeBits, ← Nat.two_mul] at hstage
    rw [if_pos hfull]
    have hlit {q r : Prop} {c : Nat} (h : q ∧ r ∧ ¬ (s.enc.count + 1 = s.enc.build.cap ∧
        c ≤ s.enc.maxb.toNat)) : x.maxb.toNat < c := by
      obtain ⟨-, -, hnot⟩ := h
      rw [hmaxb]
      exact Nat.lt_of_not_le fun hle => hnot ⟨hfull, hle⟩
    refine ⟨fun a ha => ?_, fun a ha => ?_, fun a ha => ?_, fun c bit hc => ?_, fun c bit hc => ?_,
      hstage⟩
    · exact (congrArg (Memory.read _ · a) x.bytev_epochReset).trans (hstores.bytev a ha)
    · exact (congrArg (Memory.read _ · a) x.sib_epochReset).trans (hstores.sib a ha)
    · exact (EncUnit.read_first_epochReset (hbuild ▸ ha.imp_right hlit)).trans
        (hstores.first a (ha.imp_right (And.imp_right And.left)))
    · exact (EncUnit.read_root_epochReset (hbuild ▸ hc.imp_right hlit)).trans
        (hstores.slots (.root c bit) (hc.imp_right (And.imp_right And.left)))
    · exact (congrArg (Memory.read _ · _) x.nxt_epochReset).trans (hstores.slots (.nxt c bit) hc)
  · obtain ⟨y, hy, htake, -⟩ := EncUnit.take_of_new_room h hm hb hv hnew hfull
    obtain rfl := Except.ok.inj (htake.symm.trans hz)
    have hstores := (hy.stores hm).congr y.grown_sameDict
    have hstage := hy.grown_emits.stage
    rw [length_codeBits] at hstage
    rw [if_neg hfull]
    exact ⟨hstores.bytev, hstores.sib,
      fun a ha => hstores.first a (ha.imp_right (And.imp_right And.left)),
      fun c bit hc => hstores.slots (.root c bit) (hc.imp_right (And.imp_right And.left)),
      fun c bit hc => hstores.slots (.nxt c bit) hc, hstage⟩

end Sys2Proof.Machine
end

section
/-! PROOF. `ENC.FINAL` (41_encoder.md R147): the pending match, `EOS`, the padding and the last delivery. -/

namespace Sys2Proof.Machine

/-- The encoder's registers in the terms of the abstract encoder (R110, R25, R26). -/
def EncUnit.abs (u : EncUnit) (es : Entries) : AbsEnc := ⟨es, u.matchCode, u.w⟩

@[simp] theorem EncUnit.w_abs (u : EncUnit) (es : Entries) : (u.abs es).w = u.w := rfl

theorem EncHolds.abs_count {u : EncUnit} {es : Entries} (h : EncHolds u es) :
    (u.abs es).count u.maxb = u.count := h.dict.count.symm

/-- The result is the old unit with only the bit packer, the width and the threshold changed. -/
def FinalFrame (u u' : EncUnit) : Prop :=
  u' = { u with
    w := u'.w, t := u'.t
    cur := u'.cur, off := u'.off, pos := u'.pos, stage := u'.stage, out := u'.out }

theorem PackerFrame.final {u u' : EncUnit} (h : PackerFrame u u') : FinalFrame u u' := by
  rw [PackerFrame] at h
  rw [FinalFrame, h]

theorem FinalFrame.trans {u v x : EncUnit} (h : FinalFrame u v) (h' : FinalFrame v x) :
    FinalFrame u x := by
  unfold FinalFrame at *
  rw [h', h]

theorem EncUnit.finalWidthStep_frame (u : EncUnit) : FinalFrame u u.finalWidthStep := by
  unfold EncUnit.finalWidthStep
  split <;> rfl

theorem EncUnit.finalWidthStep_samePacker (u : EncUnit) : SamePacker u u.finalWidthStep := by
  unfold EncUnit.finalWidthStep
  split
  · exact u.setWidth_samePacker _
  · exact ⟨rfl, rfl, rfl, rfl, rfl, rfl⟩

theorem EncUnit.w_finalWidthStep (u : EncUnit) : u.finalWidthStep.w =
    if u.t ≤ u.count + 1 ∧ u.count ≠ u.build.cap - 1 then u.w + 1 else u.w := by
  unfold EncUnit.finalWidthStep
  split <;> rfl

theorem AbsEnc.final_of_noMatch {cap : Nat} {m : Byte} {a : AbsEnc} (h : a.idx = none) :
    a.final cap m = [(eosCode m, a.w)] := by
  rw [AbsEnc.final, h]

theorem AbsEnc.final_of_match {cap : Nat} {m : Byte} {a : AbsEnc} {p : Nat} (h : a.idx = some p) :
    a.final cap m = [(p, a.w), (eosCode m,
      if 2 ^ a.w ≤ a.count m + 1 ∧ a.count m ≠ cap - 1 then a.w + 1 else a.w)] := by
  rw [AbsEnc.final, h]

/-- The bits of `ENC.FINAL`, as the statements spell them (R147). -/
theorem EncHolds.final_bits {u : EncUnit} {es : Entries} (h : EncHolds u es) :
    codesBits ((u.abs es).final u.build.cap u.maxb) =
      if u.idxv = true then
        codeBits u.idx u.w ++ codeBits (u.maxb.toNat + 1)
          (if 2 ^ u.w ≤ u.count + 1 ∧ u.count ≠ u.build.cap - 1 then u.w + 1 else u.w)
      else codeBits (u.maxb.toNat + 1) u.w := by
  cases hv : u.idxv with
  | false =>
    rw [AbsEnc.final_of_noMatch (EncUnit.matchCode_of_none hv), if_neg (by simp)]
    exact List.append_nil _
  | true =>
    rw [AbsEnc.final_of_match (EncUnit.matchCode_of_some hv), if_pos rfl, h.abs_count]
    simp only [codesBits_cons, codesBits_nil, List.append_nil]
    rfl

/-- The codes of `ENC.FINAL` are emitted as the abstract encoder gives them, and then the partial byte is dealt with (R147). -/
theorem EncUnit.final_eq {u : EncUnit} {es : Entries} (h : EncHolds u es) (hm : u.memoriesWf = true)
    (hcfg : u.cfg = true) :
    ∃ x, FinalFrame u x ∧ Emits u x (codesBits ((u.abs es).final u.build.cap u.maxb)) ∧
      u.final = x.padByte >>= fun y => pure (y.flushRest.epochReset.respond (success sOk)) := by
  have hu := PackerOk.of_cursor h.cursor hm
  rw [EncUnit.final, if_neg (by simp [hcfg]), EncUnit.emitPending]
  cases hv : u.idxv with
  | false =>
    obtain ⟨x, hx⟩ := EncUnit.emit_answers hu (eosCode u.maxb) u.w
    refine ⟨x, (EncUnit.emit_frame hx).final, ?_, ?_⟩
    · rw [h.final_bits, if_neg (by simp [hv])]
      exact EncUnit.emit_emits hu hx
    · change (u.emit _ _ >>= _) = _
      rw [hx]
      rfl
  | true =>
    obtain ⟨v, hv'⟩ := EncUnit.emit_answers hu u.idx u.w
    have hvframe := EncUnit.emit_frame hv'
    have hpending := (EncUnit.emit_emits hu hv').then_same v.finalWidthStep_samePacker
    have hframe := hvframe.final.trans v.finalWidthStep_frame
    have hmaxb : v.finalWidthStep.maxb = u.maxb := by
      rw [FinalFrame] at hframe
      rw [hframe]
    have hw : v.finalWidthStep.w =
        if 2 ^ u.w ≤ u.count + 1 ∧ u.count ≠ u.build.cap - 1 then u.w + 1 else u.w := by
      rw [EncUnit.w_finalWidthStep, ← h.threshold]
      rw [PackerFrame] at hvframe
      rw [hvframe]
    obtain ⟨x, hx⟩ := EncUnit.emit_answers hpending.packer (eosCode u.maxb) v.finalWidthStep.w
    refine ⟨x, hframe.trans (EncUnit.emit_frame hx).final, ?_, ?_⟩
    · have hemits := hpending.trans (EncUnit.emit_emits hpending.packer hx)
      rw [hw] at hemits
      rw [h.final_bits, if_pos hv]
      exact hemits
    · change ((u.emit _ _ >>= fun v => pure v.finalWidthStep) >>= _) = _
      rw [hv']
      change (v.finalWidthStep.emit _ _ >>= _) = _
      rw [hmaxb, hx]
      rfl

/-! ### The partial byte and the last delivery -/

/-- What padding the partial byte and delivering the rest of the buffer does: the stream gets fewer than eight zero bits, and
unless nothing was pending there is one delivery more, of at most `B` bytes (R147). -/
structure Flushes (x z : EncUnit) : Prop where
  frame : PackerFrame x z
  cur : z.cur = 0#8
  off : z.off = 0
  pos : z.pos = 0
  stream : ∃ pad ≤ 7, z.emittedBits = x.emittedBits ++ List.replicate pad false
  out : (x.off = 0 ∧ x.pos = 0 ∧ z.out = x.out) ∨
    ∃ last, z.out = x.out ++ [last] ∧ 1 ≤ last.length ∧ last.length ≤ x.build.stageBytes
  stage : ∀ a, (0 < x.off → a ≠ x.pos) →
    Memory.read unlistedByte z.stage a = Memory.read unlistedByte x.stage a

/-- The last delivery is what the staging buffer still holds, if anything (R147). -/
theorem EncUnit.out_flushRest {u : EncUnit} (hpos : u.pos ≤ u.build.stageBytes) :
    (u.pos = 0 ∧ u.flushRest.out = u.out) ∨ ∃ last, u.flushRest.out = u.out ++ [last] ∧
      1 ≤ last.length ∧ last.length ≤ u.build.stageBytes := by
  unfold EncUnit.flushRest
  by_cases h : 0 < u.pos
  · rw [if_pos h]
    exact .inr ⟨_, rfl, by rw [Memory.prefixBytes_length]; exact h,
      by rw [Memory.prefixBytes_length]; exact hpos⟩
  · rw [if_neg h]
    exact .inl ⟨Nat.eq_zero_of_not_pos h, rfl⟩

theorem EncUnit.padByte_flushRest_flushes {x : EncUnit} (hx : PackerOk x) :
    ∃ y, x.padByte = .ok y ∧ Flushes x y.flushRest := by
  obtain ⟨⟨hoff, hcur, hpos⟩, hwf⟩ := hx
  unfold EncUnit.padByte
  by_cases h : 0 < x.off
  · obtain ⟨y, hy⟩ := EncUnit.commitByte_answers hpos
    have hstream := EncUnit.emittedBits_commitByte hy (Nat.le_succ_of_le hoff) hcur hwf
    obtain ⟨hybuild, hyoff, hypos, hyout, hystage⟩ := EncUnit.commitByte_commits hy
    have hycur : y.cur = 0#8 := by
      obtain ⟨-, rfl⟩ := EncUnit.commitByte_eq_ok.mp hy
      rfl
    refine ⟨y, by rw [if_pos h, hy], (EncUnit.commitByte_frame hy).trans y.flushRest_frame, ?_, ?_,
      y.pos_flushRest, ⟨8 - x.off, by omega, ?_⟩, .inr ?_, fun a ha => ?_⟩
    · rw [EncUnit.cur_flushRest, hycur]
    · rw [EncUnit.off_flushRest, hyoff]
    · rw [EncUnit.emittedBits_flushRest, hstream]
    · have hlast := EncUnit.out_flushRest (u := y) (by rw [hypos, hybuild]; exact hpos)
      rw [hyout, hybuild] at hlast
      exact hlast.resolve_left fun ⟨h0, _⟩ => by omega
    · rw [EncUnit.stage_flushRest, hystage a (ha h)]
  · have hoff0 := Nat.eq_zero_of_not_pos h
    have hcur0 : x.cur = 0#8 := by
      rw [hoff0, Nat.pow_zero, Nat.lt_one_iff] at hcur
      exact BitVec.eq_of_toNat_eq hcur
    refine ⟨x, if_neg h, x.flushRest_frame, ?_, ?_, x.pos_flushRest, ⟨0, Nat.zero_le 7, ?_⟩, ?_,
      fun a _ => ?_⟩
    · rw [EncUnit.cur_flushRest, hcur0]
    · rw [EncUnit.off_flushRest, hoff0]
    · rw [EncUnit.emittedBits_flushRest]
      simp
    · exact (EncUnit.out_flushRest hpos.le).imp_left fun ⟨h0, hout⟩ => ⟨hoff0, h0, hout⟩
    · rw [EncUnit.stage_flushRest]

/-- With an empty cursor every bit of the stream has been delivered. -/
theorem EncUnit.emittedBits_of_empty {u : EncUnit} (hoff : u.off = 0) (hpos : u.pos = 0) :
    u.emittedBits = streamBits u.out.flatten := by
  rw [emittedBits_def, hoff, hpos]
  exact List.append_nil _

/-- When at least one bit is emitted and the bit packer then flushed, there is a last delivery, and it is not empty. -/
theorem Emits.last_delivery {u x z : EncUnit} {bits : List Bool} (h : Emits u x bits)
    (hbits : bits ≠ []) (hz : Flushes x z) :
    ∃ ds last, z.out = u.out ++ ds ++ [last] ∧ (∀ d ∈ ds, d.length = u.build.stageBytes) ∧
      1 ≤ last.length ∧ last.length ≤ u.build.stageBytes := by
  obtain ⟨ds, hds, hlen⟩ := h.out
  obtain ⟨hoff, hpos, hout⟩ | ⟨last, hout, hlast⟩ := hz.out
  · have hne : ds ≠ [] := by
      rintro rfl
      have hstream := h.stream
      rw [EncUnit.emittedBits_of_empty hoff hpos, hds, List.append_nil, EncUnit.emittedBits,
        List.append_assoc, List.self_eq_append_right] at hstream
      exact hbits (List.append_eq_nil_iff.mp hstream).2
    have hfull := hlen _ (List.getLast_mem hne)
    have hroom := Nat.zero_lt_of_lt h.packer.cursor.pos
    rw [h.build] at hroom
    refine ⟨ds.dropLast, ds.getLast hne, ?_, fun d hd => hlen d (List.dropLast_subset _ hd), ?_, ?_⟩
    · rw [hout, hds, List.append_assoc, List.dropLast_concat_getLast]
    · rw [hfull]; exact hroom
    · rw [hfull]
  · rw [h.build] at hlast
    exact ⟨ds, last, by rw [hout, hds], hlen, hlast⟩

theorem EncHolds.width_pos {u : EncUnit} {es : Entries} (h : EncHolds u es) : 1 ≤ u.w :=
  (startWidth_pos u.maxb).trans h.widthMin

/-- `ENC.FINAL` emits `EOS` at least (R147). -/
theorem EncHolds.final_bits_ne_nil {u : EncUnit} {es : Entries} (h : EncHolds u es) :
    codesBits ((u.abs es).final u.build.cap u.maxb) ≠ [] := by
  have hw := h.width_pos
  rw [h.final_bits, ← List.length_pos_iff, apply_ite List.length, List.length_append,
    length_codeBits, length_codeBits, length_codeBits]
  split <;> omega

/-- The encoder `z` is `u` after `ENC.FINAL` has made its last delivery, before the epoch reset: up to `x` the codes have
been emitted, and from there on the cursor emptied (R147). -/
structure Finishes (u x z : EncUnit) (es : Entries) : Prop where
  frame : FinalFrame u z
  emits : Emits u x (codesBits ((u.abs es).final u.build.cap u.maxb))
  flushes : Flushes x z

/-- Everything `ENC.FINAL` does on a configured encoder (R147). -/
theorem EncUnit.final_finishes {u : EncUnit} {es : Entries} (h : EncHolds u es)
    (hm : u.memoriesWf = true) (hcfg : u.cfg = true) : ∃ x z, Finishes u x z es ∧
      u.final = .ok (z.epochReset.respond (success sOk)) := by
  obtain ⟨x, hframe, hemits, hfinal⟩ := EncUnit.final_eq h hm hcfg
  obtain ⟨y, hy, hflushes⟩ := EncUnit.padByte_flushRest_flushes hemits.packer
  exact ⟨x, y.flushRest, ⟨hframe.trans hflushes.frame.final, hemits, hflushes⟩,
    by rw [hfinal, hy]; rfl⟩

section
variable {u x z : EncUnit} {es : Entries}

theorem Finishes.stream (h : Finishes u x z es) : ∃ pad ≤ 7, streamBits z.out.flatten =
    u.emittedBits ++ codesBits ((u.abs es).final u.build.cap u.maxb) ++ List.replicate pad false := by
  obtain ⟨pad, hpad, hstream⟩ := h.flushes.stream
  rw [EncUnit.emittedBits_of_empty h.flushes.off h.flushes.pos, h.emits.stream] at hstream
  exact ⟨pad, hpad, hstream⟩

/-- After `ENC.FINAL` an epoch starts (R147). -/
theorem Finishes.holds (h : Finishes u x z es) (hu : EncHolds u es) :
    EncHolds (z.epochReset.respond (success sOk)) [] := by
  obtain ⟨hframe, hemits, hflushes⟩ := h
  have hbuild : z.build = x.build := hflushes.frame.stream.1
  have hroom := Nat.zero_lt_of_lt hemits.packer.cursor.pos
  refine (EncUnit.epochReset_holds ?_ ⟨?_, ?_, ?_⟩).respond _
  · rw [FinalFrame] at hframe
    rw [hframe]
    exact hu.dict.fits
  · rw [hflushes.off]; exact Nat.zero_le 7
  · rw [hflushes.off, hflushes.cur]; exact Nat.one_pos
  · rw [hflushes.pos, hbuild]; exact hroom

/-- The codes and the padded byte are stored from `ENC.pos` on (R140, R147). -/
theorem Finishes.stage (h : Finishes u x z es) {n : Nat}
    (hn : (codesBits ((u.abs es).final u.build.cap u.maxb)).length = n) {a : Nat}
    (ha : ∀ k < (u.off + n + 7) / 8, a ≠ (u.pos + k) % u.build.stageBytes) :
    Memory.read unlistedByte z.stage a = Memory.read unlistedByte u.stage a := by
  obtain ⟨-, hemits, hflushes⟩ := h
  subst hn
  rw [hflushes.stage a fun hoff => ?_, hemits.stage a fun k hk => ha k (by omega)]
  rw [hemits.off] at hoff
  rw [hemits.pos]
  exact ha _ (by omega)

end

theorem EncUnit.final_of_unconfigured {u : EncUnit} (h : u.cfg = false) :
    u.final = .ok (u.raise eNotConfigured 0#32) := if_pos h

/-- Settles O25: the codes are emitted, the cursor emptied, and an epoch started. -/
theorem finalTerminatesAndFlushesTheStream : Obligations.FinalTerminatesAndFlushesTheStream := by
  intro s es
  constructor
  · intro hcfg
    change s.onEnc s.enc.final = _
    rw [EncUnit.final_of_unconfigured hcfg]
    rfl
  · intro hcfg h hm
    obtain ⟨x, z, hz, hfinal⟩ := EncUnit.final_finishes h hm hcfg
    obtain ⟨ds, last, hout, hlen, hlast⟩ := hz.emits.last_delivery h.final_bits_ne_nil hz.flushes
    obtain ⟨pad, hpad, hstream⟩ := hz.stream
    rw [h.final_bits] at hstream
    refine ⟨z.epochReset.respond (success sOk), ds, last, pad, ?_, hz.holds h, ?_, hlen, hlast.1,
      hlast.2, hpad, ?_, ?_⟩
    · change s.onEnc s.enc.final = _
      rw [hfinal]
      rfl
    · rw [EncUnit.out_respond, EncUnit.out_epochReset, hout]
    · rw [EncUnit.out_respond, EncUnit.out_epochReset, hstream]
    · have hframe := hz.frame
      rw [FinalFrame, hz.flushes.cur, hz.flushes.off, hz.flushes.pos] at hframe
      rw [EncUnit.epochReset_frame, hframe]
      rfl

/-- Settles O26: the epoch reset clears links of the literals only, and the bytes stored are those of the stream. -/
theorem finalStoresOnlyItsBytes : Obligations.FinalStoresOnlyItsBytes := by
  intro s t es hcfg h hm hexec
  obtain ⟨x, z, hz, hfinal⟩ := EncUnit.final_finishes h hm hcfg
  obtain ⟨w, hw, rfl⟩ := State.onEnc_eq_next.mp hexec
  obtain rfl := Except.ok.inj (hfinal.symm.trans hw)
  have hframe := hz.frame
  rw [FinalFrame] at hframe
  have hstage {a : Nat} := hz.stage (a := a) (congrArg List.length h.final_bits)
  refine ⟨?_, ?_, ?_, fun a ha => ?_, fun c bit hc => ?_, fun a ha => ?_⟩
  · exact z.bytev_epochReset.trans (by rw [hframe])
  · exact z.sib_epochReset.trans (by rw [hframe])
  · exact z.nxt_epochReset.trans (by rw [hframe])
  · exact (EncUnit.read_first_epochReset (by rw [hframe]; exact ha)).trans (by rw [hframe])
  · exact (EncUnit.read_root_epochReset (by rw [hframe]; exact hc)).trans (by rw [hframe])
  · change Memory.read _ z.epochReset.stage a = _
    rw [EncUnit.stage_epochReset]
    refine hstage ?_
    rw [apply_ite List.length, List.length_append, length_codeBits, length_codeBits, length_codeBits]
    exact ha

end Sys2Proof.Machine
end

section
/-! PROOF. The encoder's stream (41_encoder.md R141, R142, R145, R147): the unit follows the abstract encoder, and delivers the
codes of that encoder packed into bytes. -/

namespace Sys2Proof.Machine

/-! ### One byte of the abstract encoder -/

section
variable {cap : Nat} {m : Byte} {a : AbsEnc} {p : Nat} {b : Byte}

theorem AbsEnc.byte_of_noMatch (h : a.idx = none) :
    a.byte cap m b = ({ a with idx := some b.toNat }, []) := by
  rw [AbsEnc.byte, h]

theorem AbsEnc.byte_of_entry {c : Nat} (h : a.idx = some p)
    (hc : entryCode m a.entries p b = some c) :
    a.byte cap m b = ({ a with idx := some c }, []) := by
  simp only [AbsEnc.byte, h, hc]

theorem AbsEnc.byte_of_new_full (h : a.idx = some p) (hc : entryCode m a.entries p b = none)
    (hfull : a.count m + 1 = cap) :
    a.byte cap m b = (AbsEnc.start m, [(p, a.w), (b.toNat, a.w)]) := by
  simp only [AbsEnc.byte, h, hc, AbsEnc.insert, List.length_append, List.length_singleton]
  exact if_pos hfull

theorem AbsEnc.byte_of_new_room (h : a.idx = some p) (hc : entryCode m a.entries p b = none)
    (hroom : a.count m + 1 ≠ cap) : a.byte cap m b =
      (⟨a.entries ++ [(p, b)], some b.toNat, if 2 ^ a.w ≤ a.count m + 1 then a.w + 1 else a.w⟩,
        [(p, a.w)]) := by
  simp only [AbsEnc.byte, h, hc, AbsEnc.insert, List.length_append, List.length_singleton]
  exact if_neg hroom

end

/-! ### The unit follows it -/

/-- The unit `u'` with the entries `es'` is `u` with `es` after an input byte: the abstract encoder makes the same step, and its
codes have been emitted (R145). -/
structure FollowsByte (u u' : EncUnit) (es es' : Entries) (b : Byte) (codes : List (Nat × Nat)) :
    Prop where
  holds : EncHolds u' es'
  abs : (u.abs es).byte u.build.cap u.maxb b = (u'.abs es', codes)
  emits : Emits u u' (codesBits codes)

/-- A byte for which `DictAdd` finds a code sets the match, at the unit as in the abstract encoder. -/
theorem EncHolds.followsByte_of_match {u : EncUnit} {es : Entries} {b : Byte} {c : Nat}
    (h : EncHolds u es) (hm : u.memoriesWf = true) (hc : c < u.count ∧ c ≠ eosCode u.maxb)
    (habs : (u.abs es).byte u.build.cap u.maxb b = ({ u.abs es with idx := some c }, [])) :
    FollowsByte u (({ u with idx := c, idxv := true }).respond (success sOk)) es es b [] where
  holds := (h.setMatch hc).respond _
  abs := habs
  emits := SamePacker.emits ⟨rfl, rfl, rfl, rfl, rfl, rfl⟩ (.of_cursor h.cursor hm)

theorem EntryEmitted.grown_abs {u y : EncUnit} {es es' : Entries} {b : Byte}
    (h : EntryEmitted u y es b) (hu : EncHolds u es) (hv : u.idxv = true) : y.grown.abs es' =
      ⟨es', some b.toNat, if 2 ^ u.w ≤ u.count + 1 then u.w + 1 else u.w⟩ := by
  obtain ⟨-, -, hcount, hidx, hw, ht⟩ := h.registers
  have hmatch : y.matchCode = some b.toNat := by
    rw [← hidx]
    refine EncUnit.matchCode_of_some ?_
    rw [h.frame]
    exact hv
  rw [EncUnit.grown, ht, hcount, hu.threshold, EncUnit.abs]
  split
  · rw [← hmatch, ← hw]
    rfl
  · rw [hmatch, hw]

theorem EncUnit.epochReset_abs (u : EncUnit) : u.epochReset.abs [] = AbsEnc.start u.maxb := by
  rw [EncUnit.abs, EncUnit.matchCode_of_none u.idxv_epochReset, w_epochReset]
  rfl

/-- `ENC.BYTE` with a byte in range answers, and follows the abstract encoder (R145). -/
theorem EncUnit.take_follows {u : EncUnit} {es : Entries} {b : Byte} (h : EncHolds u es)
    (hm : u.memoriesWf = true) (hb : b ≤ u.maxb) :
    ∃ u' es' codes, u.take b = .ok u' ∧ FollowsByte u u' es es' b codes := by
  cases hv : u.idxv with
  | false =>
    exact ⟨_, es, [], EncUnit.take_of_noMatch hv b, h.followsByte_of_match hm (h.dict.literal hb)
      (AbsEnc.byte_of_noMatch (EncUnit.matchCode_of_none hv))⟩
  | true =>
    have hmatch := EncUnit.matchCode_of_some hv
    cases hc : entryCode u.maxb es u.idx b with
    | some c =>
      obtain ⟨k, hk, rfl, -⟩ := entryCode_eq_some hc
      exact ⟨_, es, [], EncUnit.take_of_entry h hv hc,
        h.followsByte_of_match hm (h.dict.created hk) (AbsEnc.byte_of_entry hmatch hc)⟩
    | none =>
      by_cases hfull : u.count + 1 = u.build.cap
      · obtain ⟨y, x, hy, hx, htake, hholds⟩ := EncUnit.take_of_new_full h hm hb hv hc hfull
        refine ⟨_, [], _, htake, hholds, (AbsEnc.byte_of_new_full hmatch hc
          (by rw [h.abs_count]; exact hfull)).trans (congrArg (·, _) ?_), ?_⟩
        · obtain ⟨-, hmaxb, -⟩ := hy.registers
          rw [← hmaxb, ← (EncUnit.emit_frame hx).sameDict.maxb]
          exact x.epochReset_abs.symm
        · simpa using hy.full_emits hx
      · obtain ⟨y, hy, htake, hholds⟩ := EncUnit.take_of_new_room h hm hb hv hc hfull
        refine ⟨_, _, _, htake, hholds, (AbsEnc.byte_of_new_room hmatch hc
          (by rw [h.abs_count]; exact hfull)).trans (congrArg (·, _) ?_), ?_⟩
        · rw [h.abs_count]
          exact (hy.grown_abs h hv).symm
        · simpa using hy.grown_emits

/-! ### Deliveries -/

/-- The deliveries of `ENC.BYTE` and `ENC.BYTE.REMAP` carry exactly `B` bytes (R141). -/
theorem EncUnit.checkedTake_deliveries {u u' : EncUnit} {b : Byte} {info : InfoWord} (h : u.Inv)
    (hu : u.checkedTake b info = .ok u') :
    ∃ ds, u'.out = u.out ++ ds ∧ ∀ d ∈ ds, d.length = u.build.stageBytes := by
  unfold EncUnit.checkedTake at hu
  split at hu
  · cases hu; exact ⟨[], by simp, by simp⟩
  · rename_i hcfg
    obtain ⟨es, hes⟩ := h.configured (by simpa using hcfg)
    split at hu
    · cases hu; exact ⟨[], by simp, by simp⟩
    · rename_i hrange
      obtain ⟨v, _, _, hv, hfollows⟩ :=
        EncUnit.take_follows hes h.memories (BitVec.not_lt.mp hrange)
      obtain rfl := Except.ok.inj (hv.symm.trans hu)
      exact hfollows.emits.out

theorem EncUnit.out_init (u : EncUnit) (m : Byte) : (u.init m).out = u.out := by
  obtain ⟨-, e⟩ | ⟨-, e⟩ := u.init_cases m <;> rw [e]
  · exact u.out_started m
  · rfl

/-- Every delivery of `ENC.FINAL` carries 1 to `B` bytes (R67, R147). -/
theorem EncUnit.final_deliveries {u u' : EncUnit} (h : u.Inv) (hu : u.final = .ok u') :
    ∃ ds, u'.out = u.out ++ ds ∧ ∀ d ∈ ds, 1 ≤ d.length ∧ d.length ≤ u.build.stageBytes := by
  cases hcfg : u.cfg with
  | false =>
    rw [EncUnit.final_of_unconfigured hcfg] at hu
    cases hu
    exact ⟨[], by simp, by simp⟩
  | true =>
    obtain ⟨es, hes⟩ := h.configured hcfg
    obtain ⟨x, z, hz, hfinal⟩ := EncUnit.final_finishes hes h.memories hcfg
    obtain rfl := Except.ok.inj (hfinal.symm.trans hu)
    obtain ⟨ds, last, hout, hlen, hlast⟩ := hz.emits.last_delivery hes.final_bits_ne_nil hz.flushes
    refine ⟨ds ++ [last], ?_, fun d hd => ?_⟩
    · rw [EncUnit.out_respond, EncUnit.out_epochReset, hout, List.append_assoc]
    · obtain hd | hd := List.mem_append.mp hd
      · rw [hlen d hd]
        exact ⟨stageBytes_pos h.build, le_rfl⟩
      · rw [List.mem_singleton.mp hd]
        exact hlast

/-- Settles O27: command by command; a full buffer carries at least one byte. -/
theorem encoderDeliversFullBuffers : Obligations.EncoderDeliversFullBuffers := by
  intro s t i h hi hexec
  have hpos := stageBytes_pos h.build
  have full {u : EncUnit} (hu : ∃ ds, u.out = s.enc.out ++ ds ∧
      ∀ d ∈ ds, d.length = s.enc.build.stageBytes) : ∃ ds, u.out = s.enc.out ++ ds ∧
        (i ≠ .encFinal → ∀ d ∈ ds, d.length = s.enc.build.stageBytes) ∧
        ∀ d ∈ ds, 1 ≤ d.length ∧ d.length ≤ s.enc.build.stageBytes :=
    hu.imp fun ds ⟨hout, hlen⟩ =>
      ⟨hout, fun _ => hlen, fun d hd => by rw [hlen d hd]; exact ⟨hpos, le_rfl⟩⟩
  rw [exec_enc hi] at hexec
  obtain ⟨u, hu, rfl⟩ := State.onEnc_eq_next.mp hexec
  cases i with
  | encInit m => cases hu; exact full ⟨[], by simp [EncUnit.out_init], by simp⟩
  | encByte b => exact full (EncUnit.checkedTake_deliveries h hu)
  | encByteRemap d => exact full (EncUnit.checkedTake_deliveries h hu)
  | encFinal =>
    obtain ⟨ds, hout, hlen⟩ := EncUnit.final_deliveries h hu
    exact ⟨ds, hout, fun hne => absurd rfl hne, hlen⟩
  | decInit m => cases hi
  | decByte x => cases hi

/-! ### The stream -/

/-- From a configured encoder between two commands, the rest of an input and then `ENC.FINAL` deliver what waits in the
bit packer and the codes of the abstract encoder from there on, up to whole bytes (R145, R147). -/
theorem execAll_bytes_final {input : List Byte} {s : State} {es : Entries} (h : EncHolds s.enc es)
    (hm : s.enc.memoriesWf = true) (hcfg : s.enc.cfg = true) (hin : ∀ b ∈ input, b ≤ s.enc.maxb) :
    ∃ t ds pad, execAll (input.map .encByte ++ [.encFinal]) s = .next t ∧ pad ≤ 7 ∧
      t.enc.out = s.enc.out ++ ds ∧
      streamBits t.enc.out.flatten = s.enc.emittedBits ++
        codesBits ((s.enc.abs es).codesFrom s.enc.build.cap s.enc.maxb input) ++
        List.replicate pad false ∧
      t.enc.resp = s.enc.resp ++ List.replicate (input.length + 1) (success sOk) := by
  induction input generalizing s es with
  | nil =>
    obtain ⟨x, z, hz, hfinal⟩ := EncUnit.final_finishes h hm hcfg
    obtain ⟨ds, last, hout, -⟩ := hz.emits.last_delivery h.final_bits_ne_nil hz.flushes
    obtain ⟨pad, hpad, hstream⟩ := hz.stream
    have hresp : z.resp = s.enc.resp := by
      have hframe := hz.frame
      rw [FinalFrame] at hframe
      rw [hframe]
    refine ⟨s.withEnc (z.epochReset.respond (success sOk)), ds ++ [last], pad,
      execAll_cons_eq_next.mpr ⟨_, State.onEnc_eq_next.mpr ⟨_, hfinal, rfl⟩, rfl⟩, hpad, ?_, ?_, ?_⟩
    · rw [State.enc_withEnc, EncUnit.out_respond, EncUnit.out_epochReset, hout, List.append_assoc]
    · rw [State.enc_withEnc, EncUnit.out_respond, EncUnit.out_epochReset, hstream]
      rfl
    · rw [State.enc_withEnc, EncUnit.resp_respond, EncUnit.resp_epochReset, hresp]
      rfl
  | cons b bs ih =>
    obtain ⟨hb, hbs⟩ := List.forall_mem_cons.mp hin
    obtain ⟨u, es', codes, hu, hfollows⟩ := EncUnit.take_follows h hm hb
    obtain ⟨hum, ⟨hbuild, hucfg, hmaxb⟩, -⟩ := EncUnit.take_holds h hm hb hu
    have hexec : exec (.encByte b) s = .next (s.withEnc u) := by
      rw [State.takes.exec_eq (.inl rfl) hcfg hb, hu]
      rfl
    obtain ⟨t, ds, pad, ht, hpad, hout, hstream, hresp⟩ := ih (s := s.withEnc u) hfollows.holds hum
      (hucfg.trans hcfg) (by rw [State.enc_withEnc, hmaxb]; exact hbs)
    rw [State.enc_withEnc] at hout hstream hresp
    obtain ⟨ds', hds', -⟩ := hfollows.emits.out
    refine ⟨t, ds' ++ ds, pad, execAll_cons_eq_next.mpr ⟨_, hexec, ht⟩, hpad, ?_, ?_, ?_⟩
    · rw [hout, hds', List.append_assoc]
    · rw [hstream, hfollows.emits.stream, hbuild, hmaxb, AbsEnc.codesFrom, hfollows.abs,
        codesBits_append, List.append_assoc s.enc.emittedBits]
    · rw [hresp, EncUnit.take_resp hu, List.append_assoc, List.singleton_append,
        ← List.replicate_succ, List.length_cons]

/-- Settles O43: INIT starts the stream with an empty cursor, and what is then delivered is the codes and fewer than eight zero
bits. -/
theorem encoderStreamIsItsCodesPacked : Obligations.EncoderStreamIsItsCodesPacked := by
  intro s m input hinv hfits hin
  have hholds := (EncUnit.started_holds hinv.build hfits).respond (success sOk)
  have hm := EncUnit.Inv.memories ((EncUnit.started_inv hinv hfits).respond (success sOk))
  obtain ⟨t, ds, pad, ht, hpad, hout, hstream, hresp⟩ := execAll_bytes_final (input := input)
    (s := s.withEnc ((s.enc.started m).respond (success sOk))) hholds hm rfl (by simpa using hin)
  have hempty : ((s.enc.started m).respond (success sOk)).emittedBits =
      streamBits s.enc.out.flatten := by
    rw [EncUnit.emittedBits_of_empty (by simp) (by simp), EncUnit.out_respond, EncUnit.out_started]
  have habs : ((s.enc.started m).respond (success sOk)).abs [] = AbsEnc.start m :=
    EncUnit.epochReset_abs _
  simp only [State.enc_withEnc, EncUnit.out_respond, EncUnit.out_started] at hout
  rw [State.enc_withEnc, hout, hempty, habs, List.flatten_append, streamBits_append,
    List.append_assoc, List.append_cancel_left_eq, EncUnit.build_respond, EncUnit.build_started,
    EncUnit.maxb_respond, EncUnit.maxb_started] at hstream
  refine ⟨t, ds, execAll_cons_eq_next.mpr ⟨_, exec_encInit_of_fits hfits, ht⟩, hout,
    eq_packBits hpad hstream, ?_⟩
  simpa [List.replicate_succ, success, sOk] using hresp

end Sys2Proof.Machine
end

section
/-! PROOF. `DEC.INIT` that fits (42_decoder.md R181), and the string of a code in the scratch buffer (R173, R174). -/

namespace Sys2Proof.Machine

/-- An INIT that fits starts a stream and answers `S_OK` (R181). -/
theorem exec_decInit_of_fits {s : State} {m : Byte} (h : m.toNat + 3 ≤ s.dec.build.cap) :
    exec (.decInit m) s = .next (s.withDec ((s.dec.started m).respond (success sOk))) := by
  obtain ⟨-, e⟩ | ⟨hnot, -⟩ := s.dec.init_cases m
  · rw [← e]
    rfl
  · exact absurd h (Nat.not_le_of_lt hnot)

/-- Settles O14: the registers of a unit that has started a stream, read off. -/
theorem decInitStartsANewStream : Obligations.DecInitStartsANewStream :=
  fun _ _ h => exec_decInit_of_fits h

/-- A string has at most one byte more than its code lies above the literals (R174). -/
theorem DecUnit.length_str_le {d : DecUnit} (hp : PrefixesOk d) (c : Nat) : c < d.count →
    c ≠ eosCode d.maxb → (d.str c).length ≤ c - literalCount d.maxb + 1 := by
  induction c using Nat.strong_induction_on with
  | _ c ih =>
    intro hc heos
    by_cases hlit : c < literalCount d.maxb
    · rw [DecUnit.str_literal hlit, List.length_singleton]
      exact Nat.le_add_left _ _
    · have hlit := Nat.le_of_not_lt hlit
      have hcreated := emptyCount_le hlit heos
      have hlow := hp.lower c hcreated hc
      have ih := ih _ hlow (hlow.trans hc) (hp.notEos c hcreated hc)
      have habove : literalCount d.maxb < c := hcreated
      rw [DecUnit.str_created hp hlit hc heos, List.length_append, List.length_singleton]
      omega

/-- No string is longer than the scratch buffer (R174). -/
theorem DecMid.length_str_le {d : DecUnit} (h : DecMid d) {c : Nat}
    (hc : c < d.count ∧ c ≠ eosCode d.maxb) :
    (d.str c).length ≤ d.build.cap - literalCount d.maxb := by
  have hstr := DecUnit.length_str_le h.prefixes c hc.1 hc.2
  have hlit : literalCount d.maxb + 2 ≤ d.build.cap := h.fits
  have hcap := hc.1.trans_le h.countLe
  omega

/-- `String(c)` answers the string of its code and changes nothing but the scratch buffer (R173). -/
theorem DecMid.string_eq {d : DecUnit} (h : DecMid d) {c : Nat}
    (hc : c < d.count ∧ c ≠ eosCode d.maxb) :
    ∃ e, d.string c = .ok (d.str c, e) ∧ ScratchFrame d e ∧ DecMid e := by
  obtain ⟨⟨s, e⟩, hs⟩ := DecUnit.string_answers h hc
  have hframe := DecUnit.string_frame hs
  obtain ⟨rfl, hscratch⟩ := DecUnit.string_str h.prefixes
    (DecUnit.memoriesWf_iff.mp h.memories).2.2 hc.1 hc.2 hs
  exact ⟨e, hs, hframe, h.scratch hframe hscratch⟩

/-- Settles O28: a prefix is lower than its code, so a string grows by at most one byte a code. -/
theorem stringIsRebuiltWithinTheScratchBuffer :
    Obligations.StringIsRebuiltWithinTheScratchBuffer := by
  intro d c h hm hc heos
  have hmid := h.mid hm
  obtain ⟨e, hs, hframe, he⟩ := hmid.string_eq ⟨hc, heos⟩
  refine ⟨fun hlit => DecUnit.str_literal (Nat.lt_succ_of_le hlit), fun hlit => ?_,
    hmid.length_str_le ⟨hc, heos⟩, e, hs, hframe, he.memories⟩
  exact ⟨h.prefixLower c (emptyCount_le hlit heos) hc,
    DecUnit.str_created hmid.prefixes hlit hc heos,
    DecUnit.length_str_le hmid.prefixes c hc heos⟩

end Sys2Proof.Machine
end

section
/-! PROOF. One code (42_decoder.md R177, R178, R180): the entry it appends, the string it delivers, and the step at its end. -/

namespace Sys2Proof.Machine

/-! ### The end of a code -/

/-- Count, `prevv` and width after the step of R180, from a count and a width: reset when full, kept one code short of that,
otherwise grown at the threshold. -/
def afterCode (cap : Nat) (m : Byte) (n w : Nat) : Nat × Bool × Nat :=
  if n = cap then (m.toNat + 2, false, clog2 (m.toNat + 2))
  else if n = cap - 1 then (n, true, w)
  else if 2 ^ w - 1 ≤ n then (n, true, w + 1)
  else (n, true, w)

theorem afterCode_cases (cap : Nat) (m : Byte) (n w : Nat) :
    afterCode cap m n w = (m.toNat + 2, false, clog2 (m.toNat + 2)) ∨
    afterCode cap m n w = (n, true, w) ∨ afterCode cap m n w = (n, true, w + 1) := by
  unfold afterCode
  split
  · exact .inl rfl
  · split
    · exact .inr (.inl rfl)
    · split
      · exact .inr (.inr rfl)
      · exact .inr (.inl rfl)

/-- What the step of R180 comes to after a code, with the threshold at `2^w - 1` (R35). -/
theorem DecUnit.afterStep_eq {d : DecUnit} (ht : d.t = 2 ^ d.w - 1) (hv : d.prevv = true) :
    (d.afterStep.count, d.afterStep.prevv, d.afterStep.w) =
        afterCode d.build.cap d.maxb d.count d.w ∧
      d.afterStep = { d with
        count := d.afterStep.count, prevv := d.afterStep.prevv, w := d.afterStep.w
        t := 2 ^ d.afterStep.w - 1 } := by
  unfold afterCode
  obtain ⟨hfull, e⟩ | ⟨hroom, hlast, e⟩ | ⟨hroom, hlast, hgrow, e⟩ | ⟨hroom, hlast, hkeep, e⟩ :=
    d.afterStep_cases <;> rw [e]
  · rw [if_pos hfull]
    exact ⟨rfl, rfl⟩
  · rw [if_neg hroom, if_pos hlast, hv, ← ht, ← hv]
    exact ⟨rfl, rfl⟩
  · rw [if_neg hroom, if_neg hlast, if_pos (ht ▸ hgrow), ← hv]
    exact ⟨rfl, rfl⟩
  · rw [if_neg hroom, if_neg hlast, if_neg (Nat.not_le_of_lt (ht ▸ hkeep)), hv, ← ht, ← hv]
    exact ⟨rfl, rfl⟩

/-- What delivering a string and making its code the previous one comes to (R177, R178). -/
theorem DecUnit.output_eq {d : DecUnit} (ht : d.t = 2 ^ d.w - 1) (c : Nat) (s : List Byte) :
    ((d.output c s).count, (d.output c s).prevv, (d.output c s).w) =
        afterCode d.build.cap d.maxb d.count d.w ∧
      d.output c s = { d with
        count := (d.output c s).count, prevv := (d.output c s).prevv, w := (d.output c s).w
        t := 2 ^ (d.output c s).w - 1, prev := c, pfirst := firstByte s, out := d.out ++ [s] } :=
  DecUnit.afterStep_eq (d := { d.deliver s with prev := c, prevv := true, pfirst := firstByte s })
    ht rfl

/-! ### The entry -/

/-- The unit `v` is `d` with the entry (previous code, `y`) appended if `new`, and its scratch buffer written. -/
structure Extended (d v : DecUnit) (new : Bool) (y : Byte) : Prop where
  mid : DecMid v
  frame : v = { d with count := v.count, pfx := v.pfx, bytev := v.bytev, scratch := v.scratch }
  count : v.count = if new = true then d.count + 1 else d.count
  pfx : ∀ a, Memory.read unlistedCode v.pfx a =
    if new = true ∧ a = d.count then d.prev else Memory.read unlistedCode d.pfx a
  bytev : ∀ a, Memory.read unlistedByte v.bytev a =
    if new = true ∧ a = d.count then y else Memory.read unlistedByte d.bytev a

theorem Extended.of_scratch {d v : DecUnit} (hv : DecMid v) (hframe : ScratchFrame d v) (y : Byte) :
    Extended d v false y := by
  rw [ScratchFrame] at hframe
  refine ⟨hv, ?_, ?_, fun a => ?_, fun a => ?_⟩ <;> rw [hframe] <;> rfl

theorem DecMid.append_extended {d v : DecUnit} {y : Byte} (h : DecMid d)
    (hp : d.prev < d.count ∧ d.prev ≠ eosCode d.maxb) (ha : d.append d.prev y = .ok v) :
    Extended d v true y := by
  obtain ⟨hv, hcount, -⟩ := h.append hp ha
  obtain ⟨hpfx, hbytev, -⟩ := DecUnit.memoriesWf_iff.mp h.memories
  obtain ⟨-, rfl⟩ := DecUnit.append_eq_ok.mp ha
  exact ⟨hv, rfl, hcount, fun a => by simp [Memory.read_write _ _ _ _ _ hpfx],
    fun a => by simp [Memory.read_write _ _ _ _ _ hbytev]⟩

theorem Extended.scratch_left {d x v : DecUnit} {new : Bool} {y : Byte} (hframe : ScratchFrame d x)
    (h : Extended x v new y) : Extended d v new y := by
  obtain ⟨hv, hvx, hcount, hpfx, hbytev⟩ := h
  rw [ScratchFrame] at hframe
  rw [hframe] at hvx hcount hpfx hbytev
  exact ⟨hv, hvx, hcount, hpfx, hbytev⟩

theorem Extended.scratch_right {d x v : DecUnit} {new : Bool} {y : Byte} (h : Extended d x new y)
    (hframe : ScratchFrame x v) (hv : DecMid v) : Extended d v new y := by
  obtain ⟨-, hxd, hcount, hpfx, hbytev⟩ := h
  rw [ScratchFrame] at hframe
  have hvcount : v.count = x.count := by rw [hframe]
  have hvpfx : v.pfx = x.pfx := by rw [hframe]
  have hvbytev : v.bytev = x.bytev := by rw [hframe]
  refine ⟨hv, ?_, hvcount ▸ hcount, hvpfx ▸ hpfx, hvbytev ▸ hbytev⟩
  rw [hframe, hxd]

/-! ### A code that is decoded -/

/-- The unit `e` is `d` after the code `c` with the string `s`, where the entry (previous code, `y`) was appended if `new` (R177,
R178, R180). -/
structure Delivered (d e : DecUnit) (c : Nat) (s : List Byte) (new : Bool) (y : Byte) : Prop where
  holds : DecHolds e
  memories : e.memoriesWf = true
  step : (e.count, e.prevv, e.w) =
    afterCode d.build.cap d.maxb (if new = true then d.count + 1 else d.count) d.w
  frame : e = { d with
    count := e.count, prevv := e.prevv, w := e.w, t := 2 ^ e.w - 1
    prev := c, pfirst := firstByte s, pfx := e.pfx, bytev := e.bytev, scratch := e.scratch
    out := d.out ++ [s] }
  pfx : ∀ a, Memory.read unlistedCode e.pfx a =
    if new = true ∧ a = d.count then d.prev else Memory.read unlistedCode d.pfx a
  bytev : ∀ a, Memory.read unlistedByte e.bytev a =
    if new = true ∧ a = d.count then y else Memory.read unlistedByte d.bytev a

theorem Extended.output {d v : DecUnit} {new : Bool} {y : Byte} {c : Nat}
    (h : Extended d v new y) (hc : c < v.count ∧ c ≠ eosCode v.maxb) :
    Delivered d (v.output c (v.str c)) c (v.str c) new y := by
  obtain ⟨hholds, hm, -⟩ := h.mid.output hc
  obtain ⟨hstep, hframe⟩ := DecUnit.output_eq h.mid.threshold c (v.str c)
  have hvd := h.frame
  have hbuild : v.build = d.build := by rw [hvd]
  have hmaxb : v.maxb = d.maxb := by rw [hvd]
  have hw : v.w = d.w := by rw [hvd]
  have hpfx : (v.output c (v.str c)).pfx = v.pfx := by rw [hframe]
  have hbytev : (v.output c (v.str c)).bytev = v.bytev := by rw [hframe]
  refine ⟨hholds, hm, ?_, ?_, hpfx ▸ h.pfx, hbytev ▸ h.bytev⟩
  · rw [hstep, hbuild, hmaxb, hw, h.count]
  · generalize v.output c (v.str c) = e at hframe ⊢
    generalize v.str c = s at hframe ⊢
    rw [hvd] at hframe
    rw [hframe]

/-- The entry that an existing code appends, from the dictionary whose scratch buffer holds the code's string (R177). -/
theorem DecHolds.appendPrev_extended {d x : DecUnit} (h : DecHolds d) (hx : DecMid x)
    (hframe : ScratchFrame d x) (y : Byte) : ∃ v, x.appendPrev y = .ok v ∧
      Extended d v d.prevv y ∧ ∀ c < d.count, c ≠ eosCode d.maxb → v.str c = d.str c := by
  have hfields := hframe
  rw [ScratchFrame] at hfields
  have hstr : ∀ c, x.str c = d.str c := fun c => by rw [hfields]; rfl
  cases hv : d.prevv with
  | false =>
    exact ⟨x, DecUnit.appendPrev_eq_ok.mpr (.inr ⟨by rw [hfields]; exact hv, rfl⟩),
      .of_scratch hx hframe y, fun c _ _ => hstr c⟩
  | true =>
    obtain ⟨hlt, hne, -⟩ := h.prev hv
    have hroom : x.count < x.build.cap := by rw [hfields]; exact h.room
    have hprev : x.prev < x.count ∧ x.prev ≠ eosCode x.maxb := by rw [hfields]; exact ⟨hlt, hne⟩
    have hxv : x.prevv = true := by rw [hfields]; exact hv
    obtain ⟨v, ha⟩ := DecUnit.append_answers hx.countMin hroom x.prev y
    obtain ⟨-, -, hstrs⟩ := hx.append hprev ha
    refine ⟨v, DecUnit.appendPrev_eq_ok.mpr (.inl ⟨hxv, ha⟩),
      (hx.append_extended hprev ha).scratch_left hframe, fun c hc heos => ?_⟩
    rw [← hstr]
    exact hstrs c (by rw [hfields]; exact hc) (by rw [hfields]; exact heos)

/-- An existing code is delivered (R177). -/
theorem DecHolds.existing_delivered {d : DecUnit} {c : Nat} (h : DecHolds d)
    (hm : d.memoriesWf = true) (hc : c < d.count ∧ c ≠ eosCode d.maxb) :
    ∃ e, d.decodeIndex c = .ok e ∧
      Delivered d e c (d.str c) d.prevv (firstByte (d.str c)) := by
  obtain ⟨x, hs, hframe, hx⟩ := (h.mid hm).string_eq hc
  obtain ⟨v, ha, hv, hstr⟩ := h.appendPrev_extended hx hframe (firstByte (d.str c))
  have hcv : c < v.count ∧ c ≠ eosCode v.maxb := by
    have hmaxb : v.maxb = d.maxb := by rw [hv.frame]
    rw [hv.count, hmaxb]
    refine ⟨?_, hc.2⟩
    split
    · exact Nat.lt_succ_of_lt hc.1
    · exact hc.1
  have hdeliv := hv.output hcv
  rw [hstr c hc.1 hc.2] at hdeliv
  refine ⟨_, ?_, hdeliv⟩
  rw [DecUnit.decodeIndex, if_neg hc.2, if_pos hc.1]
  exact bind_eq_ok.mpr ⟨_, hs, bind_eq_ok.mpr ⟨v, ha, rfl⟩⟩

/-- No string is empty (R173). -/
theorem DecUnit.str_ne_nil {d : DecUnit} (hp : PrefixesOk d) {c : Nat} (hc : c < d.count)
    (heos : c ≠ eosCode d.maxb) : d.str c ≠ [] := by
  by_cases hlit : c < literalCount d.maxb
  · simp [DecUnit.str_literal hlit]
  · simp [DecUnit.str_created hp (Nat.le_of_not_lt hlit) hc heos]

/-- A string begins like any extension of it (R178). -/
theorem firstByte_append {s t : List Byte} (h : s ≠ []) : firstByte (s ++ t) = firstByte s := by
  obtain ⟨x, xs, rfl⟩ := List.exists_cons_of_ne_nil h
  rfl

/-- `EOS` is below every count (R8, R46). -/
theorem DecHolds.eos_lt_count {d : DecUnit} (h : DecHolds d) : eosCode d.maxb < d.count :=
  h.countMin

/-- The self-referential code is delivered: the previous code's string with its first byte after it (R178). -/
theorem DecHolds.selfRef_delivered {d : DecUnit} (h : DecHolds d) (hm : d.memoriesWf = true)
    (hprevv : d.prevv = true) : ∃ e, d.decodeIndex d.count = .ok e ∧
      Delivered d e d.count (d.str d.prev ++ [d.pfirst]) true d.pfirst := by
  obtain ⟨hlt, hne, -⟩ := h.prev hprevv
  have heos := h.eos_lt_count.ne'
  obtain ⟨x, hx⟩ := DecUnit.append_answers h.countMin h.room d.prev d.pfirst
  have hext := (h.mid hm).append_extended ⟨hlt, hne⟩ hx
  obtain ⟨-, -, hstrs⟩ := (h.mid hm).append ⟨hlt, hne⟩ hx
  have hcount : x.count = d.count + 1 := hext.count
  have hmaxb : x.maxb = d.maxb := by rw [hext.frame]
  have hcx : d.count < x.count ∧ d.count ≠ eosCode x.maxb :=
    ⟨hcount ▸ d.count.lt_succ_self, hmaxb ▸ heos⟩
  have hstr : x.str d.count = d.str d.prev ++ [d.pfirst] := by
    rw [DecUnit.str_created hext.mid.prefixes (hmaxb ▸ h.eos_lt_count.le) hcx.1 hcx.2, hext.pfx,
      hext.bytev, if_pos ⟨rfl, rfl⟩, if_pos ⟨rfl, rfl⟩, hstrs _ hlt hne]
  obtain ⟨v, hs, hframe, hv⟩ := hext.mid.string_eq hcx
  have hfields := hframe
  rw [ScratchFrame] at hfields
  have hdeliv := (hext.scratch_right hframe hv).output (c := d.count) (by rw [hfields]; exact hcx)
  have hvstr : v.str d.count = x.str d.count := by rw [hfields]; rfl
  rw [hvstr, hstr] at hdeliv
  refine ⟨_, ?_, hdeliv⟩
  rw [DecUnit.decodeIndex, if_neg heos, if_neg (Nat.lt_irrefl _), if_pos ⟨rfl, hprevv⟩]
  exact bind_eq_ok.mpr ⟨x, hx, bind_eq_ok.mpr ⟨_, hs, by rw [hstr]; rfl⟩⟩

/-- Settles O29: the string is rebuilt, then the previous code's entry is appended. -/
theorem existingCodeDeliversItsString : Obligations.ExistingCodeDeliversItsString := by
  intro d c h hm hc heos
  obtain ⟨e, he, hdeliv⟩ := h.existing_delivered hm ⟨hc, heos⟩
  exact ⟨e, he, hdeliv.holds, hdeliv.memories, hdeliv.step, hdeliv.frame, hdeliv.pfx, hdeliv.bytev⟩

/-- Settles O30: the entry is appended, then the string of its code is rebuilt, whose first byte is that of its prefix. -/
theorem selfReferenceDeliversThePreviousStringExtended :
    Obligations.SelfReferenceDeliversThePreviousStringExtended := by
  intro d h hm hprevv
  obtain ⟨hlt, hne, hfirst⟩ := h.prev hprevv
  obtain ⟨e, he, hdeliv⟩ := h.selfRef_delivered hm hprevv
  have hframe := hdeliv.frame
  rw [firstByte_append (DecUnit.str_ne_nil (h.mid hm).prefixes hlt hne), ← hfirst] at hframe
  exact ⟨e, he, hdeliv.holds, hdeliv.memories, hdeliv.step, hframe,
    fun a => by simpa using hdeliv.pfx a, fun a => by simpa using hdeliv.bytev a⟩

/-- A code that is decoded keeps the width, grows it by one, or starts an epoch at `W0`, and comes to at most `WMAX` (R188,
R189). -/
theorem Delivered.width {d e : DecUnit} {c : Nat} {s : List Byte} {new : Bool} {y : Byte}
    (h : Delivered d e c s new y) : (e.w = d.w ∨ e.w = d.w + 1 ∨
      (e.w = clog2 (d.maxb.toNat + 2) ∧ e.count = d.maxb.toNat + 2 ∧ e.prevv = false)) ∧
      e.w ≤ clog2 d.build.cap := by
  have hbuild : e.build = d.build := by rw [h.frame]
  refine ⟨?_, hbuild ▸ h.holds.widthMax⟩
  obtain hstep | hstep | hstep := afterCode_cases d.build.cap d.maxb
    (if new = true then d.count + 1 else d.count) d.w <;>
    simp only [← h.step, Prod.mk.injEq] at hstep <;> obtain ⟨hcount, hprevv, hw⟩ := hstep
  · exact .inr (.inr ⟨hw, hcount, hprevv⟩)
  · exact .inl hw
  · exact .inr (.inl hw)

/-- Everything a code can do: end the stream, latch an error, or deliver a string of 1 to `C - L` bytes (R176, R67, R174). -/
theorem DecHolds.decodeIndex_eq_ok {d e : DecUnit} {c : Nat} (h : DecHolds d)
    (hm : d.memoriesWf = true) (he : d.decodeIndex c = .ok e) :
    e = d.eos ∨ e = d.malformed c ∨ ∃ s new y, Delivered d e c s new y ∧
      1 ≤ s.length ∧ s.length ≤ d.build.cap - literalCount d.maxb := by
  have hmid := h.mid hm
  obtain ⟨-, e'⟩ | ⟨heos, hc, -⟩ | ⟨-, rfl, hprevv, -⟩ | ⟨-, -, -, e'⟩ := d.decodeIndex_cases c
  · exact .inl (Except.ok.inj (he.symm.trans e'))
  · obtain ⟨e', he', hdeliv⟩ := h.existing_delivered hm ⟨hc, heos⟩
    cases he'.symm.trans he
    exact .inr (.inr ⟨_, _, _, hdeliv,
      List.length_pos_iff.mpr (DecUnit.str_ne_nil hmid.prefixes hc heos),
      hmid.length_str_le ⟨hc, heos⟩⟩)
  · obtain ⟨hlt, hne, -⟩ := h.prev hprevv
    obtain ⟨e', he', hdeliv⟩ := h.selfRef_delivered hm hprevv
    cases he'.symm.trans he
    have hlen := DecUnit.length_str_le hmid.prefixes d.prev hlt hne
    have hlit : literalCount d.maxb + 2 ≤ d.build.cap := h.fits
    have hroom := h.room
    refine .inr (.inr ⟨_, _, _, hdeliv, ?_, ?_⟩) <;>
      rw [List.length_append, List.length_singleton]
    · exact Nat.le_add_left _ _
    · simp only [eosCode, literalCount] at hne hlen hlit ⊢
      omega
  · exact .inr (.inl (Except.ok.inj (he.symm.trans e')))

/-- Settles O31: only a code that is delivered touches the width. -/
theorem decoderWidthGrowsByOneWithinAnEpoch : Obligations.DecoderWidthGrowsByOneWithinAnEpoch := by
  intro d e c h hm he
  obtain rfl | rfl | ⟨s, new, y, hdeliv, -⟩ := h.decodeIndex_eq_ok hm he
  · exact ⟨.inl rfl, h.widthMax⟩
  · exact ⟨.inl rfl, h.widthMax⟩
  · exact hdeliv.width

end Sys2Proof.Machine
end

section
/-! PROOF. `DEC.BYTE` (42_decoder.md R182): the code loop as a relation, what it delivers, and how it ends. -/

namespace Sys2Proof.Machine

/-! ### The code loop -/

theorem DecUnit.codeLoop_of_idle {d : DecUnit} (h : d.codeReady = false) (k : Nat) :
    d.codeLoop k = .ok d := by
  cases k <;> simp [DecUnit.codeLoop, h]

/-- A loop that answers has taken codes until it could take no further one (R182). -/
theorem DecUnit.codeLoop_decodes {k : Nat} {d d' : DecUnit} (h : d.codeLoop k = .ok d') :
    DecUnit.Decodes d d' := by
  induction k generalizing d with
  | zero =>
    rw [DecUnit.codeLoop] at h
    split at h
    · cases h
    · rename_i hready
      cases h
      exact .stop (by simpa using hready)
  | succ k ih =>
    rw [DecUnit.codeLoop] at h
    split at h
    · rename_i hready
      obtain ⟨e, he, h⟩ := bind_eq_ok.mp h
      exact .code hready he (ih h)
    · rename_i hready
      cases h
      exact .stop (by simpa using hready)

/-- Where the loop ends is determined by where it starts. -/
theorem DecUnit.Decodes.unique {d e f : DecUnit} (h : DecUnit.Decodes d e)
    (h' : DecUnit.Decodes d f) : e = f := by
  induction h with
  | stop idle =>
    cases h' with
    | stop _ => rfl
    | code ready _ _ => exact absurd (ready.symm.trans idle) (by decide)
  | code ready one _ ih =>
    cases h' with
    | stop idle => exact absurd (ready.symm.trans idle) (by decide)
    | code _ one' rest' =>
      cases one.symm.trans one'
      exact ih rest'

theorem DecUnit.Reaches.decodes {d e f : DecUnit} (h : DecUnit.Reaches d e)
    (h' : DecUnit.Decodes e f) : DecUnit.Decodes d f := by
  induction h with
  | here _ => exact h'
  | code ready one _ ih => exact .code ready one (ih h')

/-- Taking a code keeps R46 (R182). -/
theorem DecBetween.code {d e : DecUnit} (h : DecBetween d) (ready : d.codeReady = true)
    (one : d.dropCode.decodeIndex d.nextCode = .ok e) : DecBetween e :=
  (h.dropCode (DecUnit.codeReady_iff.mp ready).2).decodeIndex one

theorem DecUnit.Reaches.between {d e : DecUnit} (hr : DecUnit.Reaches d e) (h : DecBetween d) :
    DecBetween e := by
  induction hr with
  | here _ => exact h
  | code ready one _ ih => exact ih (h.code ready one)

/-- What one code delivers: nothing, or one string of 1 to `C - L` bytes (R67). -/
theorem DecHolds.decodeIndex_deliveries {d e : DecUnit} {c : Nat} (h : DecHolds d)
    (hm : d.memoriesWf = true) (he : d.decodeIndex c = .ok e) : ∃ ds, e.out = d.out ++ ds ∧
      ∀ y ∈ ds, 1 ≤ y.length ∧ y.length ≤ d.build.cap - literalCount d.maxb := by
  obtain rfl | rfl | ⟨s, new, y, hdeliv, hlen⟩ := h.decodeIndex_eq_ok hm he
  · exact ⟨[], by simp, by simp⟩
  · exact ⟨[], by simp, by simp⟩
  · exact ⟨[s], by rw [hdeliv.frame], by simpa using hlen⟩

theorem DecUnit.Decodes.deliveries {d e : DecUnit} (hd : DecUnit.Decodes d e) (h : DecBetween d) :
    ∃ ds, e.out = d.out ++ ds ∧
      ∀ y ∈ ds, 1 ≤ y.length ∧ y.length ≤ d.build.cap - literalCount d.maxb := by
  induction hd with
  | stop _ => exact ⟨[], by simp, by simp⟩
  | @code d v f ready one _ ih =>
    have hdrop := h.dropCode (DecUnit.codeReady_iff.mp ready).2
    obtain ⟨hbuild, -, hmaxb, -⟩ := DecUnit.decodeIndex_code one
    obtain ⟨ds, hout, hlen⟩ := hdrop.holds.decodeIndex_deliveries hdrop.memories one
    obtain ⟨ds', hout', hlen'⟩ := ih (h.code ready one)
    rw [hbuild, hmaxb] at hlen'
    refine ⟨ds ++ ds', by rw [hout', hout, List.append_assoc]; rfl, fun y hy => ?_⟩
    exact (List.mem_append.mp hy).elim (hlen y) (hlen' y)

/-! ### `DEC.BYTE` on a running decoder -/

theorem exec_decByte_of_codeLoop {s : State} {x : Byte} {d : DecUnit} (hcfg : s.dec.cfg = true)
    (hrun : s.dec.st = .run) (h : (s.dec.pushByte x).codeLoop (s.dec.nacc + 8) = .ok d) :
    exec (.decByte x) s = .next (s.withDec (d.respond d.streamStatus)) := by
  refine State.onDec_eq_next.mpr ⟨_, ?_, rfl⟩
  simp only [DecUnit.byte, hcfg, hrun, h]
  rfl

/-- Settles O32: with too few bits for a code, the loop ends at once. -/
theorem byteCompletingNoCodeIsBuffered : Obligations.ByteCompletingNoCodeIsBuffered := by
  intro s x hcfg hrun hfew
  have hidle : (s.dec.pushByte x).codeReady = false := Bool.eq_false_iff.mpr fun hready =>
    Nat.not_le_of_lt hfew (DecUnit.codeReady_iff.mp hready).2
  have hstatus : (s.dec.pushByte x).streamStatus = success sMore := by
    rw [DecUnit.streamStatus, DecUnit.st_pushByte, hrun]
  rw [exec_decByte_of_codeLoop hcfg hrun (DecUnit.codeLoop_of_idle hidle _), hstatus]
  rfl

/-- The unit `d` is a running decoder after the codes of a byte, before its response (R182). -/
structure ByteDecoded (s : State) (x : Byte) (d : DecUnit) : Prop where
  decodes : DecUnit.Decodes (s.dec.pushByte x) d
  exec : exec (.decByte x) s = .next (s.withDec (d.respond d.streamStatus))
  inv : d.Inv
  frame : CodeFrame s.dec d

theorem byteDecoded {s : State} (h : s.dec.Inv) (hcfg : s.dec.cfg = true)
    (hrun : s.dec.st = .run) (x : Byte) : ∃ d, ByteDecoded s x d := by
  have hpush := (h.between hcfg).pushByte (h.running hcfg hrun) x
  obtain ⟨d, hd⟩ := DecUnit.codeLoop_answers (k := s.dec.nacc + 8) hpush le_rfl
  obtain ⟨hbetween, hidle⟩ := DecUnit.codeLoop_between hpush hd
  have hframe : CodeFrame s.dec d := (DecUnit.codeLoop_code _ hd :)
  exact ⟨d, DecUnit.codeLoop_decodes hd, exec_decByte_of_codeLoop hcfg hrun hd,
    hbetween.inv (hframe.1 ▸ h.build) hidle, hframe⟩

/-- Settles O33: the loop ends, its codes deliver what they rebuild, and the response is the status then. -/
theorem byteDecodesEveryCompleteCode : Obligations.ByteDecodesEveryCompleteCode := by
  intro s x h hcfg hrun
  obtain ⟨d, hd⟩ := byteDecoded h hcfg hrun x
  obtain ⟨hbuild, hdcfg, hmaxb, hresp⟩ := hd.frame
  obtain ⟨ds, hout, hlen⟩ :=
    hd.decodes.deliveries ((h.between hcfg).pushByte (h.running hcfg hrun) x)
  refine ⟨d, ds, hd.decodes, ?_, hd.inv, hout, hlen, hbuild, hdcfg, hmaxb⟩
  rw [hd.exec, ← hresp, State.withDec, DecUnit.respond, DecUnit.streamStatus]
  cases d.st <;> rfl

/-! ### A malformed code -/

/-- A code above the count, or equal to it with no previous code, is malformed (R179). -/
theorem DecUnit.decodeIndex_of_bad {d : DecUnit} {c : Nat} (hmin : eosCode d.maxb < d.count)
    (hbad : d.count < c ∨ (c = d.count ∧ d.prevv = false)) :
    d.decodeIndex c = .ok (d.malformed c) := by
  have hle : d.count ≤ c := hbad.elim Nat.le_of_lt fun h => h.1.ge
  have hprev : ¬(c = d.count ∧ d.prevv = true) := fun ⟨hc, hv⟩ =>
    hbad.elim (fun h => h.ne' hc) fun h => by simp [hv] at h
  rw [DecUnit.decodeIndex, if_neg (hmin.trans_le hle).ne', if_neg (Nat.not_lt.mpr hle),
    if_neg hprev]

/-- A byte that comes to a code that cannot be decoded ends with its error latched (R179, R182). -/
theorem ByteDecoded.malformed {s : State} {x : Byte} {d e : DecUnit} (hd : ByteDecoded s x e)
    (hreach : DecUnit.Reaches (s.dec.pushByte x) d) (ready : d.codeReady = true)
    (hbad : d.dropCode.decodeIndex d.nextCode = .ok (d.dropCode.malformed d.nextCode)) :
    e = d.dropCode.malformed d.nextCode :=
  hd.decodes.unique (hreach.decodes (.code ready hbad (.stop rfl)))

/-- A byte to a decoder in error is answered with the latched error and changes nothing (R218). -/
theorem exec_decByte_of_error {s : State} (hcfg : s.dec.cfg = true) (herr : s.dec.st = .error)
    (x : Byte) : exec (.decByte x) s = .next (s.withDec (s.dec.raise s.dec.err s.dec.info)) := by
  refine State.onDec_eq_next.mpr ⟨_, ?_, rfl⟩
  simp only [DecUnit.byte, hcfg, herr]
  rfl

theorem execAll_decByte_of_error {xs : List Byte} {s : State} (hcfg : s.dec.cfg = true)
    (herr : s.dec.st = .error) : execAll (xs.map .decByte) s = .next (s.withDec { s.dec with
      resp := s.dec.resp ++ List.replicate xs.length ⟨s.dec.err, s.dec.info⟩ }) := by
  induction xs generalizing s with
  | nil => simp [execAll, State.withDec]
  | cons x xs ih =>
    refine execAll_cons_eq_next.mpr ⟨_, exec_decByte_of_error hcfg herr x, ?_⟩
    rw [ih (by exact hcfg) (by exact herr)]
    simp [State.withDec, DecUnit.raise, DecUnit.respond, List.replicate_succ]

/-- Settles O35: such a code is not decoded, so the loop ends at it; and a latched error is repeated. -/
theorem decodeErrorIsReportedAndSticky : Obligations.DecodeErrorIsReportedAndSticky := by
  refine ⟨fun s x d c h hcfg hrun hreach hst hw hc hbad => ?_,
    fun s xs hcfg herr => execAll_decByte_of_error hcfg herr⟩
  subst hc
  have hpush := (h.between hcfg).pushByte (h.running hcfg hrun) x
  have hmin := (hreach.between hpush).holds.eos_lt_count
  have hcode := DecUnit.decodeIndex_of_bad (d := d.dropCode) (c := d.nextCode) hmin hbad
  obtain ⟨e, he⟩ := byteDecoded h hcfg hrun x
  have hresp := he.frame.2.2.2
  obtain rfl := he.malformed hreach (DecUnit.codeReady_iff.mpr ⟨hst, hw⟩) hcode
  rw [he.exec, ← hresp]
  rfl

end Sys2Proof.Machine
end

section
/-! PROOF. The bit unpacker (42_decoder.md R182, 30_encoding.md R64): the bits a decoder holds, and the code they begin with. -/

namespace Sys2Proof.Machine

/-! ### The bits of a code -/

/-- The bits of a number in two parts (R64). -/
theorem codeBits_add (v n k : Nat) : codeBits v (n + k) = codeBits v n ++ codeBits (v >>> n) k := by
  simp only [codeBits, List.range_add, List.map_append, List.map_map]
  congr 1
  exact List.map_congr_left fun i _ => (Nat.testBit_shiftRight ..).symm

theorem codeBits_congr {u v w : Nat} (h : ∀ i < w, u.testBit i = v.testBit i) :
    codeBits u w = codeBits v w :=
  List.map_congr_left fun i hi => h i (List.mem_range.mp hi)

/-- A code of `w` bits is determined by them (R87). -/
theorem mod_eq_of_codeBits_eq {u v w : Nat} (hv : v < 2 ^ w) (h : codeBits u w = codeBits v w) :
    u % 2 ^ w = v := by
  refine Nat.eq_of_testBit_eq fun i => ?_
  rw [Nat.testBit_mod_two_pow]
  by_cases hi : i < w
  · rw [decide_eq_true hi, Bool.true_and]
    exact List.map_inj_left.mp h i (List.mem_range.mpr hi)
  · rw [decide_eq_false hi, Bool.false_and]
    exact (Nat.testBit_lt_two_pow (hv.trans_le (Nat.pow_le_pow_right (by decide)
      (Nat.le_of_not_lt hi)))).symm

/-! ### The bits a decoder holds -/

/-- The valid bits of the accumulator, in stream order (R38). -/
def DecUnit.heldBits (d : DecUnit) : List Bool := codeBits d.acc d.nacc

/-- A byte of the stream goes after the bits held (R182). -/
theorem DecUnit.heldBits_pushByte {d : DecUnit} (h : AccOk d) (x : Byte) :
    (d.pushByte x).heldBits = d.heldBits ++ streamBits [x] := by
  have hlow : codeBits (d.acc ||| (x.toNat <<< d.nacc)) d.nacc = codeBits d.acc d.nacc :=
    codeBits_congr fun i hi => by simp [Nat.testBit_shiftLeft, Nat.not_le_of_lt hi]
  have hhigh : (d.acc ||| (x.toNat <<< d.nacc)) >>> d.nacc = x.toNat := by
    rw [Nat.shiftRight_or_distrib, Nat.shiftLeft_shiftRight, Nat.shiftRight_eq_div_pow,
      Nat.div_eq_of_lt h, Nat.zero_or]
  rw [DecUnit.heldBits, acc_pushByte, nacc_pushByte, codeBits_add, hlow, hhigh,
    streamBits_singleton]
  rfl

/-- A decoder that holds enough bits takes the code its stream begins with (R182). -/
theorem DecUnit.dropCode_heldBits {d : DecUnit} {c : Nat} {rest bits : List Bool}
    (hw : d.w ≤ d.nacc) (hc : c < 2 ^ d.w) (h : d.heldBits ++ rest = codeBits c d.w ++ bits) :
    d.nextCode = c ∧ d.dropCode.heldBits ++ rest = bits := by
  have hsplit : d.heldBits = codeBits d.acc d.w ++ d.dropCode.heldBits := by
    rw [DecUnit.heldBits, ← Nat.add_sub_of_le hw, codeBits_add]
    rfl
  rw [hsplit, List.append_assoc] at h
  obtain ⟨hcode, hbits⟩ := List.append_inj h (by simp)
  exact ⟨mod_eq_of_codeBits_eq hc hcode, hbits⟩

end Sys2Proof.Machine
end

section
/-! PROOF. A decoder that receives the codes of a stream (42_decoder.md R182, R187): what it answers to the stream's bytes. -/

namespace Sys2Proof.Machine

/-- The unit with other buffered bits and other responses: neither bears on what a code does. -/
def DecUnit.withCursor (d : DecUnit) (acc nacc : Nat) (resp : List Response) : DecUnit :=
  { d with acc := acc, nacc := nacc, resp := resp }

/-- The decoder, whatever bits it comes to hold, decodes the codes, each at the width current then, delivers the bytes, and comes
to `EOS` with the last code (R176, R182). -/
inductive DecUnit.Reads : DecUnit → List (Nat × Nat) → List Byte → Prop where
  | eos {d : DecUnit} (fits : eosCode d.maxb < 2 ^ d.w) : DecUnit.Reads d [(eosCode d.maxb, d.w)] []
  | code {d e : DecUnit} {c : Nat} {s : List Byte} {codes : List (Nat × Nat)} {bytes : List Byte}
      (fits : c < 2 ^ d.w) (one : d.decodeIndex c = .ok e) (held : e.heldBits = d.heldBits)
      (st : e.st = d.st) (out : e.out = d.out ++ [s])
      (rest : ∀ acc nacc resp, DecUnit.Reads (e.withCursor acc nacc resp) codes bytes) :
      DecUnit.Reads d ((c, d.w) :: codes) (s ++ bytes)

/-- The decoder reads the codes, whatever bits it holds. -/
def DecUnit.Awaits (d : DecUnit) (codes : List (Nat × Nat)) (bytes : List Byte) : Prop :=
  ∀ acc nacc resp, (d.withCursor acc nacc resp).Reads codes bytes

theorem DecUnit.Reads.width_le {d : DecUnit} {codes : List (Nat × Nat)} {bytes : List Byte}
    (h : d.Reads codes bytes) : d.w ≤ (codesBits codes).length := by
  cases h <;> simp

/-- The first code the decoder reads: it is `EOS` and the last one, or it delivers a string and others follow. -/
theorem DecUnit.Reads.first_code {d : DecUnit} {codes : List (Nat × Nat)} {bytes : List Byte}
    (h : d.Reads codes bytes) : ∃ c codes', codes = (c, d.w) :: codes' ∧ c < 2 ^ d.w ∧
      ((c = eosCode d.maxb ∧ codes' = [] ∧ bytes = []) ∨
        ∃ e s bytes', bytes = s ++ bytes' ∧ d.decodeIndex c = .ok e ∧ e.heldBits = d.heldBits ∧
          e.st = d.st ∧ e.out = d.out ++ [s] ∧ e.Awaits codes' bytes') := by
  cases h with
  | eos fits => exact ⟨_, _, rfl, fits, .inl ⟨rfl, rfl, rfl⟩⟩
  | code fits one held st out rest =>
    exact ⟨_, _, rfl, fits, .inr ⟨_, _, _, rfl, one, held, st, out, rest⟩⟩

/-- The unit is done with the codes: it has delivered the bytes, and of the stream no more than the padding is left. -/
structure Finished (d f : DecUnit) (bytes : List Byte) (rest pad : List Bool) : Prop where
  st : f.st = .done
  out : ∃ outs, f.out = d.out ++ outs ∧ outs.flatten = bytes
  rest : rest.length ≤ pad.length

/-- The unit has read some of the codes, and awaits the others. -/
structure Continues (d f : DecUnit) (bytes : List Byte) (rest pad : List Bool) : Prop where
  st : f.st = .run
  reads : ∃ outs codes' bytes', f.out = d.out ++ outs ∧ bytes = outs.flatten ++ bytes' ∧
    f.Awaits codes' bytes' ∧ f.heldBits ++ rest = codesBits codes' ++ pad

/-- The code loop reads the codes that the bits held begin with (R182). -/
theorem DecUnit.Decodes.reads {d f : DecUnit} (hd : DecUnit.Decodes d f)
    {codes : List (Nat × Nat)} {bytes : List Byte} {rest pad : List Bool}
    (h : d.Awaits codes bytes) (hst : d.st = .run)
    (hbits : d.heldBits ++ rest = codesBits codes ++ pad) :
    Finished d f bytes rest pad ∨ Continues d f bytes rest pad := by
  induction hd generalizing codes bytes with
  | @stop d _ => exact .inr ⟨hst, [], codes, bytes, by simp, by simp, h, hbits⟩
  | @code d e f ready one hrest ih =>
    obtain ⟨-, hw⟩ := DecUnit.codeReady_iff.mp ready
    have hreads : d.dropCode.Reads codes bytes := h _ _ _
    obtain ⟨c, codes', rfl, hfits, hcase⟩ := hreads.first_code
    rw [codesBits_cons, List.append_assoc] at hbits
    obtain ⟨hcode, hheld⟩ := DecUnit.dropCode_heldBits hw hfits hbits
    rw [hcode] at one
    obtain ⟨rfl, rfl, rfl⟩ | ⟨e', s, bytes', rfl, one', held, st, out, hawaits⟩ := hcase
    · rw [DecUnit.decodeIndex, if_pos rfl] at one
      cases one
      obtain rfl := hrest.unique (.stop rfl)
      refine .inl ⟨rfl, ⟨[], (List.append_nil _).symm, rfl⟩, ?_⟩
      rw [codesBits_nil, List.nil_append] at hheld
      rw [← hheld, List.length_append]
      exact Nat.le_add_left _ _
    · cases one'.symm.trans one
      have houts {outs} (hout : f.out = e.out ++ outs) : f.out = d.out ++ s :: outs := by
        rw [hout, out, List.append_assoc]
        rfl
      obtain hfin | hcont := ih hawaits (st.trans hst) (held ▸ hheld)
      · obtain ⟨outs, hout, hflat⟩ := hfin.out
        exact .inl ⟨hfin.st, ⟨s :: outs, houts hout, congrArg (s ++ ·) hflat⟩, hfin.rest⟩
      · obtain ⟨outs, codes', bytes', hout, rfl, hrest⟩ := hcont.reads
        exact .inr ⟨hcont.st, s :: outs, codes', bytes', houts hout,
          (List.append_assoc ..).symm, hrest⟩

/-- A running decoder that awaits the codes of a stream answers `S_MORE` to every byte of it before the last, `S_DONE` to the
last, and delivers what the codes stand for (R182, R187). -/
theorem execAll_decByte_reads {xs : List Byte} {s : State} {codes : List (Nat × Nat)}
    {bytes : List Byte} {pad : List Bool} (hinv : s.dec.Inv) (hcfg : s.dec.cfg = true)
    (hst : s.dec.st = .run) (h : s.dec.Awaits codes bytes) (hpad : pad.length ≤ 7)
    (hbits : s.dec.heldBits ++ streamBits xs = codesBits codes ++ pad) :
    xs ≠ [] ∧ ∃ v outs, execAll (xs.map .decByte) s = .next v ∧ v.dec.out = s.dec.out ++ outs ∧
      outs.flatten = bytes ∧ v.dec.resp = s.dec.resp ++
        (List.replicate (xs.length - 1) (success sMore) ++ [success sDone]) := by
  induction xs generalizing s codes bytes with
  | nil =>
    have hw : s.dec.w ≤ (codesBits codes).length := (h 0 0 []).width_le
    have hlen := congrArg List.length hbits
    simp only [DecUnit.heldBits, streamBits_nil, List.length_append, length_codeBits,
      List.length_nil] at hlen
    have := hinv.running hcfg hst
    omega
  | cons x xs ih =>
    obtain ⟨d, hd⟩ := byteDecoded hinv hcfg hst x
    obtain ⟨-, hdcfg, -, hresp⟩ := hd.frame
    have hacc : AccOk s.dec := (hinv.between hcfg).acc
    refine ⟨List.cons_ne_nil x xs, ?_⟩
    have hpush : (s.dec.pushByte x).heldBits ++ streamBits xs = codesBits codes ++ pad := by
      rw [DecUnit.heldBits_pushByte hacc, List.append_assoc, ← hbits]
      rfl
    obtain hfin | hcont := hd.decodes.reads (d := s.dec.pushByte x) h hst hpush
    · obtain ⟨outs, hout, hflat⟩ := hfin.out
      have hlast : xs = [] := by
        have := hfin.rest
        rw [length_streamBits] at this
        exact List.eq_nil_of_length_eq_zero (by omega)
      subst hlast
      refine ⟨_, outs, execAll_cons_eq_next.mpr ⟨_, hd.exec, rfl⟩, hout, hflat, ?_⟩
      rw [State.dec_withDec, DecUnit.resp_respond, hresp, DecUnit.streamStatus, hfin.st]
      rfl
    · obtain ⟨outs, codes', bytes', hout, hflat, hawaits, hheld⟩ := hcont.reads
      obtain ⟨hne, v, outs', hv, hvout, hvflat, hvresp⟩ :=
        ih (s := s.withDec (d.respond d.streamStatus)) (hd.inv.respond _) (hdcfg.trans hcfg)
          hcont.st hawaits hheld
      refine ⟨v, outs ++ outs', execAll_cons_eq_next.mpr ⟨_, hd.exec, hv⟩, ?_, ?_, ?_⟩
      · rw [hvout, State.dec_withDec, DecUnit.out_respond, hout, List.append_assoc]
        rfl
      · rw [hflat, List.flatten_append, hvflat]
      · obtain ⟨y, ys, rfl⟩ := List.exists_cons_of_ne_nil hne
        rw [hvresp, State.dec_withDec, DecUnit.resp_respond, hresp, DecUnit.streamStatus, hcont.st]
        simp [List.replicate_succ]

end Sys2Proof.Machine
end

section
/-! PROOF. The abstract encoder between two bytes (41_encoder.md R145): its match is the string of the input not yet encoded. -/

namespace Sys2Proof.Machine

/-- The input that the match stands for: its codes are not emitted yet (R145). -/
def AbsEnc.pending (m : Byte) (a : AbsEnc) : List Byte :=
  match a.idx with
  | none => []
  | some p => a.entries.str m p

/-- The abstract encoder between two bytes of input (R45): without a match it has no entries, and the match begins with the byte
that the newest entry ends with. -/
structure AbsEnc.Ok (cap : Nat) (m : Byte) (a : AbsEnc) : Prop where
  entries : EntriesOk m a.entries
  room : a.count m + 1 ≤ cap
  fits : a.count m ≤ 2 ^ a.w
  matched : ∀ p, a.idx = some p → CodeOf m a.entries p
  noMatch : a.idx = none → a.entries = []
  newest : ∀ p, a.idx = some p → ∀ es e, a.entries = es ++ [e] →
    firstByte (a.entries.str m p) = e.2

section
variable {cap : Nat} {m : Byte} {a : AbsEnc} {p : Nat} {b : Byte}

theorem AbsEnc.pending_of_noMatch (h : a.idx = none) : a.pending m = [] := by
  rw [AbsEnc.pending, h]

theorem AbsEnc.pending_of_match (h : a.idx = some p) : a.pending m = a.entries.str m p := by
  rw [AbsEnc.pending, h]

theorem AbsEnc.Ok.start (h : m.toNat + 3 ≤ cap) : (AbsEnc.start m).Ok cap m where
  entries := EntriesOk.nil m
  room := h
  fits := emptyCount_le_two_pow m
  matched _ h := by cases h
  noMatch _ := rfl
  newest _ h := by cases h

/-- A byte in range is the code of a literal, whose string it is (R111). -/
theorem codeOf_byte (es : Entries) (hb : b ≤ m) : CodeOf m es b.toNat := by
  have hle : b.toNat ≤ m.toNat := hb
  constructor <;> simp only [emptyCount, eosCode] <;> omega

theorem Entries.str_byte (es : Entries) (hb : b ≤ m) : es.str m b.toNat = [b] := by
  rw [Entries.str_literal (Nat.lt_succ_of_le hb), BitVec.ofNat_toNat, BitVec.setWidth_eq]

/-- A byte that makes the match longer: the match stands for it too (R145). -/
structure AbsEnc.Extends (cap : Nat) (m : Byte) (a a' : AbsEnc) (b : Byte) : Prop where
  byte : a.byte cap m b = (a', [])
  ok : a'.Ok cap m
  entries : a'.entries = a.entries
  w : a'.w = a.w
  pending : a'.pending m = a.pending m ++ [b]

theorem AbsEnc.Ok.extends_of_noMatch (h : a.Ok cap m) (hb : b ≤ m) (hidx : a.idx = none) :
    a.Extends cap m { a with idx := some b.toNat } b where
  byte := AbsEnc.byte_of_noMatch hidx
  ok := { h with
    matched := fun p hp => Option.some.inj hp ▸ codeOf_byte _ hb
    noMatch := nofun
    newest := fun p hp es e he => by simp [h.noMatch hidx] at he }
  entries := rfl
  w := rfl
  pending := by rw [AbsEnc.pending_of_noMatch hidx]; exact Entries.str_byte _ hb

theorem AbsEnc.Ok.extends_of_entry {c : Nat} (h : a.Ok cap m) (hidx : a.idx = some p)
    (hc : entryCode m a.entries p b = some c) :
    a.Extends cap m { a with idx := some c } b := by
  obtain ⟨k, hk, rfl, he⟩ := entryCode_eq_some hc
  have hstr := h.entries.str_created hk
  rw [he] at hstr
  refine ⟨AbsEnc.byte_of_entry hidx hc, { h with
    matched := fun c hc => ?_
    noMatch := nofun
    newest := fun c hc es e hes => ?_ }, rfl, rfl, ?_⟩
  · obtain rfl := Option.some.inj hc
    exact ⟨Nat.add_lt_add_left hk _, by simp only [emptyCount, eosCode]; omega⟩
  · obtain rfl := Option.some.inj hc
    rw [hstr, firstByte_append (h.entries.str_ne_nil (h.matched p hidx))]
    exact h.newest p hidx es e hes
  · rw [AbsEnc.pending_of_match hidx]
    exact hstr

/-- The state after a new entry that leaves the dictionary with room (R145). -/
def AbsEnc.grown (m : Byte) (a : AbsEnc) (p : Nat) (b : Byte) : AbsEnc :=
  ⟨a.entries ++ [(p, b)], some b.toNat, if 2 ^ a.w ≤ a.count m + 1 then a.w + 1 else a.w⟩

theorem AbsEnc.Ok.grown (h : a.Ok cap m) (hb : b ≤ m) (hidx : a.idx = some p)
    (hc : entryCode m a.entries p b = none) (hroom : a.count m + 1 ≠ cap) :
    (a.grown m p b).Ok cap m := by
  have hcount : (a.grown m p b).count m = a.count m + 1 := by
    rw [AbsEnc.count, AbsEnc.grown, List.length_append]
    rfl
  have hp := h.matched p hidx
  refine ⟨h.entries.append hp.1 hp.2 hb (entryCode_eq_none hc), ?_, ?_, fun q hq => ?_, nofun,
    fun q hq es e hes => ?_⟩
  · have := h.room
    omega
  · have hfits := h.fits
    have hpos := Nat.two_pow_pos a.w
    have hw : (a.grown m p b).w = if 2 ^ a.w ≤ a.count m + 1 then a.w + 1 else a.w := rfl
    rw [hcount, hw]
    split
    · rw [Nat.pow_succ]
      omega
    · omega
  · obtain rfl := Option.some.inj hq
    exact codeOf_byte _ hb
  · obtain rfl := Option.some.inj hq
    obtain ⟨-, he⟩ := List.append_inj' hes rfl
    rw [Entries.str_byte _ hb, ← List.singleton_inj.mp he]
    rfl

/-- Everything a byte in range can do: make the match longer, or end it with a new entry, which fills the dictionary or
not (R145). -/
theorem AbsEnc.Ok.byte_cases (h : a.Ok cap m) (hb : b ≤ m) :
    (∃ a', a.Extends cap m a' b) ∨
    ∃ p, a.idx = some p ∧
      ((a.count m + 1 = cap ∧
          a.byte cap m b = (AbsEnc.start m, [(p, a.w), (b.toNat, a.w)])) ∨
        (a.count m + 1 ≠ cap ∧ (a.grown m p b).Ok cap m ∧
          a.byte cap m b = (a.grown m p b, [(p, a.w)]))) := by
  cases hidx : a.idx with
  | none => exact .inl ⟨_, h.extends_of_noMatch hb hidx⟩
  | some p =>
    cases hc : entryCode m a.entries p b with
    | some c => exact .inl ⟨_, h.extends_of_entry hidx hc⟩
    | none =>
      refine .inr ⟨p, rfl, ?_⟩
      by_cases hfull : a.count m + 1 = cap
      · exact .inl ⟨hfull, AbsEnc.byte_of_new_full hidx hc hfull⟩
      · exact .inr ⟨hfull, h.grown hb hidx hc hfull, AbsEnc.byte_of_new_room hidx hc hfull⟩

end

end Sys2Proof.Machine
end

section
/-! PROOF. The decoder behind the abstract encoder (42_decoder.md R170, R177, R178, R180, R187): having received every code
emitted so far, it lacks the newest entry only. -/

namespace Sys2Proof.Machine

/-! ### The dictionary -/

/-- The codes created in the decoder's dictionary are the first ones of the entries (R170). -/
def Knows (d : DecUnit) (es : Entries) : Prop :=
  ∀ k, emptyCount d.maxb + k < d.count →
    Memory.read unlistedCode d.pfx (emptyCount d.maxb + k) = (es.getD k (0, 0#8)).1 ∧
    Memory.read unlistedByte d.bytev (emptyCount d.maxb + k) = (es.getD k (0, 0#8)).2

/-- A code created on both sides has one string (R111, R171). -/
theorem Knows.str {d : DecUnit} {es : Entries} (h : Knows d es) (hp : PrefixesOk d)
    (hes : EntriesOk d.maxb es) (hle : d.count ≤ emptyCount d.maxb + es.length) (c : Nat) :
    c < d.count → c ≠ eosCode d.maxb → d.str c = es.str d.maxb c := by
  induction c using Nat.strong_induction_on with
  | _ c ih =>
    intro hc heos
    obtain hlit | ⟨k, hk, rfl⟩ := CodeOf.cases (es := es) ⟨hc.trans_le hle, heos⟩
    · rw [DecUnit.str_literal hlit, Entries.str_literal hlit]
    · obtain ⟨hpfx, hbyte⟩ := h k hc
      have hlow := hes.prefixLower k hk
      have hlit : literalCount d.maxb ≤ emptyCount d.maxb + k := by
        simp only [literalCount, emptyCount]; omega
      rw [DecUnit.str_created hp hlit hc heos, hes.str_created hk, hpfx, hbyte,
        ih _ hlow (hlow.trans hc) (hes.prefixNotEos k hk)]

/-! ### Between two bytes of the input -/

/-- The decoder `d` has received every code that the abstract encoder `a` has emitted: its widths are the encoder's, and of
the entries it lacks the newest, whose prefix is its previous code (R177, R180). -/
structure Lags (cap : Nat) (m : Byte) (a : AbsEnc) (d : DecUnit) : Prop where
  ok : a.Ok cap m
  maxb : d.maxb = m
  capacity : d.build.cap = cap
  holds : DecHolds d
  memories : d.memoriesWf = true
  w : d.w = a.w
  knows : Knows d a.entries
  newest : (a.entries = [] ∧ d.prevv = false) ∨
    (d.prevv = true ∧ ∃ es y, a.entries = es ++ [(d.prev, y)] ∧
      d.count = emptyCount m + es.length)

/-- The decoder `e` is `d` after the match `p` of the encoder: it has delivered what the match stands for and has all the
entries, as many as it can have at that width (R177, R178, R180). -/
structure CaughtUp (cap : Nat) (m : Byte) (a : AbsEnc) (p : Nat) (d e : DecUnit) : Prop where
  maxb : e.maxb = m
  capacity : e.build.cap = cap
  holds : DecHolds e
  memories : e.memoriesWf = true
  w : e.w = if 2 ^ a.w ≤ a.count m + 1 ∧ a.count m ≠ cap - 1 then a.w + 1 else a.w
  knows : Knows e a.entries
  prevv : e.prevv = true
  prev : e.prev = p
  count : e.count = a.count m
  held : e.heldBits = d.heldBits
  st : e.st = d.st
  out : e.out = d.out ++ [a.entries.str m p]

section
variable {cap : Nat} {m : Byte} {a : AbsEnc} {d e : DecUnit} {p : Nat}

theorem Lags.withCursor (h : Lags cap m a d) (acc nacc : Nat) (resp : List Response) :
    Lags cap m a (d.withCursor acc nacc resp) :=
  { h with holds := { h.holds with } }

theorem CaughtUp.withCursor (h : CaughtUp cap m a p d e) (acc nacc : Nat) (resp : List Response) :
    CaughtUp cap m a p (d.withCursor acc nacc resp) (e.withCursor acc nacc resp) :=
  { h with holds := { h.holds with }, held := rfl }

/-- With room in the dictionary, the step of R180 keeps the code and grows the width at the threshold, but not one code short
of full. -/
theorem afterCode_of_room {n w : Nat} (h : n ≠ cap) : afterCode cap m n w =
    (n, true, if 2 ^ w ≤ n + 1 ∧ n ≠ cap - 1 then w + 1 else w) := by
  rw [afterCode, if_neg h]
  by_cases hlast : n = cap - 1
  · simp [hlast]
  · by_cases hw : 2 ^ w ≤ n + 1 <;> simp [hlast, hw]

/-- The number of entries the decoder has once it has appended the previous code's (R177). -/
theorem Lags.count_extended (h : Lags cap m a d) :
    (if d.prevv = true then d.count + 1 else d.count) = a.count m := by
  obtain ⟨hes, hv⟩ | ⟨hv, es, y, hes, hcount⟩ := h.newest
  · rw [hv, h.holds.noPrev hv, h.maxb, AbsEnc.count, hes]
    rfl
  · rw [if_pos hv, hcount, AbsEnc.count, hes, List.length_append]
    rfl

/-- With the newest entry appended, the decoder has all of them. -/
theorem Lags.knows_extended {y : Byte} {s : List Byte} {c : Nat} (h : Lags cap m a d)
    (hd : Delivered d e c s d.prevv y) (hcount : e.count = a.count m)
    (hy : ∀ es z, a.entries = es ++ [(d.prev, z)] → z = y) : Knows e a.entries := by
  have hmaxb : e.maxb = d.maxb := by rw [hd.frame]
  intro k hk
  rw [hmaxb, h.maxb, hcount, AbsEnc.count] at hk
  rw [hmaxb, hd.pfx, hd.bytev]
  obtain ⟨hes, -⟩ | ⟨hv, es, z, hes, hdcount⟩ := h.newest
  · simp [hes] at hk
  · obtain rfl := hy es z hes
    by_cases hlast : k = es.length
    · subst hlast
      rw [h.maxb, hdcount, if_pos ⟨hv, rfl⟩, if_pos ⟨hv, rfl⟩, hes, Entries.getD_append_length]
      exact ⟨rfl, rfl⟩
    · have hold : emptyCount d.maxb + k < d.count := by
        rw [hes, List.length_append, List.length_singleton] at hk
        rw [h.maxb, hdcount]
        omega
      rw [if_neg fun hc => hold.ne hc.2, if_neg fun hc => hold.ne hc.2]
      exact h.knows k hold

/-- The match is delivered with the newest entry appended, so the decoder has caught up. -/
theorem Lags.caughtUp {y : Byte} (h : Lags cap m a d)
    (hd : Delivered d e p (a.entries.str m p) d.prevv y)
    (hy : ∀ es z, a.entries = es ++ [(d.prev, z)] → z = y) : CaughtUp cap m a p d e := by
  have hstep := hd.step
  have hroom := h.ok.room
  rw [h.count_extended, h.capacity, h.maxb, h.w, afterCode_of_room (by omega)] at hstep
  simp only [Prod.mk.injEq] at hstep
  obtain ⟨hcount, hprevv, hw⟩ := hstep
  have hknows := h.knows_extended hd hcount hy
  have hframe := hd.frame
  refine ⟨?_, ?_, hd.holds, hd.memories, hw, hknows, hprevv, ?_, hcount, ?_, ?_, ?_⟩ <;>
    rw [hframe]
  · exact h.maxb
  · exact h.capacity
  · rfl

/-- The strings the decoder has are those of the encoder's entries (R111). -/
theorem Lags.str (h : Lags cap m a d) {c : Nat} (hc : c < d.count) (heos : c ≠ eosCode m) :
    d.str c = a.entries.str m c := by
  have hle : d.count ≤ emptyCount d.maxb + a.entries.length := by
    have := h.count_extended
    rw [h.maxb, ← AbsEnc.count, ← this]
    split <;> omega
  obtain rfl := h.maxb
  exact h.knows.str (h.holds.mid h.memories).prefixes h.ok.entries hle c hc heos

/-- The newest entry has the string that the decoder gives the self-referential code: its byte is the first one of its prefix's
string when its own code is the match (R178). -/
theorem Lags.str_newest (h : Lags cap m a d) (hp : a.idx = some p) (hc : d.count ≤ p) :
    d.prevv = true ∧ p = d.count ∧ a.entries.str m p = d.str d.prev ++ [d.pfirst] ∧
      ∀ es z, a.entries = es ++ [(d.prev, z)] → z = d.pfirst := by
  obtain ⟨hlt, -⟩ := h.ok.matched p hp
  obtain ⟨hes, hv⟩ | ⟨hv, es, y, hes, hcount⟩ := h.newest
  · rw [hes, List.length_nil, ← h.maxb, ← h.holds.noPrev hv] at hlt
    exact absurd hc (Nat.not_le_of_lt hlt)
  · obtain ⟨hprev, hne, hpfirst⟩ := h.holds.prev hv
    have hlen : a.entries.length = es.length + 1 := by rw [hes, List.length_append]; rfl
    obtain rfl : p = d.count := by omega
    have hentry : a.entries.getD es.length (0, 0#8) = (d.prev, y) := by
      rw [hes, Entries.getD_append_length]
    have hstr := h.ok.entries.str_created (k := es.length) (by omega)
    rw [hentry, ← hcount, ← h.str hprev (h.maxb ▸ hne)] at hstr
    have hy : y = d.pfirst := by
      have hfirst := h.ok.newest _ hp es _ hes
      rw [hstr, firstByte_append (DecUnit.str_ne_nil (h.holds.mid h.memories).prefixes hprev hne),
        ← hpfirst] at hfirst
      exact hfirst.symm
    subst hy
    refine ⟨hv, rfl, hstr, fun es' z hes' => ?_⟩
    obtain ⟨-, he⟩ := List.append_inj' (hes'.symm.trans hes) rfl
    exact congrArg Prod.snd (List.singleton_inj.mp he)

/-- The decoder decodes the match of the encoder: it exists already, or it is the newest entry itself (R177, R178). -/
theorem Lags.decodeIndex_match (h : Lags cap m a d) (hp : a.idx = some p) :
    ∃ e, d.decodeIndex p = .ok e ∧ CaughtUp cap m a p d e := by
  by_cases hc : p < d.count
  · obtain ⟨-, heos⟩ := h.ok.matched p hp
    obtain ⟨e, he, hd⟩ := h.holds.existing_delivered h.memories ⟨hc, h.maxb ▸ heos⟩
    rw [h.str hc heos] at hd
    exact ⟨e, he, h.caughtUp hd fun es z hes => (h.ok.newest p hp es _ hes).symm⟩
  · obtain ⟨hv, rfl, hstr, hy⟩ := h.str_newest hp (Nat.le_of_not_lt hc)
    obtain ⟨e, he, hd⟩ := h.holds.selfRef_delivered h.memories hv
    rw [← hstr, ← hv] at hd
    exact ⟨e, he, h.caughtUp hd hy⟩

/-! ### After the match -/

/-- Where the new entry leaves room, the decoder lags behind the encoder as before (R145, R180). -/
theorem CaughtUp.lags {b : Byte} (h : CaughtUp cap m a p d e)
    (hok : (a.grown m p b).Ok cap m) (hroom : a.count m + 1 ≠ cap) :
    Lags cap m (a.grown m p b) e where
  ok := hok
  maxb := h.maxb
  capacity := h.capacity
  holds := h.holds
  memories := h.memories
  w := by
    have hlast : a.count m ≠ cap - 1 := by
      have := hok.room
      omega
    rw [h.w, AbsEnc.grown]
    simp [hlast]
  knows k hk := by
    have hlt : k < a.entries.length := by
      rw [h.maxb, h.count, AbsEnc.count] at hk
      omega
    rw [AbsEnc.grown, Entries.getD_append_left hlt]
    exact h.knows k hk
  newest := .inr ⟨h.prevv, a.entries, b, by rw [h.prev]; rfl, h.count⟩

/-- At the start of an epoch both sides agree (R143, R175). -/
theorem Lags.start (hfits : m.toNat + 3 ≤ cap) (hmaxb : d.maxb = m) (hcap : d.build.cap = cap)
    (hd : DecHolds d) (hm : d.memoriesWf = true) (hw : d.w = startWidth m)
    (hprevv : d.prevv = false) : Lags cap m (AbsEnc.start m) d where
  ok := .start hfits
  maxb := hmaxb
  capacity := hcap
  holds := hd
  memories := hm
  w := hw
  knows k hk := by
    rw [hd.noPrev hprevv] at hk
    omega
  newest := .inl ⟨rfl, hprevv⟩

/-- Where the new entry fills the dictionary, the literal after the match starts an epoch on both sides (R145, R180). -/
theorem CaughtUp.decodeIndex_byte {b : Byte} (h : CaughtUp cap m a p d e) (hb : b ≤ m)
    (hfull : a.count m + 1 = cap) : ∃ f, e.decodeIndex b.toNat = .ok f ∧
      Lags cap m (AbsEnc.start m) f ∧ f.heldBits = e.heldBits ∧ f.st = e.st ∧
      f.out = e.out ++ [[b]] := by
  have hfits := h.holds.fits
  rw [h.maxb, h.capacity] at hfits
  obtain ⟨hlt, hne⟩ := codeOf_byte [] hb
  have hbc : b.toNat < e.count ∧ b.toNat ≠ eosCode e.maxb :=
    ⟨hlt.trans_le (h.maxb ▸ h.holds.countMin), h.maxb ▸ hne⟩
  obtain ⟨f, hf, hd⟩ := h.holds.existing_delivered h.memories hbc
  have hstr : e.str b.toNat = [b] := by
    rw [DecUnit.str_literal (Nat.lt_succ_of_le (h.maxb ▸ hb)), BitVec.ofNat_toNat,
      BitVec.setWidth_eq]
  rw [hstr] at hd
  have hstep := hd.step
  rw [h.prevv, if_pos rfl, h.count, h.capacity, afterCode, if_pos hfull, h.maxb] at hstep
  simp only [Prod.mk.injEq] at hstep
  obtain ⟨-, hprevv, hw⟩ := hstep
  have hframe := hd.frame
  refine ⟨f, hf, .start hfits ?_ ?_ hd.holds hd.memories hw hprevv, ?_, ?_, ?_⟩ <;> rw [hframe]
  · exact h.maxb
  · exact h.capacity
  · rfl

/-- A byte that makes the match longer changes nothing for the decoder (R145). -/
theorem Lags.of_extends {a' : AbsEnc} {b : Byte} (h : Lags cap m a d) (ha : a.Extends cap m a' b) :
    Lags cap m a' d :=
  { h with
    ok := ha.ok
    w := h.w.trans ha.w.symm
    knows := ha.entries ▸ h.knows
    newest := ha.entries ▸ h.newest }

/-! ### The stream -/

/-- `EOS` fits every width (R8, R150). -/
theorem DecHolds.eos_fits (h : DecHolds d) : eosCode d.maxb < 2 ^ d.w :=
  (Nat.lt_succ_self _).trans_le ((emptyCount_le_two_pow d.maxb).trans
    (Nat.pow_le_pow_right (by decide) h.widthMin))

/-- A decoder that reads the rest of a stream once it has caught up reads it from the match on. -/
theorem Lags.reads_match {codes : List (Nat × Nat)} {bytes : List Byte} (h : Lags cap m a d)
    (hp : a.idx = some p) (hrest : ∀ d e, CaughtUp cap m a p d e → e.Reads codes bytes) :
    d.Reads ((p, a.w) :: codes) (a.pending m ++ bytes) := by
  obtain ⟨e, he, hcaught⟩ := h.decodeIndex_match hp
  have hfits : p < 2 ^ d.w := by
    rw [h.w]
    exact (h.ok.matched p hp).1.trans_le h.ok.fits
  rw [AbsEnc.pending_of_match hp, ← h.w]
  exact .code hfits he hcaught.held hcaught.st hcaught.out
    fun acc nacc resp => hrest _ _ (hcaught.withCursor acc nacc resp)

/-- A decoder that has caught up with a full dictionary reads the literal after the match, and then the rest of a stream from the
start of an epoch. -/
theorem CaughtUp.reads_byte {b : Byte} {codes : List (Nat × Nat)} {bytes : List Byte}
    (h : CaughtUp cap m a p d e) (hb : b ≤ m) (hfull : a.count m + 1 = cap)
    (hrest : ∀ f, Lags cap m (AbsEnc.start m) f → f.Reads codes bytes) :
    e.Reads ((b.toNat, a.w) :: codes) (b :: bytes) := by
  obtain ⟨f, hf, hlags, hheld, hst, hout⟩ := h.decodeIndex_byte hb hfull
  have hw : e.w = a.w := by
    rw [h.w, if_neg]
    omega
  have hfits : b.toNat < 2 ^ e.w :=
    (h.maxb ▸ Nat.lt_succ_of_le hb : b.toNat < eosCode e.maxb).trans h.holds.eos_fits
  rw [← hw]
  exact .code (s := [b]) hfits hf hheld hst hout
    fun acc nacc resp => hrest _ (hlags.withCursor acc nacc resp)

/-- The codes of `ENC.FINAL` are read: the match, and `EOS` (R147, R176). -/
theorem Lags.reads_final (h : Lags cap m a d) : d.Reads (a.final cap m) (a.pending m) := by
  cases hidx : a.idx with
  | none =>
    rw [AbsEnc.final_of_noMatch hidx, AbsEnc.pending_of_noMatch hidx, ← h.maxb, ← h.w]
    exact .eos h.holds.eos_fits
  | some p =>
    rw [AbsEnc.final_of_match hidx, ← List.append_nil (a.pending m)]
    refine h.reads_match hidx fun d e hcaught => ?_
    rw [← hcaught.w, ← hcaught.maxb]
    exact .eos hcaught.holds.eos_fits

end

/-- Behind the encoder, the decoder reads the codes of the rest of the stream, and they stand for the pending match and the rest of
the input (R187). -/
theorem Lags.reads {cap : Nat} {m : Byte} {input : List Byte} {a : AbsEnc} {d : DecUnit}
    (h : Lags cap m a d) (hin : ∀ b ∈ input, b ≤ m) :
    d.Reads (a.codesFrom cap m input) (a.pending m ++ input) := by
  induction input generalizing a d with
  | nil =>
    rw [List.append_nil]
    exact h.reads_final
  | cons b bs ih =>
    obtain ⟨hb, hbs⟩ := List.forall_mem_cons.mp hin
    obtain ⟨a', hext⟩ | ⟨p, hp, ⟨hfull, hbyte⟩ | ⟨hroom, hok, hbyte⟩⟩ := h.ok.byte_cases hb
    · have hreads := ih (h.of_extends hext) hbs
      rw [hext.pending, List.append_assoc] at hreads
      rw [AbsEnc.codesFrom, hext.byte]
      exact hreads
    · rw [AbsEnc.codesFrom, hbyte]
      exact h.reads_match hp fun _ _ hcaught =>
        hcaught.reads_byte hb hfull fun _ hlags => ih hlags hbs
    · rw [AbsEnc.codesFrom, hbyte]
      refine h.reads_match hp fun _ _ hcaught => ?_
      have hreads := ih (hcaught.lags hok hroom) hbs
      rw [AbsEnc.pending_of_match rfl, Entries.str_byte _ hb] at hreads
      exact hreads

end Sys2Proof.Machine
end

section
/-! PROOF. The round trip (42_decoder.md R187): the decoder reads the encoder's stream, which gives back the input. -/

namespace Sys2Proof.Machine

/-- Beyond its bits, a packed sequence has fewer than eight bits, all zero (R64, R66). -/
theorem streamBits_packBits (bits : List Bool) :
    ∃ pad ≤ 7, streamBits (packBits bits) = bits ++ List.replicate pad false := by
  have hlen : (streamBits (packBits bits)).length = 8 * ((bits.length + 7) / 8) := by
    simp [packBits]
  refine ⟨8 * ((bits.length + 7) / 8) - bits.length, by omega,
    List.ext_getElem (by rw [hlen, List.length_append, List.length_replicate]; omega)
      fun i hi hi' => ?_⟩
  obtain ⟨k, j, hj, rfl⟩ : ∃ k j, j < 8 ∧ i = 8 * k + j :=
    ⟨i / 8, i % 8, Nat.mod_lt _ (by decide), (Nat.div_add_mod i 8).symm⟩
  have hk : k < (bits.length + 7) / 8 := by omega
  rw [← List.getD_eq_getElem _ false hi, ← List.getD_eq_getElem _ false hi', getD_streamBits hj]
  have hbyte : (packBits bits).getD k 0#8 = streamByte bits k := by
    rw [List.getD_eq_getElem _ _ (by simpa [packBits] using hk)]
    simp [packBits]
  rw [hbyte, getLsbD_streamByte _ _ hj]
  by_cases hin : 8 * k + j < bits.length
  · exact (List.getD_append _ _ _ _ hin).symm
  · rw [List.getD_append_right _ _ _ _ (Nat.le_of_not_lt hin),
      List.getD_eq_default _ _ (Nat.le_of_not_lt hin), List.getD_eq_getElem?_getD,
      List.getElem?_getD_replicate_default_eq]

/-- Commands of the encoder leave the decoder alone (R227). -/
theorem execAll_enc_dec {is : List Instr} {s t : State} (hp : ∀ i ∈ is, i.port = .enc)
    (h : execAll is s = .next t) : t.dec = s.dec := by
  induction is generalizing s with
  | nil => rw [execAll_nil_eq_next.mp h]
  | cons i is ih =>
    obtain ⟨hi, his⟩ := List.forall_mem_cons.mp hp
    obtain ⟨v, hv, h⟩ := execAll_cons_eq_next.mp h
    rw [exec_enc hi] at hv
    obtain ⟨u, -, rfl⟩ := State.onEnc_eq_next.mp hv
    exact (ih his h).trans (State.dec_withEnc s u)

/-- A decoder that has started a stream awaits the codes of any input in range (R181, R187). -/
theorem DecUnit.started_awaits {d : DecUnit} {cap : Nat} {m : Byte} {input : List Byte}
    (h : d.Inv) (hcap : d.build.cap = cap) (hfits : m.toNat + 3 ≤ cap)
    (hin : ∀ b ∈ input, b ≤ m) : (d.started m).Awaits (encodedCodes cap m input) input := by
  have hinv := DecUnit.started_inv h (hcap ▸ hfits)
  have hlags : Lags cap m (AbsEnc.start m) (d.started m) :=
    .start hfits rfl hcap (hinv.configured rfl).1 hinv.memories rfl rfl
  exact fun acc nacc resp => (hlags.withCursor acc nacc resp).reads hin

/-- Settles O44: the encoder's stream is its codes packed, and the decoder reads them. -/
theorem roundTripGivesBackTheInput : Obligations.RoundTripGivesBackTheInput := by
  intro s m input hinv hcap hfits hin
  obtain ⟨t, ds, ht, hout, hbytes, -⟩ :=
    encoderStreamIsItsCodesPacked s m input hinv.enc hfits hin
  have hdec : t.dec = s.dec := execAll_enc_dec (fun i hi => by
    simp only [List.cons_append, List.mem_cons, List.mem_append, List.mem_map, List.not_mem_nil,
      or_false] at hi
    obtain rfl | ⟨b, -, rfl⟩ | rfl := hi <;> rfl) ht
  obtain ⟨pad, hpad, hbits⟩ :=
    streamBits_packBits (codesBits (encodedCodes s.enc.build.cap m input))
  rw [← hbytes] at hbits
  have hinit := exec_decInit_of_fits (s := t) (m := m) (by rw [hdec, hcap]; exact hfits)
  rw [hdec] at hinit
  have hstarted := DecUnit.started_inv hinv.dec (m := m) (hcap ▸ hfits)
  obtain ⟨hne, v, outs, hv, hvout, hflat, hresp⟩ := execAll_decByte_reads
    (s := t.withDec ((s.dec.started m).respond (success sOk))) (hstarted.respond _) rfl rfl
    (fun acc nacc _ => DecUnit.started_awaits hinv.dec hcap hfits hin acc nacc _)
    (by simpa using hpad) hbits
  refine ⟨t, ds, v, outs, ht, hout, hne, execAll_cons_eq_next.mpr ⟨_, hinit, hv⟩, hvout, hflat, ?_⟩
  rw [hresp, State.dec_withDec, DecUnit.resp_respond, List.append_assoc]
  rfl

end Sys2Proof.Machine
end

section
/-! PROOF. Tier 1 statements of 60_exceptions.md: an idle step (R225), and the commands that a unit's checks refuse
(R212, R213, R215). -/

namespace Sys2Proof.Machine

/-- With no event pending, the core takes nothing from its host (R225). -/
theorem fetch_of_no_event {s : State} (h : s.host = []) : fetch s = .settled s := by
  rw [fetch, h]

/-- Settles O6: nothing is taken from the host, so there is nothing to run. -/
theorem coreWithoutEventsIsIdle : Obligations.CoreWithoutEventsIsIdle := by
  intro s h
  rw [step, fetch_of_no_event h]

/-! ### INIT that does not fit -/

/-- An INIT that does not fit answers `E_CONFIG` and clears `CFG` (R144, R212). -/
theorem exec_encInit_of_not_fits {s : State} {m : Byte} (h : s.enc.build.cap < m.toNat + 3) :
    exec (.encInit m) s =
      .next (s.withEnc (({ s.enc with cfg := false }).raise eConfig (zext32 m.toNat))) := by
  obtain ⟨hfits, -⟩ | ⟨-, e⟩ := s.enc.init_cases m
  · exact absurd h (Nat.not_lt_of_le hfits)
  · rw [← e]
    rfl

/-- An INIT that does not fit answers `E_CONFIG` and clears `CFG` (R181, R212). -/
theorem exec_decInit_of_not_fits {s : State} {m : Byte} (h : s.dec.build.cap < m.toNat + 3) :
    exec (.decInit m) s =
      .next (s.withDec (({ s.dec with cfg := false }).raise eConfig (zext32 m.toNat))) := by
  obtain ⟨hfits, -⟩ | ⟨-, e⟩ := s.dec.init_cases m
  · exact absurd h (Nat.not_lt_of_le hfits)
  · rw [← e]
    rfl

/-- `INFO` of a refused INIT is its operand, extended with zeros (R212). -/
theorem zext32_eq_setWidth (m : Byte) : zext32 m.toNat = m.setWidth 32 := BitVec.ofNat_toNat 32 m

theorem one_lt_of_capacityWf {cap : Nat} (h : capacityWf cap = true) : 1 < cap := by
  simp only [capacityWf, decide_eq_true_eq] at h
  omega

/-- Settles O12: the check of INIT fails, and a capacity in range is at least 3. -/
theorem initThatDoesNotFitUnconfigures : Obligations.InitThatDoesNotFitUnconfigures := by
  intro s m
  rw [← zext32_eq_setWidth]
  exact ⟨exec_encInit_of_not_fits, exec_decInit_of_not_fits, one_lt_of_capacityWf,
    one_lt_of_capacityWf⟩

/-! ### Commands to an unconfigured unit -/

theorem EncUnit.checkedTake_of_unconfigured {u : EncUnit} (h : u.cfg = false) (b : Byte)
    (rangeInfo : InfoWord) : u.checkedTake b rangeInfo = .ok (u.raise eNotConfigured 0#32) := if_pos h

theorem DecUnit.byte_of_unconfigured {d : DecUnit} (h : d.cfg = false) (x : Byte) :
    d.byte x = .ok (d.raise eNotConfigured 0#32) := if_pos h

/-- Settles O10: `CFG` is the first check of every command but INIT, and it is 0 after reset and after an INIT that does not
fit. -/
theorem unconfiguredUnitRefusesAllButInit : Obligations.UnconfiguredUnitRefusesAllButInit :=
  ⟨fun s h => ⟨fun b => congrArg s.onEnc (EncUnit.checkedTake_of_unconfigured h b _),
      fun _ => congrArg s.onEnc (EncUnit.checkedTake_of_unconfigured h _ _),
      congrArg s.onEnc (EncUnit.final_of_unconfigured h)⟩,
    fun s h x => congrArg s.onDec (DecUnit.byte_of_unconfigured h x),
    fun _ _ => ⟨rfl, rfl⟩,
    fun _ _ h => ⟨_, exec_encInit_of_not_fits h, rfl⟩,
    fun _ _ h => ⟨_, exec_decInit_of_not_fits h, rfl⟩⟩

/-! ### A byte above `MAXB` -/

/-- A byte above `MAXB` is the second check of both commands that take one (R145, R146, R221). -/
theorem EncUnit.checkedTake_of_above {u : EncUnit} {b : Byte} (hcfg : u.cfg = true)
    (hb : u.maxb.toNat < b.toNat) (rangeInfo : InfoWord) :
    u.checkedTake b rangeInfo = .ok (u.raise eByteRange rangeInfo) := by
  rw [EncUnit.checkedTake, if_neg (by simp [hcfg]), if_pos (BitVec.lt_def.mpr hb)]

/-- Settles O18: both commands make the same check, each with its own INFO. -/
theorem byteAboveMaximumIsRefused : Obligations.ByteAboveMaximumIsRefused := by
  intro s hcfg
  refine ⟨fun b hb => congrArg s.onEnc (EncUnit.checkedTake_of_above hcfg hb _), fun d hd => ?_⟩
  rw [← remapInfo_eq]
  exact congrArg s.onEnc (EncUnit.checkedTake_of_above hcfg hd _)

end Sys2Proof.Machine
end

section
/-! PROOF. The end of a stream in the decoder (60_exceptions.md R219): `EOS` completes it, and it stays complete. -/

namespace Sys2Proof.Machine

/-- A byte that comes to `EOS` ends with the stream complete and the buffered bits dropped (R176, R182). -/
theorem ByteDecoded.eos {s : State} {x : Byte} {d e : DecUnit} (hd : ByteDecoded s x e)
    (hreach : DecUnit.Reaches (s.dec.pushByte x) d) (ready : d.codeReady = true)
    (heos : d.nextCode = eosCode d.maxb) : e = d.dropCode.eos :=
  hd.decodes.unique (hreach.decodes (.code ready (if_pos heos) (.stop rfl)))

@[simp] theorem DecUnit.streamStatus_respond (d : DecUnit) (r : Response) :
    (d.respond r).streamStatus = d.streamStatus := rfl

/-- A byte to a decoder that no longer runs is answered with how its stream ended, and changes nothing (R218, R219). -/
theorem exec_decByte_of_stopped {s : State} (hcfg : s.dec.cfg = true) (hst : s.dec.st ≠ .run)
    (x : Byte) : exec (.decByte x) s = .next (s.withDec (s.dec.respond s.dec.streamStatus)) := by
  refine State.onDec_eq_next.mpr ⟨_, ?_, rfl⟩
  rw [DecUnit.byte, if_neg (by simp [hcfg]), DecUnit.streamStatus]
  cases h : s.dec.st with
  | run => exact absurd h hst
  | done => rfl
  | error => rfl

theorem execAll_decByte_of_stopped {xs : List Byte} {s : State} (hcfg : s.dec.cfg = true)
    (hst : s.dec.st ≠ .run) : execAll (xs.map .decByte) s = .next (s.withDec { s.dec with
      resp := s.dec.resp ++ List.replicate xs.length s.dec.streamStatus }) := by
  induction xs generalizing s with
  | nil => simp [execAll, State.withDec]
  | cons x xs ih =>
    refine execAll_cons_eq_next.mpr ⟨_, exec_decByte_of_stopped hcfg hst x, ?_⟩
    rw [ih (by exact hcfg) (by exact hst), State.dec_withDec, DecUnit.streamStatus_respond,
      DecUnit.resp_respond, List.append_assoc, List.length_cons, List.replicate_succ]
    rfl

/-- Settles O34: the loop ends at `EOS`, and a decoder that is done takes no code. -/
theorem completionIsSticky : Obligations.CompletionIsSticky := by
  refine ⟨fun s x d h hcfg hrun hreach hst hw heos => ?_, fun s xs hcfg hdone => ?_⟩
  · obtain ⟨e, he⟩ := byteDecoded h hcfg hrun x
    obtain ⟨-, -, -, hresp⟩ := he.frame
    obtain rfl := he.eos hreach (DecUnit.codeReady_iff.mpr ⟨hst, hw⟩) heos
    rw [he.exec, ← hresp]
    rfl
  · have hstatus : s.dec.streamStatus = success sDone := by rw [DecUnit.streamStatus, hdone]
    rw [execAll_decByte_of_stopped hcfg (by simp [hdone]), hstatus]
    rfl

end Sys2Proof.Machine
end

section
/-! PROOF. What a command reads and writes of the core (10_state.md R44, 30_encoding.md R91, 60_exceptions.md R227). -/

namespace Sys2Proof.Machine

/-! ### The encoder -/

/-- Everything the checks of `ENC.BYTE` and `ENC.BYTE.REMAP` can come to (R145, R146). -/
theorem EncUnit.checkedTake_eq_ok {u u' : EncUnit} {b : Byte} {rangeInfo : InfoWord}
    (h : u.checkedTake b rangeInfo = .ok u') :
    u' = u.raise eNotConfigured 0#32 ∨ u' = u.raise eByteRange rangeInfo ∨ u.take b = .ok u' := by
  unfold EncUnit.checkedTake at h
  split at h
  · cases h; exact .inl rfl
  · split at h
    · cases h; exact .inr (.inl rfl)
    · exact .inr (.inr h)

theorem EncUnit.dictAdd_stream {u u' : EncUnit} {p : Option Nat} {b : Byte} {r : DictResult}
    (h : u.dictAdd p b = .ok (r, u')) : StreamFrame u u' := by
  obtain ⟨rfl, -⟩ | ⟨-, hframe, -⟩ := EncUnit.dictAdd_frame h
  · exact ⟨rfl, rfl, rfl⟩
  · exact hframe.stream

theorem EncUnit.afterInsert_stream {u u' : EncUnit} {b : Byte} (h : u.afterInsert b = .ok u') :
    StreamFrame u u' := by
  obtain ⟨-, v, hv, rfl⟩ | ⟨-, -, rfl⟩ | ⟨-, -, rfl⟩ := EncUnit.afterInsert_eq_ok h
  · exact (EncUnit.emit_frame hv).stream.trans v.epochReset_stream
  · exact ⟨rfl, rfl, rfl⟩
  · exact ⟨rfl, rfl, rfl⟩

/-- `ENC.BYTE` changes neither the build, `CFG` nor `MAXB`, in any state (R145). -/
theorem EncUnit.take_stream {u u' : EncUnit} {b : Byte} (h : u.take b = .ok u') :
    StreamFrame u u' := by
  obtain ⟨⟨r, v⟩, hadd, h⟩ := bind_eq_ok.mp h
  have hv := EncUnit.dictAdd_stream hadd
  cases r with
  | found c =>
    obtain rfl := pure_eq_ok.mp h
    exact hv
  | notFound =>
    obtain ⟨x, hx, h⟩ := bind_eq_ok.mp h
    obtain ⟨y, hy, h⟩ := bind_eq_ok.mp h
    obtain rfl := pure_eq_ok.mp h
    have hxy : StreamFrame x y := (EncUnit.afterInsert_stream hy :)
    exact (hv.trans (EncUnit.emit_frame hx).stream).trans hxy

theorem EncUnit.checkedTake_stream {u u' : EncUnit} {b : Byte} {rangeInfo : InfoWord}
    (h : u.checkedTake b rangeInfo = .ok u') : StreamFrame u u' := by
  obtain rfl | rfl | h := EncUnit.checkedTake_eq_ok h
  · exact ⟨rfl, rfl, rfl⟩
  · exact ⟨rfl, rfl, rfl⟩
  · exact EncUnit.take_stream h

theorem FinalFrame.stream {u u' : EncUnit} (h : FinalFrame u u') : StreamFrame u u' := by
  rw [FinalFrame] at h
  rw [h]
  exact ⟨rfl, rfl, rfl⟩

theorem FinalFrame.resp {u u' : EncUnit} (h : FinalFrame u u') : u'.resp = u.resp := by
  rw [FinalFrame] at h
  rw [h]

theorem EncUnit.emitPending_frame {u u' : EncUnit} (h : u.emitPending = .ok u') :
    FinalFrame u u' := by
  unfold EncUnit.emitPending at h
  split at h
  · obtain ⟨v, hv, h⟩ := bind_eq_ok.mp h
    obtain rfl := pure_eq_ok.mp h
    exact (EncUnit.emit_frame hv).final.trans v.finalWidthStep_frame
  · cases h; rfl

theorem EncUnit.padByte_frame {u u' : EncUnit} (h : u.padByte = .ok u') : PackerFrame u u' := by
  unfold EncUnit.padByte at h
  split at h
  · exact EncUnit.commitByte_frame h
  · cases h; rfl

/-- Everything `ENC.FINAL` can do, in any state: refuse, or go through its codes, start an epoch and answer `S_OK` (R147). -/
theorem EncUnit.final_eq_ok {u u' : EncUnit} (h : u.final = .ok u') :
    u' = u.raise eNotConfigured 0#32 ∨
    ∃ v, FinalFrame u v ∧ u' = v.epochReset.respond (success sOk) := by
  unfold EncUnit.final at h
  split at h
  · cases h; exact .inl rfl
  · obtain ⟨v, hv, h⟩ := bind_eq_ok.mp h
    obtain ⟨x, hx, h⟩ := bind_eq_ok.mp h
    obtain ⟨y, hy, h⟩ := bind_eq_ok.mp h
    have hpacker := ((EncUnit.emit_frame hx).trans (EncUnit.padByte_frame hy)).trans y.flushRest_frame
    exact .inr ⟨y.flushRest, (EncUnit.emitPending_frame hv).trans hpacker.final,
      (pure_eq_ok.mp h).symm⟩

theorem EncUnit.final_stream {u u' : EncUnit} (h : u.final = .ok u') : StreamFrame u u' := by
  obtain rfl | ⟨v, hv, rfl⟩ := EncUnit.final_eq_ok h
  · exact ⟨rfl, rfl, rfl⟩
  · exact hv.stream.trans v.epochReset_stream

theorem EncUnit.build_init (u : EncUnit) (m : Byte) : (u.init m).build = u.build := by
  obtain ⟨-, e⟩ | ⟨-, e⟩ := u.init_cases m <;> rw [e]
  · exact u.build_started m
  · rfl

/-- Of the encoder's commands, only INIT changes `CFG` and `MAXB` (R44). -/
theorem encResult_stream {i : Instr} {s : State} {u : EncUnit} (hne : ∀ m, i ≠ .encInit m)
    (h : encResult i s = .ok u) : StreamFrame s.enc u := by
  cases i with
  | encInit m => exact absurd rfl (hne m)
  | encByte b => exact EncUnit.checkedTake_stream ((s.enc.byte_eq b).symm.trans h)
  | encByteRemap d => exact EncUnit.checkedTake_stream ((s.enc.byteRemap_eq d _).symm.trans h)
  | encFinal => exact EncUnit.final_stream h
  | decInit m => cases h; exact ⟨rfl, rfl, rfl⟩
  | decByte x => cases h; exact ⟨rfl, rfl, rfl⟩

/-- No encoder command changes the build (R44). -/
theorem encResult_build {i : Instr} {s : State} {u : EncUnit} (h : encResult i s = .ok u) :
    u.build = s.enc.build := by
  by_cases hinit : ∃ m, i = .encInit m
  · obtain ⟨m, rfl⟩ := hinit
    cases h
    exact s.enc.build_init m
  · exact (encResult_stream (not_exists.mp hinit) h).1

/-- An encoder command reads the encoder, and only `ENC.BYTE.REMAP` the table (R91, R227). -/
theorem encResult_congr {i : Instr} {s t : State} (henc : t.enc = s.enc)
    (hremap : (∀ k, i ≠ .encByteRemap k) ∨ t.remap = s.remap) : encResult i t = encResult i s := by
  cases i with
  | encByteRemap d =>
    have htable := hremap.resolve_left fun hne => hne d rfl
    simp only [encResult, State.remapEntry, henc, htable]
  | _ => simp only [encResult, henc]

/-! ### The decoder -/

/-- Everything `DEC.BYTE` can do, in any state: codes, which leave the build, `CFG` and `MAXB` alone, and a response
(R182). -/
theorem DecUnit.byte_eq_ok {d d' : DecUnit} {x : Byte} (h : d.byte x = .ok d') :
    ∃ e r, CodeFrame d e ∧ d' = e.respond r := by
  unfold DecUnit.byte at h
  split at h
  · cases h; exact ⟨d, _, .refl d, rfl⟩
  · split at h
    · cases h; exact ⟨d, _, .refl d, rfl⟩
    · cases h; exact ⟨d, _, .refl d, rfl⟩
    · obtain ⟨e, he, h⟩ := bind_eq_ok.mp h
      exact ⟨e, _, (DecUnit.codeLoop_code _ he :), (pure_eq_ok.mp h).symm⟩

theorem DecUnit.build_init (d : DecUnit) (m : Byte) : (d.init m).build = d.build := by
  obtain ⟨-, e⟩ | ⟨-, e⟩ := d.init_cases m <;> rw [e] <;> rfl

/-- A decoder command keeps the build, and all but INIT keep `CFG` and `MAXB` (R44). -/
theorem decResult_keeps {i : Instr} {s : State} {d : DecUnit} (h : decResult i s = .ok d) :
    d.build = s.dec.build ∧
      ((∀ m, i ≠ .decInit m) → d.cfg = s.dec.cfg ∧ d.maxb = s.dec.maxb) := by
  cases i with
  | decInit m =>
    cases h
    exact ⟨s.dec.build_init m, fun hne => absurd rfl (hne m)⟩
  | decByte x =>
    obtain ⟨e, r, ⟨hbuild, hcfg, hmaxb, -⟩, rfl⟩ := DecUnit.byte_eq_ok h
    exact ⟨hbuild, fun _ => ⟨hcfg, hmaxb⟩⟩
  | _ => cases h; exact ⟨rfl, fun _ => ⟨rfl, rfl⟩⟩

/-- A decoder command reads the decoder only (R227). -/
theorem decResult_congr {i : Instr} {s t : State} (hdec : t.dec = s.dec) :
    decResult i t = decResult i s := by
  cases i <;> simp only [decResult, hdec]

/-! ### The core -/

/-- Settles O37: a command replaces its own unit by a result that it computes from that unit and, for `ENC.BYTE.REMAP`, the
table. -/
theorem unitsAreIndependent : Obligations.UnitsAreIndependent := by
  intro s t i h
  cases hi : i.port with
  | enc =>
    rw [exec_enc hi] at h
    obtain ⟨u, hu, rfl⟩ := State.onEnc_eq_next.mp h
    refine ⟨rfl, rfl, encResult_build hu, rfl, fun _ =>
      ⟨rfl, fun hne => (encResult_stream hne hu).2, fun d rest table htable => ?_⟩, nofun⟩
    have hread := encResult_congr (s := s) (t := { s with dec := d, host := rest, remap := table })
      rfl htable
    rw [exec_enc hi]
    exact State.onEnc_eq_next.mpr ⟨u, hread.trans hu, rfl⟩
  | dec =>
    rw [exec_dec hi] at h
    obtain ⟨d, hd, rfl⟩ := State.onDec_eq_next.mp h
    obtain ⟨hbuild, hkeeps⟩ := decResult_keeps hd
    refine ⟨rfl, rfl, rfl, hbuild, nofun, fun _ => ⟨rfl, hkeeps, fun u rest table => ?_⟩⟩
    rw [exec_dec hi]
    exact State.onDec_eq_next.mpr ⟨d, (decResult_congr (s := s) rfl).trans hd, rfl⟩

end Sys2Proof.Machine
end

section
/-! PROOF. The table of responses (60_exceptions.md R211): with which statuses, and which INFO, each command answers. -/

namespace Sys2Proof.Machine

/-- The statuses that R211 lists for a command at its own port, where its word is legal. -/
def statusesOf : Instr → List StatusCode
  | .encInit _ => [sOk, eConfig]
  | .encByte _ => [sOk, eNotConfigured, eByteRange]
  | .encByteRemap _ => [sOk, eNotConfigured, eByteRange]
  | .encFinal => [sOk, eNotConfigured]
  | .decInit _ => [sOk, eConfig]
  | .decByte _ => [sMore, sDone, eNotConfigured, eCodeRange, eSelfRefNoPrev]

/-- The response has one of the given statuses, and INFO 0 where R211 gives a status no INFO. -/
structure Response.Listed (r : Response) (codes : List StatusCode) : Prop where
  status : r.status ∈ codes
  info : r.status ∈ [sOk, sDone, eNotConfigured] → r.info = 0#32

theorem Response.Listed.noInfo {c : StatusCode} {codes : List StatusCode} (h : c ∈ codes) :
    Response.Listed ⟨c, 0#32⟩ codes := ⟨h, fun _ => rfl⟩

theorem Response.Listed.withInfo {c : StatusCode} {codes : List StatusCode} (h : c ∈ codes)
    (hc : c ∉ [sOk, sDone, eNotConfigured]) (info : InfoWord) : Response.Listed ⟨c, info⟩ codes :=
  ⟨h, fun hmem => absurd hmem hc⟩

/-- Bit 7 is set in the errors of R211, and in these only. -/
theorem errorBit_iff {i : Instr} {c : StatusCode} (h : c ∈ statusesOf i) :
    c.getLsbD 7 = true ↔ c ∉ [sOk, sDone] := by
  have hall : ∀ c ∈ statusCodes, (c.getLsbD 7 = true ↔ c ∉ [sOk, sDone]) := by decide
  have hsub : statusesOf i ⊆ statusCodes := by cases i <;> exact of_decide_eq_true rfl
  exact hall c (hsub h)

/-! ### The encoder -/

theorem EncUnit.init_listed (u : EncUnit) (m : Byte) :
    ∃ r, (u.init m).resp = u.resp ++ [r] ∧ r.Listed [sOk, eConfig] := by
  obtain ⟨-, e⟩ | ⟨-, e⟩ := u.init_cases m <;> rw [e]
  · exact ⟨_, congrArg (· ++ _) (u.resp_started m), .noInfo (by decide)⟩
  · exact ⟨_, rfl, .withInfo (by decide) (by decide) _⟩

theorem EncUnit.checkedTake_listed {u u' : EncUnit} {b : Byte} {rangeInfo : InfoWord}
    (h : u.checkedTake b rangeInfo = .ok u') :
    ∃ r, u'.resp = u.resp ++ [r] ∧ r.Listed [sOk, eNotConfigured, eByteRange] := by
  obtain rfl | rfl | h := EncUnit.checkedTake_eq_ok h
  · exact ⟨_, rfl, .noInfo (by decide)⟩
  · exact ⟨_, rfl, .withInfo (by decide) (by decide) _⟩
  · exact ⟨_, EncUnit.take_resp h, .noInfo (by decide)⟩

theorem EncUnit.final_listed {u u' : EncUnit} (h : u.final = .ok u') :
    ∃ r, u'.resp = u.resp ++ [r] ∧ r.Listed [sOk, eNotConfigured] := by
  obtain rfl | ⟨v, hv, rfl⟩ := EncUnit.final_eq_ok h
  · exact ⟨_, rfl, .noInfo (by decide)⟩
  · exact ⟨_, congrArg (· ++ _) (v.resp_epochReset.trans hv.resp), .noInfo (by decide)⟩

/-- Every encoder command answers with a response that R211 lists for it. -/
theorem encResult_listed {i : Instr} {s : State} {u : EncUnit} (hi : i.port = .enc)
    (h : encResult i s = .ok u) : ∃ r, u.resp = s.enc.resp ++ [r] ∧ r.Listed (statusesOf i) := by
  cases i with
  | encInit m => cases h; exact s.enc.init_listed m
  | encByte b => exact EncUnit.checkedTake_listed ((s.enc.byte_eq b).symm.trans h)
  | encByteRemap d => exact EncUnit.checkedTake_listed ((s.enc.byteRemap_eq d _).symm.trans h)
  | encFinal => exact EncUnit.final_listed h
  | decInit m => cases hi
  | decByte x => cases hi

/-! ### The decoder -/

theorem DecUnit.init_listed (d : DecUnit) (m : Byte) :
    ∃ r, (d.init m).resp = d.resp ++ [r] ∧ r.Listed [sOk, eConfig] := by
  obtain ⟨-, e⟩ | ⟨-, e⟩ := d.init_cases m <;> rw [e]
  · exact ⟨_, rfl, .noInfo (by decide)⟩
  · exact ⟨_, rfl, .withInfo (by decide) (by decide) _⟩

/-- The status lines of `DEC.BYTE` give a response that R211 lists for it: a latched error is one of the two of R40. -/
theorem DecUnit.Inv.statusNow_listed {d : DecUnit} (h : d.Inv) :
    d.statusNow.Listed [sMore, sDone, eNotConfigured, eCodeRange, eSelfRefNoPrev] := by
  unfold DecUnit.statusNow
  split
  · exact .noInfo (by decide)
  · rename_i hcfg
    unfold DecUnit.streamStatus
    cases hst : d.st with
    | run => exact .noInfo (by decide)
    | done => exact .noInfo (by decide)
    | error =>
      obtain he | he := h.errorLatched (by simpa using hcfg) hst <;> rw [he]
      · exact .withInfo (by decide) (by decide) _
      · exact .withInfo (by decide) (by decide) _

/-- Every decoder command answers with a response that R211 lists for it. -/
theorem decResult_listed {i : Instr} {s : State} {d : DecUnit} (hinv : s.dec.Inv)
    (hi : i.port = .dec) (h : decResult i s = .ok d) :
    ∃ r, d.resp = s.dec.resp ++ [r] ∧ r.Listed (statusesOf i) := by
  cases i with
  | decInit m => cases h; exact s.dec.init_listed m
  | decByte x =>
    exact ⟨_, DecUnit.byte_resp h, (DecUnit.byte_inv hinv h).statusNow_listed⟩
  | _ => cases hi

/-! ### The core -/

/-- Settles O36: each command, by its unit; the error bit is a fact about the statuses listed. -/
theorem everyCommandIsAnsweredOnceByItsTable : Obligations.EveryCommandIsAnsweredOnceByItsTable := by
  intro s t i h hexec
  cases hi : i.port with
  | enc =>
    rw [exec_enc hi] at hexec
    obtain ⟨u, hu, rfl⟩ := State.onEnc_eq_next.mp hexec
    obtain ⟨r, hresp, hr⟩ := encResult_listed hi hu
    exact ⟨r, ⟨hresp, rfl⟩, hr.status, errorBit_iff hr.status, hr.info⟩
  | dec =>
    rw [exec_dec hi] at hexec
    obtain ⟨d, hd, rfl⟩ := State.onDec_eq_next.mp hexec
    obtain ⟨r, hresp, hr⟩ := decResult_listed h.dec hi hd
    exact ⟨r, ⟨hresp, rfl⟩, hr.status, errorBit_iff hr.status, hr.info⟩

end Sys2Proof.Machine
end

section
/-! PROOF. 70_reset_and_hazards.md: a pulse on a reset input (R230), and an unconfigured core, which only INIT wakes
(R231). -/

namespace Sys2Proof.Machine

/-! ### A pulse on a reset input -/

/-- With a pulse on a reset input pending, the core takes the pulse. -/
theorem fetch_of_resetPulse {s : State} {p : Port} {rest : List HostEvent}
    (h : s.host = .resetPulse p :: rest) :
    fetch s = .settled (({ s with host := rest }).resetUnit p) := by
  rw [fetch, h]
  rfl

/-- A pulse resets the unit at its port, and runs no command (R230). -/
theorem step_of_resetPulse {s : State} {p : Port} {rest : List HostEvent}
    (h : s.host = .resetPulse p :: rest) :
    step s = .next (({ s with host := rest }).resetUnit p) := by
  rw [step, fetch_of_resetPulse h]

/-- Settles O9: the step puts back the unit's `hardReset`, which takes its build and its port records over. -/
theorem resetPulseUnconfiguresItsUnit : Obligations.ResetPulseUnconfiguresItsUnit := fun s _ =>
  ⟨fun h => ⟨s.enc.hardReset, step_of_resetPulse h, rfl, rfl, rfl, rfl⟩,
    fun h => ⟨s.dec.hardReset, step_of_resetPulse h, rfl, rfl, rfl, rfl⟩⟩

/-! ### An unconfigured core -/

/-- The units return these responses, and nothing else changes. -/
def State.respondAll (s : State) (re rd : List Response) : State :=
  { s with
    enc := { s.enc with resp := s.enc.resp ++ re }
    dec := { s.dec with resp := s.dec.resp ++ rd } }

theorem State.respondAll_nil (s : State) : s.respondAll [] [] = s := by
  simp [State.respondAll]

theorem State.respondAll_respondAll (s : State) (re rd re' rd' : List Response) :
    (s.respondAll re rd).respondAll re' rd' = s.respondAll (re ++ re') (rd ++ rd') := by
  simp [State.respondAll]

/-- The responses of the two units to `n` commands that are all refused, since no unit is configured (R213). -/
structure Refusals (n : Nat) (re rd : List Response) : Prop where
  length : re.length + rd.length = n
  all : ∀ r ∈ re ++ rd, r = ⟨eNotConfigured, 0#32⟩

theorem Refusals.append {n k : Nat} {re rd re' rd' : List Response} (h : Refusals n re rd)
    (h' : Refusals k re' rd') : Refusals (n + k) (re ++ re') (rd ++ rd') where
  length := by
    rw [List.length_append, List.length_append, ← h.length, ← h'.length]
    omega
  all r hr := by
    have hmem : r ∈ re ++ rd ∨ r ∈ re' ++ rd' := by
      simp only [List.mem_append] at hr ⊢
      tauto
    exact hmem.elim (h.all r) (h'.all r)

/-- An unconfigured encoder refuses every command of its own but INIT (R213). -/
theorem exec_enc_of_unconfigured {i : Instr} {s : State} (hi : i.port = .enc)
    (hne : ∀ m, i ≠ .encInit m) (h : s.enc.cfg = false) :
    exec i s = .next (s.respondAll [⟨eNotConfigured, 0#32⟩] []) := by
  obtain ⟨hbyte, hremap, hfinal⟩ := unconfiguredUnitRefusesAllButInit.1 s h
  rw [State.respondAll, List.append_nil]
  cases i with
  | encInit m => exact absurd rfl (hne m)
  | encByte b => exact hbyte b
  | encByteRemap d => exact hremap d
  | encFinal => exact hfinal
  | decInit m => cases hi
  | decByte x => cases hi

/-- An unconfigured decoder refuses every command of its own but INIT (R213). -/
theorem exec_dec_of_unconfigured {i : Instr} {s : State} (hi : i.port = .dec)
    (hne : ∀ m, i ≠ .decInit m) (h : s.dec.cfg = false) :
    exec i s = .next (s.respondAll [] [⟨eNotConfigured, 0#32⟩]) := by
  rw [State.respondAll, List.append_nil]
  cases i with
  | decInit m => exact absurd rfl (hne m)
  | decByte x => exact unconfiguredUnitRefusesAllButInit.2.1 s h x
  | _ => cases hi

/-- While both units are unconfigured, a command that is no INIT gets one refusal, at its own port, and changes nothing
(R213). -/
theorem exec_of_unconfigured {i : Instr} {s : State} (henc : s.enc.cfg = false)
    (hdec : s.dec.cfg = false) (hne : (∀ m, i ≠ .encInit m) ∧ ∀ m, i ≠ .decInit m) :
    ∃ re rd, exec i s = .next (s.respondAll re rd) ∧ Refusals 1 re rd := by
  cases hi : i.port with
  | enc => exact ⟨_, _, exec_enc_of_unconfigured hi hne.1 henc, rfl, by simp⟩
  | dec => exact ⟨_, _, exec_dec_of_unconfigured hi hne.2 hdec, rfl, by simp⟩

/-- A list of commands without an INIT leaves the core unconfigured, so each of them is refused (R231). -/
theorem execAll_of_unconfigured {is : List Instr} {s : State} (henc : s.enc.cfg = false)
    (hdec : s.dec.cfg = false) (hne : ∀ i ∈ is, (∀ m, i ≠ .encInit m) ∧ ∀ m, i ≠ .decInit m) :
    ∃ re rd, execAll is s = .next (s.respondAll re rd) ∧ Refusals is.length re rd := by
  induction is generalizing s with
  | nil => exact ⟨[], [], execAll_nil_eq_next.mpr s.respondAll_nil.symm, rfl, nofun⟩
  | cons i is ih =>
    obtain ⟨hi, his⟩ := List.forall_mem_cons.mp hne
    obtain ⟨re, rd, hexec, hone⟩ := exec_of_unconfigured henc hdec hi
    obtain ⟨re', rd', hall, hrest⟩ := ih (s := s.respondAll re rd) henc hdec his
    rw [State.respondAll_respondAll] at hall
    refine ⟨re ++ re', rd ++ rd', execAll_cons_eq_next.mpr ⟨_, hexec, hall⟩, ?_⟩
    rw [List.length_cons, Nat.add_comm]
    exact hone.append hrest

/-- Settles O11: by induction on the list, since a refusal leaves both units unconfigured. -/
theorem onlyInitWakesTheCore : Obligations.OnlyInitWakesTheCore := by
  intro is s henc hdec hne
  obtain ⟨re, rd, hall, hrefused⟩ := execAll_of_unconfigured henc hdec hne
  exact ⟨re, rd, hall, hrefused.length, hrefused.all⟩

end Sys2Proof.Machine
end
